-- ==== Sys2Proof/Word.lean ====
section
/-! DEFINITION. The word types of the block: a byte (8 bits) and a host register (32 bits), 00_scope.md R8. -/

namespace Sys2Proof

/-- A byte: what SEND and RECV move, and one cell of BUF (00_scope.md R7, R8). -/
abbrev Byte := BitVec 8

/-- A host register or a command word (00_scope.md R8, 30_encoding.md R80). -/
abbrev Word := BitVec 32

end Sys2Proof
end

