-- ==== Sys2Proof/Config.lean ====
section
/-! DEFINITION. What an implementation fixes (00_scope.md R7) and the free values: the OPEN parameters, the
environment's answers and the free schedule have no body, so nothing can be proved of their values. -/

namespace Sys2Proof

/-- The parameters of 00_scope.md R7 that a rule reads while the machine runs. `NUM_BUSES` is the number of banks of
the state. R15 calls them arguments of the step relation: no step changes them (log 4). -/
structure Params where
  /-- `LIVE`: the bank indices wired to real pins. -/
  live : List Nat
  /-- `ACK_POLL_LIMIT` (N): the most SDA reads one ACKWAIT makes, 1..65535. -/
  pollLimit : BitVec 16
deriving DecidableEq, Repr

/-- The defaults of 00_scope.md R7: `LIVE` = {0}, `ACK_POLL_LIMIT` = 250. -/
def Config.defaultParams : Params := { live := [0], pollLimit := 250 }

/-- The default of `NUM_BUSES` (00_scope.md R7). -/
def Config.defaultNumBuses : Nat := 2

/-- `BUF_SIZE` (00_scope.md R7): fixed. -/
def Config.bufSize : Nat := 256

/-- The bytes of host space a bank occupies (20_memory.md R51). -/
def Config.bankStride : Nat := 0x200

/-- OPEN: `BANK_BASE` counted in units of 0x200, since it is a multiple of 0x200 (20_memory.md R51; log 5). -/
opaque Config.bankBaseUnits : Nat

/-- `BANK_BASE` (00_scope.md R7, 20_memory.md R51). -/
def Config.bankBase : Nat := Config.bankStride * Config.bankBaseUnits

/-- OPEN: `T_HALF`, the duration of one DELAY, in a unit of the platform's (00_scope.md R7, 70_reset_and_hazards.md
R273; log 6). No rule of the model depends on it. -/
opaque Config.tHalf : Nat

/-- FREE VALUE: the environment's answer on bus `bank` to its `n`-th free draw (20_memory.md R70; log 3). -/
opaque Config.draw (bank n : Nat) : Bool

/-- FREE VALUE: how many free moves come before the engine's turn number `turn` (00_scope.md R14; log 9). -/
opaque Config.freeMoves (turn : Nat) : Nat

/-- FREE VALUE: whose engine makes free move number `pad` before turn number `turn` (00_scope.md R14; log 9). -/
opaque Config.nextEngine (turn pad : Nat) : Nat

end Sys2Proof
end

