-- ==== Sys2Proof/Syntax.lean ====
section
/-! DEFINITION. The instructions (one constructor per row of spec/opcode_table.json), the operations a command word can
name, the line events of a trace, the host's accesses, and the assembler text of 30_encoding.md section 4. -/

namespace Sys2Proof

/-- The operand fields of a CMD word (30_encoding.md R81): every command carries all three, used or not, because the
command latch copies all three (10_state.md R33). -/
structure CmdFields where
  /-- ADDR, bits 14:8: the 7-bit device address (R84). -/
  addr : BitVec 7
  /-- REG, bits 23:16: the peripheral's register address (R85). -/
  reg : Byte
  /-- DATA, bits 31:24: the data byte of WRITE_REG and P_SEND (R85). -/
  data : Byte
deriving DecidableEq, Repr

/-- The rows of spec/opcode_table.json: the thirteen commands of format CMD (30_encoding.md R87) and the four line
events of format EV (R82). -/
inductive Instr where
  | write (f : CmdFields)
  | read (f : CmdFields)
  | writeReg (f : CmdFields)
  | readReg (f : CmdFields)
  | writeRegMulti (f : CmdFields)
  | readRegMulti (f : CmdFields)
  | pStart (f : CmdFields)
  | pStop (f : CmdFields)
  | pAck (f : CmdFields)
  | pNack (f : CmdFields)
  | pAckwait (f : CmdFields)
  | pSend (f : CmdFields)
  | pRecv (f : CmdFields)
  /-- SET_SCL: V is the level written. -/
  | setScl (v : Bool)
  /-- SET_SDA: V is the level written. -/
  | setSda (v : Bool)
  /-- READ_SDA: V is the level the environment answers (log 14). -/
  | readSda (v : Bool)
  | delay
deriving DecidableEq, Repr

/-- The thirteen legal values of a CMD word's OP field (30_encoding.md R87), which `lat_op` holds (10_state.md R33). -/
inductive Op where
  | write | read | writeReg | readReg | writeRegMulti | readRegMulti
  | pStart | pStop | pAck | pNack | pAckwait | pSend | pRecv
deriving DecidableEq, Repr

/-- One entry of a bank's trace (00_scope.md R12; the event alphabet of 30_encoding.md R90). -/
inductive Ev where
  /-- `SCL(v)`. -/
  | scl (v : Bool)
  /-- `SDA(v)`. -/
  | sda (v : Bool)
  /-- `RD(r)`: the level read. -/
  | rd (r : Bool)
  /-- `DLY`. -/
  | dly
deriving DecidableEq, Repr

/-- A host access (20_memory.md R51, R53): `addr` is the host address less BANK_BASE (log 5), `width` its bits. -/
inductive Access where
  | load (addr width : Nat)
  | store (addr width : Nat) (value : Word)
deriving DecidableEq, Repr

/-- Assembler text of a command (30_encoding.md R91): `b` is the bus, numbers as written, not yet checked. -/
inductive AsmCmd where
  | write (b addr : Nat)
  | read (b addr : Nat)
  | writeReg (b addr reg byte : Nat)
  | readReg (b addr reg : Nat)
  | writeRegMulti (b addr reg : Nat)
  | readRegMulti (b addr reg : Nat)
  | pStart (b : Nat)
  | pStop (b : Nat)
  | pAck (b : Nat)
  | pNack (b : Nat)
  | pAckwait (b : Nat)
  | pSend (b byte : Nat)
  | pRecv (b : Nat)
deriving DecidableEq, Repr

/-- Host operations used to write programs (30_encoding.md R91, R92). -/
inductive HostOp where
  | cmd (c : AsmCmd)
  | setlen (b n : Nat)
  | wrbuf (b i v : Nat)
  | rdbuf (b i : Nat)
  | rdstat (b : Nat)
  | rdrx (b : Nat)
  | wait (b : Nat)
  | bfail (b label : Nat)
deriving DecidableEq, Repr

/-- The pseudo-instructions of 30_encoding.md R93. -/
inductive Pseudo where
  /-- `<cmd>.w operands`. -/
  | blocking (c : AsmCmd)
  | probe (b addr : Nat)
  | write1 (b addr v : Nat)
  | read1 (b addr : Nat)
deriving DecidableEq, Repr

end Sys2Proof
end

