-- ==== Sys2Proof/WellFormed.lean ====
section
/-! DEFINITION. Which terms the encodings admit. The fields of an `Instr` have exactly the widths of 30_encoding.md R81
and R82, so every `Instr` is well-formed; what can be ill-formed is the assembler's text, whose operands R91 checks. -/

namespace Sys2Proof

/-- Every constructor's fields fill exactly the bits its encoding gives them (30_encoding.md R81, R82, R89: every value
of a field, used or not, is legal), so no term is ill-formed. -/
def Instr.wellFormed : Instr → Bool
  | .write _ => true
  | .read _ => true
  | .writeReg _ => true
  | .readReg _ => true
  | .writeRegMulti _ => true
  | .readRegMulti _ => true
  | .pStart _ => true
  | .pStop _ => true
  | .pAck _ => true
  | .pNack _ => true
  | .pAckwait _ => true
  | .pSend _ => true
  | .pRecv _ => true
  | .setScl _ => true
  | .setSda _ => true
  | .readSda _ => true
  | .delay => true

/-- The assembler's check of a bus: `b < NUM_BUSES` (30_encoding.md R91). -/
def busFits (numBuses b : Nat) : Bool := decide (b < numBuses)

/-- The assembler's check of a device address: `addr ≤ 0x7F` (30_encoding.md R91). -/
def addrFits (addr : Nat) : Bool := decide (addr ≤ 0x7F)

/-- The assembler's check of a register address or a data byte: at most 0xFF (30_encoding.md R91). -/
def byteFits (v : Nat) : Bool := decide (v ≤ 0xFF)

/-- The assembler "refuses an operand outside its field" (30_encoding.md R91). -/
def AsmCmd.wellFormed (numBuses : Nat) : AsmCmd → Bool
  | .write b a => busFits numBuses b && addrFits a
  | .read b a => busFits numBuses b && addrFits a
  | .writeReg b a r v => busFits numBuses b && addrFits a && byteFits r && byteFits v
  | .readReg b a r => busFits numBuses b && addrFits a && byteFits r
  | .writeRegMulti b a r => busFits numBuses b && addrFits a && byteFits r
  | .readRegMulti b a r => busFits numBuses b && addrFits a && byteFits r
  | .pStart b => busFits numBuses b
  | .pStop b => busFits numBuses b
  | .pAck b => busFits numBuses b
  | .pNack b => busFits numBuses b
  | .pAckwait b => busFits numBuses b
  | .pSend b v => busFits numBuses b && byteFits v
  | .pRecv b => busFits numBuses b

end Sys2Proof
end

