-- ==== Sys2Proof/Decode.lean ====
section
/-! DEFINITION. Decoding a command word (30_encoding.md R81 to R89) and a line-event code (R82, R90), total and
rejecting by name; after it the encoder, and the assembler of R91 to R93. -/

namespace Sys2Proof

/-- Why a word or a code is no instruction. -/
inductive Reject where
  /-- OP is 0x0, 0x7 or 0xF (30_encoding.md R88). -/
  | illegalOp
  /-- RSV0 or RSV1 of a CMD word is nonzero (R83), or RSV of an event code (R82). -/
  | reservedBits
  /-- Event code 0x07: DELAY with V = 1 (R82). -/
  | noEvent
deriving DecidableEq, Repr

/-- The opcode map of 30_encoding.md R87. -/
def Op.code : Op → BitVec 4
  | .write => 0x1
  | .read => 0x2
  | .writeReg => 0x3
  | .readReg => 0x4
  | .writeRegMulti => 0x5
  | .readRegMulti => 0x6
  | .pStart => 0x8
  | .pStop => 0x9
  | .pAck => 0xA
  | .pNack => 0xB
  | .pAckwait => 0xC
  | .pSend => 0xD
  | .pRecv => 0xE

/-- The thirteen operations, in the order of 30_encoding.md R87. -/
def Op.all : List Op :=
  [.write, .read, .writeReg, .readReg, .writeRegMulti, .readRegMulti,
   .pStart, .pStop, .pAck, .pNack, .pAckwait, .pSend, .pRecv]

/-- The operation an OP field names, none for the three illegal values (30_encoding.md R87, R88). -/
def Op.ofCode (c : BitVec 4) : Option Op := Op.all.find? (fun o => o.code == c)

/-- The command an operation and its fields make. -/
def Instr.ofOp (f : CmdFields) : Op → Instr
  | .write => .write f
  | .read => .read f
  | .writeReg => .writeReg f
  | .readReg => .readReg f
  | .writeRegMulti => .writeRegMulti f
  | .readRegMulti => .readRegMulti f
  | .pStart => .pStart f
  | .pStop => .pStop f
  | .pAck => .pAck f
  | .pNack => .pNack f
  | .pAckwait => .pAckwait f
  | .pSend => .pSend f
  | .pRecv => .pRecv f

/-- The fields of a CMD word (30_encoding.md R81). -/
def cmdOp (w : Word) : BitVec 4 := w.extractLsb' 0 4

/-- RSV0, bits 7:4 (R81, R83). -/
def cmdRsv0 (w : Word) : BitVec 4 := w.extractLsb' 4 4

/-- RSV1, bit 15 (R81, R83). -/
def cmdRsv1 (w : Word) : BitVec 1 := w.extractLsb' 15 1

/-- ADDR, REG and DATA (R81). -/
def cmdFields (w : Word) : CmdFields :=
  { addr := w.extractLsb' 8 7, reg := w.extractLsb' 16 8, data := w.extractLsb' 24 8 }

/-- Decode a CMD word (30_encoding.md R83, R87, R88). -/
def decodeCmd (w : Word) : Except Reject Instr :=
  if cmdRsv0 w = 0 ∧ cmdRsv1 w = 0 then
    match Op.ofCode (cmdOp w) with
    | some o => .ok (Instr.ofOp (cmdFields w) o)
    | none => .error .illegalOp
  else .error .reservedBits

/-- Decode a line-event code (30_encoding.md R82). -/
def decodeEv (c : Byte) : Except Reject Instr :=
  if c.extractLsb' 3 5 ≠ 0 then .error .reservedBits
  else
    let v := c.getLsbD 2
    let kind := c.extractLsb' 0 2
    if kind = 0 then .ok (.setScl v)
    else if kind = 1 then .ok (.setSda v)
    else if kind = 2 then .ok (.readSda v)
    else if v then .error .noEvent
    else .ok .delay

/-- A CMD word from its fields, reserved bits 0 (30_encoding.md R81, R83). -/
def cmdWord (o : Op) (f : CmdFields) : Word :=
  f.data ++ f.reg ++ (0 : BitVec 1) ++ f.addr ++ (0 : BitVec 4) ++ o.code

/-- An event code `{00000, V, KIND}` (30_encoding.md R90). -/
def evCode (kind : BitVec 2) (v : Bool) : Byte := (0 : BitVec 5) ++ BitVec.ofBool v ++ kind

/-- The code of a trace entry (30_encoding.md R82, R90). -/
def Ev.code : Ev → Byte
  | .scl v => evCode 0 v
  | .sda v => evCode 1 v
  | .rd r => evCode 2 r
  | .dly => evCode 3 false

/-- The bits of an instruction's format: CMD 32, EV 8 (30_encoding.md R80). -/
def Instr.nbits : Instr → Nat
  | .setScl _ => 8
  | .setSda _ => 8
  | .readSda _ => 8
  | .delay => 8
  | .write _ => 32
  | .read _ => 32
  | .writeReg _ => 32
  | .readReg _ => 32
  | .writeRegMulti _ => 32
  | .readRegMulti _ => 32
  | .pStart _ => 32
  | .pStop _ => 32
  | .pAck _ => 32
  | .pNack _ => 32
  | .pAckwait _ => 32
  | .pSend _ => 32
  | .pRecv _ => 32

/-- The encoder: the word or the code of an instruction, as a number (30_encoding.md R81, R82, R87, R90). -/
def encode : Instr → Nat
  | .write f => (cmdWord .write f).toNat
  | .read f => (cmdWord .read f).toNat
  | .writeReg f => (cmdWord .writeReg f).toNat
  | .readReg f => (cmdWord .readReg f).toNat
  | .writeRegMulti f => (cmdWord .writeRegMulti f).toNat
  | .readRegMulti f => (cmdWord .readRegMulti f).toNat
  | .pStart f => (cmdWord .pStart f).toNat
  | .pStop f => (cmdWord .pStop f).toNat
  | .pAck f => (cmdWord .pAck f).toNat
  | .pNack f => (cmdWord .pNack f).toNat
  | .pAckwait f => (cmdWord .pAckwait f).toNat
  | .pSend f => (cmdWord .pSend f).toNat
  | .pRecv f => (cmdWord .pRecv f).toNat
  | .setScl v => (evCode 0 v).toNat
  | .setSda v => (evCode 1 v).toNat
  | .readSda v => (evCode 2 v).toNat
  | .delay => (evCode 3 false).toNat

/-- The instruction decoded from a table row's bits: up to 8 bits an event code, up to 32 bits a command word, the bits
above `nbits` zero. A command word is one 32-bit host write and an event code one byte, so no byte order enters. -/
def decodeTableWord (nbits w : Nat) : Option Instr :=
  if nbits ≤ 8 then (decodeEv (BitVec.ofNat 8 (w % 2 ^ nbits))).toOption
  else if nbits ≤ 32 then (decodeCmd (BitVec.ofNat 32 (w % 2 ^ nbits))).toOption
  else none

/-! The assembler (30_encoding.md R91 to R93). Addresses are offsets from BANK_BASE. -/

/-- The fields of an assembled command; "the assembler writes unused fields as 0" (R91). -/
def asmFields (addr reg byte : Nat) : CmdFields :=
  { addr := BitVec.ofNat 7 addr, reg := BitVec.ofNat 8 reg, data := BitVec.ofNat 8 byte }

/-- The bus of a line of assembler text (R91). -/
def AsmCmd.bus : AsmCmd → Nat
  | .write b _ => b
  | .read b _ => b
  | .writeReg b _ _ _ => b
  | .readReg b _ _ => b
  | .writeRegMulti b _ _ => b
  | .readRegMulti b _ _ => b
  | .pStart b => b
  | .pStop b => b
  | .pAck b => b
  | .pNack b => b
  | .pAckwait b => b
  | .pSend b _ => b
  | .pRecv b => b

/-- The command a line of assembler text names (R91). -/
def AsmCmd.instr : AsmCmd → Instr
  | .write _ a => .write (asmFields a 0 0)
  | .read _ a => .read (asmFields a 0 0)
  | .writeReg _ a r v => .writeReg (asmFields a r v)
  | .readReg _ a r => .readReg (asmFields a r 0)
  | .writeRegMulti _ a r => .writeRegMulti (asmFields a r 0)
  | .readRegMulti _ a r => .readRegMulti (asmFields a r 0)
  | .pStart _ => .pStart (asmFields 0 0 0)
  | .pStop _ => .pStop (asmFields 0 0 0)
  | .pAck _ => .pAck (asmFields 0 0 0)
  | .pNack _ => .pNack (asmFields 0 0 0)
  | .pAckwait _ => .pAckwait (asmFields 0 0 0)
  | .pSend _ v => .pSend (asmFields 0 0 v)
  | .pRecv _ => .pRecv (asmFields 0 0 0)

/-- The bank and the word of a line of assembler text, none where the assembler refuses it (R91). -/
def AsmCmd.assemble (numBuses : Nat) (c : AsmCmd) : Option (Nat × Word) :=
  if c.wellFormed numBuses then some (c.bus, BitVec.ofNat 32 (encode c.instr)) else none

/-- The address of offset `off` in bank `b`, less BANK_BASE (20_memory.md R51). -/
def bankAddr (b off : Nat) : Nat := Config.bankStride * b + off

/-- The access a host operation makes (R92): for `wait` one turn of its loop, for `bfail` its load. A command the
assembler refuses makes none. DESIGN CHOICE (log 22): R92 gives the operands of the other lines no range and none is
refused: `n` and `v` are taken modulo 2 ^ 32 (an 8-bit store then takes bits 7:0 of `v`, LEN bits 15:0 of `n`), an `i`
above 255 runs on into the offsets after the bank, and a `b` that no bank has is an access outside every bank. -/
def HostOp.access (numBuses : Nat) : HostOp → Option Access
  | .cmd c => (c.assemble numBuses).map (fun p => .store (bankAddr p.1 0x000) 32 p.2)
  | .setlen b n => some (.store (bankAddr b 0x008) 32 (BitVec.ofNat 32 n))
  | .wrbuf b i v => some (.store (bankAddr b (0x100 + i)) 8 (BitVec.ofNat 32 v))
  | .rdbuf b i => some (.load (bankAddr b (0x100 + i)) 8)
  | .rdstat b => some (.load (bankAddr b 0x004) 32)
  | .rdrx b => some (.load (bankAddr b 0x00C) 32)
  | .wait b => some (.load (bankAddr b 0x004) 32)
  | .bfail b _ => some (.load (bankAddr b 0x004) 32)

/-- `wait` ends at a STATUS whose bit 0 is 0 (R92). -/
def waitEnds (status : Word) : Bool := !status.getLsbD 0

/-- `bfail` branches at a STATUS whose bit 1 is 1 (R92). -/
def bfailTaken (status : Word) : Bool := status.getLsbD 1

/-- The expansions of 30_encoding.md R93; `write1`'s `v` is `wrbuf`'s (log 22). -/
def Pseudo.expand : Pseudo → List HostOp
  | .blocking c => [.cmd c, .wait c.bus]
  | .probe b a => [.setlen b 0, .cmd (.write b a), .wait b]
  | .write1 b a v => [.wrbuf b 0 v, .setlen b 1, .cmd (.write b a), .wait b]
  | .read1 b a => [.setlen b 1, .cmd (.read b a), .wait b]

end Sys2Proof
end

