-- ==== Sys2Proof/Machine/State.lean ====
section
/-! DEFINITION. The state of the block as plain data (10_state.md), the agents' moves still to come, what the host and
the environment have exchanged with it, the reasons a step can stop, and the state after reset (10_state.md R44). -/

namespace Sys2Proof.Machine

/-- STATUS.CAUSE (10_state.md R27). -/
inductive Cause where
  | none | ackTimeout | badLen | illegal
deriving DecidableEq, Repr

/-- STATUS (10_state.md R24): its reserved bits always read 0 and the host cannot write it, so the three fields are all
it holds; `statusWord` is the register as read. -/
structure Status where
  busy : Bool
  fail : Bool
  cause : Cause
deriving DecidableEq, Repr

/-- What the engine does at the end of the step that makes a DELAY event, besides the event (log 15). -/
inductive Fx where
  | none
  /-- `bc <- bc + 1`: a bit of SEND or RECV is over (42_byte_transfer.md R160, R162). -/
  | nextBit
  /-- `MemWrite(idx, 1, v)` with v = `sr` (43_transactions.md R187, R191). -/
  | storeBuf
  /-- `RXDATA <- zext_32(v)` with v = `sr` (43_transactions.md R189, 42_byte_transfer.md R162). -/
  | storeRx
deriving DecidableEq, Repr

/-- What a READ_SDA event is for. -/
inductive Use where
  /-- RECV's sample: `sr <- ((sr << 1) | r)[7:0]` (42_byte_transfer.md R162). -/
  | sample
  /-- ACKWAIT's poll (41_signals.md R140). -/
  | poll
deriving DecidableEq, Repr

/-- One line event of the running procedure, still to be made. -/
inductive Micro where
  | scl (v : Bool)
  | sda (v : Bool)
  | dly (fx : Fx)
  | read (use : Use)
deriving DecidableEq, Repr

/-- Where SEND's byte comes from (42_byte_transfer.md R160, 43_transactions.md R184). -/
inductive Src where
  | addrW | addrR | reg | data
  /-- `MemRead(idx, 1)` with `idx` = i. -/
  | buf (i : Byte)
deriving DecidableEq, Repr

/-- Where RECV's byte goes: left in `sr` for a later step, to RXDATA, or to BUF at `idx` = i. -/
inductive Dst where
  | keep | rx
  | buf (i : Byte)
deriving DecidableEq, Repr

/-- A procedure call of a command's rule (41_signals.md, 42_byte_transfer.md, 43_transactions.md). -/
inductive Call where
  | start
  /-- STOP; `rx`: READ_REG's, after which RXDATA takes the received byte (43_transactions.md R189). -/
  | stop (rx : Bool)
  | ack | nack | ackwait
  | send (src : Src)
  | recv (dst : Dst)
deriving DecidableEq, Repr

/-- The sequencer position `seq` (10_state.md R38): idle, or the events left of the running procedure, the calls left of
the command after it, and what the completion step will report (`none`: `Complete(ok)`, else `raise Fail`). With no event
and no call left, the completion step is next. -/
inductive Seq where
  | idle
  | run (todo : List Micro) (calls : List Call) (cause : Cause)
deriving DecidableEq, Repr

/-- One bus instance (10_state.md): its register bank, its engine's internal state, its trace, and the environment of
its bus. -/
structure Bank where
  /-- `scl_out` (R22); `true` is 1, released (00_scope.md R9). -/
  scl : Bool
  /-- `sda_out` (R22). -/
  sda : Bool
  /-- STATUS (R24). -/
  status : Status
  /-- LEN, bits 15:0 (R28). -/
  len : BitVec 16
  /-- RXDATA, bits 7:0 (R29). -/
  rxdata : Byte
  /-- BUF (R32): the written bytes by index, rising; an index not listed holds no value (20_memory.md R64). -/
  buf : List Host.Cell
  /-- The command latch (R33). -/
  latOp : Op
  latAddr : BitVec 7
  latReg : Byte
  latData : Byte
  latLen : BitVec 16
  /-- The shift register (R34). -/
  sr : Byte
  /-- The bit counter (R35). -/
  bc : BitVec 4
  /-- The poll counter (R36). -/
  pcnt : BitVec 16
  /-- The byte index (R37); what it holds where no buffer byte is in transfer: log 23. -/
  idx : BitVec 16
  /-- The sequencer position (R38). -/
  seq : Seq
  /-- The event trace (00_scope.md R12, R43), oldest first. -/
  trace : List Ev
  /-- The environment's answers already fixed, the next one first (log 3). -/
  answers : List Bool
  /-- How many free draws the environment has made (log 3). -/
  draws : Nat
deriving DecidableEq, Repr

/-- A move of one agent (00_scope.md R14), or of the reset input (70_reset_and_hazards.md R260). -/
inductive Action where
  | host (a : Access)
  | engine (b : Nat)
  | reset
deriving DecidableEq, Repr

/-- The model faults of 60_exceptions.md R235, as a host access records them. -/
inductive ModelFault where
  | busyAccess | badAccess | uninitBuf
deriving DecidableEq, Repr

/-- The state of the block. -/
structure State where
  /-- The parameters (00_scope.md R7, R15); no step changes them. -/
  params : Params
  /-- The banks; NUM_BUSES is their number. -/
  banks : List Bank
  /-- The bank index b of the step under way (00_scope.md R15, 30_encoding.md R86; log 11). -/
  bus : Nat
  /-- The agents' moves still to come, the next one first (log 9). -/
  inputs : List Action
  /-- How many turns the free schedule has given to the engines, bank after bank (log 9). -/
  turn : Nat
  /-- How many free moves have been made since the last turn (log 9). -/
  pad : Nat
  /-- What the host's loads answered, oldest first; `none` where the load faulted and has no value (log 12). -/
  reads : List (Option Word)
  /-- The model faults recorded, oldest first, each with its bank (60_exceptions.md R235; log 1). -/
  faults : List (Nat × ModelFault)
deriving DecidableEq, Repr

/-- Why a step stops. -/
inductive Fault where
  /-- Raised by the engine step that begins the SEND of a BUF byte nothing has written, in WRITE and WRITE_REG_MULTI
  (20_memory.md R64: "no further step is defined", 95_test_vectors.md V66). Safe: the model stops (log 2). -/
  | uninitBuf (b : Nat) (i : Byte)
  /-- Raised by `exec` where `State.bus` is the index of no bank (30_encoding.md R86: such a command cannot be named); no
  step of the machine raises it. Safe: the model stops (log 18). -/
  | noBank
deriving DecidableEq, Repr

/-- Why an instruction has no meaning. -/
inductive Refusal where
  /-- Raised by an arm of `exec` whose instruction has no meaning yet; no arm is one. Safe: the model stops. -/
  | notModelled (mnemonic : String)
deriving DecidableEq, Repr

/-- What `exec` and `step` answer. -/
abbrev Out := Host.Outcome State Fault Refusal

/-- A bank after reset (10_state.md R44). The latch, `sr`, `bc`, `pcnt` and `idx` are unspecified there; the values here
are the model's (R39: no rule reads them before writing them; log 7). -/
def Bank.reset : Bank :=
  { scl := true, sda := true, status := { busy := false, fail := false, cause := .none }, len := 0, rxdata := 0,
    buf := [], latOp := .write, latAddr := 0, latReg := 0, latData := 0, latLen := 0, sr := 0, bc := 0, pcnt := 0,
    idx := 0, seq := .idle, trace := [], answers := [], draws := 0 }

/-- The block after reset with the parameters `p` and `n` buses. -/
def State.resetWith (p : Params) (n : Nat) : State :=
  { params := p, banks := List.replicate n Bank.reset, bus := 0, inputs := [], turn := 0, pad := 0, reads := [],
    faults := [] }

/-- The block after reset (10_state.md R44, 70_reset_and_hazards.md R260), with the parameters' defaults
(00_scope.md R7). -/
def State.reset : State := State.resetWith Config.defaultParams Config.defaultNumBuses

end Sys2Proof.Machine
end

