-- ==== Sys2Proof/Machine/Flags.lean ====
section
/-! DEFINITION. The status computations (10_state.md R24 to R27, R40: the only flags), the LINE view (R30), the length
checks (43_transactions.md R183) and the completion step's result (R182). -/

namespace Sys2Proof.Machine

/-- The CAUSE codes (10_state.md R27). -/
def Cause.code : Cause → BitVec 2
  | .none => 0
  | .ackTimeout => 1
  | .badLen => 2
  | .illegal => 3

/-- STATUS as a host load reads it: BUSY bit 0, FAIL bit 1, CAUSE bits 3:2, the rest 0 (10_state.md R24). -/
def statusWord (st : Status) : Word :=
  (0 : BitVec 28) ++ st.cause.code ++ BitVec.ofBool st.fail ++ BitVec.ofBool st.busy

/-- LINE as a host load reads it: `scl_out` bit 0, `sda_out` bit 1, the rest 0 (10_state.md R30). -/
def lineWord (scl sda : Bool) : Word := (0 : BitVec 30) ++ BitVec.ofBool sda ++ BitVec.ofBool scl

/-- STATUS of an accepted command (43_transactions.md R180). -/
def Status.running : Status := { busy := true, fail := false, cause := .none }

/-- STATUS after `Complete(ok)`, with the cause `none`, or after `raise Fail(c)` (43_transactions.md R182); also of a
command rejected with cause c (R180). CAUSE is 0 exactly where FAIL is (10_state.md R27). -/
def Status.ended (c : Cause) : Status := { busy := false, fail := decide (c ≠ .none), cause := c }

/-- The commands whose length may not be 0 (43_transactions.md R183). -/
def readsIntoBuf : Op → Bool
  | .read => true
  | .readRegMulti => true
  | .write => false
  | .writeReg => false
  | .readReg => false
  | .writeRegMulti => false
  | .pStart => false
  | .pStop => false
  | .pAck => false
  | .pNack => false
  | .pAckwait => false
  | .pSend => false
  | .pRecv => false

/-- The commands that send from BUF (43_transactions.md R186, R190). -/
def sendsFromBuf : Op → Bool
  | .write => true
  | .writeRegMulti => true
  | .read => false
  | .readRegMulti => false
  | .writeReg => false
  | .readReg => false
  | .pStart => false
  | .pStop => false
  | .pAck => false
  | .pNack => false
  | .pAckwait => false
  | .pSend => false
  | .pRecv => false

/-- `bad_len(op, n)` (43_transactions.md R183). -/
def badLen (op : Op) (n : BitVec 16) : Bool :=
  (readsIntoBuf op && decide (n = 0)) ||
    ((readsIntoBuf op || sendsFromBuf op) && decide (Config.bufSize < n.toNat))

end Sys2Proof.Machine
end

