-- ==== Sys2Proof/Machine/Ops.lean ====
section
/-! DEFINITION. The named operations over BUF (20_memory.md R56, R57, R64), the banks, the trace and the recorded faults;
accepting, turning away and completing a command (43_transactions.md R180 to R182), which is all this block has of taking
and leaving an exception (60_exceptions.md R230, R237, R238); the reset input (70_reset_and_hazards.md R260, R262). -/

namespace Sys2Proof.Machine

/-- `MemRead(a, 1)`, and a host's 8-bit read: none for a byte nothing has written (20_memory.md R56, R64). -/
def Memory.read : List Host.Cell → Nat → Option Byte
  | [], _ => none
  | c :: m, a => if c.1 = a then some c.2 else Memory.read m a

/-- `MemWrite(a, 1, v)`, and a host's 8-bit write, keeping the cells in rising order (20_memory.md R56). -/
def Memory.write : List Host.Cell → Nat → Byte → List Host.Cell
  | [], a, v => [(a, v)]
  | c :: m, a, v =>
    if a < c.1 then (a, v) :: c :: m
    else if c.1 = a then (a, v) :: m
    else c :: Memory.write m a v

/-- A host's 32-bit read of BUF[i] to BUF[i+3], little-endian; none where one of them was never written (20_memory.md
R57, R64). -/
def Memory.read32 (m : List Host.Cell) (i : Nat) : Option Word :=
  match Memory.read m i, Memory.read m (i + 1), Memory.read m (i + 2), Memory.read m (i + 3) with
  | some b0, some b1, some b2, some b3 => some (b3 ++ b2 ++ b1 ++ b0)
  | _, _, _, _ => none

/-- A host's 32-bit write of BUF[i] to BUF[i+3], little-endian (20_memory.md R57). -/
def Memory.write32 (m : List Host.Cell) (i : Nat) (v : Word) : List Host.Cell :=
  Memory.write
    (Memory.write
      (Memory.write (Memory.write m i (v.extractLsb' 0 8)) (i + 1) (v.extractLsb' 8 8))
      (i + 2) (v.extractLsb' 16 8))
    (i + 3) (v.extractLsb' 24 8)

/-- The canonical form of BUF: indices strictly rising, each a byte of the buffer. An unlisted index holds no value, so
every listed byte differs from what an unlisted one reads as. -/
abbrev Memory.wf (m : List Host.Cell) : Prop :=
  m.Pairwise (fun c d => c.1 < d.1) ∧ ∀ c ∈ m, c.1 < Config.bufSize

/-- Put bank `b`. -/
def State.setBank (s : State) (b : Nat) (k : Bank) : State := { s with banks := s.banks.set b k }

/-- Record a model fault of a host access to bank `b` (60_exceptions.md R235; log 1). -/
def State.recordFault (s : State) (b : Nat) (f : ModelFault) : State := { s with faults := s.faults ++ [(b, f)] }

/-- Give the host the answer of a load (log 12). -/
def State.answerHost (s : State) (v : Option Word) : State := { s with reads := s.reads ++ [v] }

/-- Whether bank `b` is wired to real pins (00_scope.md R7, 10_state.md R23). -/
def State.isLive (s : State) (b : Nat) : Bool := s.params.live.contains b

/-- Change the bank of the step under way. -/
def onBank (s : State) (f : Bank → Bank) : Out :=
  match s.banks[s.bus]? with
  | some k => .next (s.setBank s.bus (f k))
  | none => .fault .noBank

/-- Append one event to a bank's trace (00_scope.md R12). -/
def Bank.emit (k : Bank) (e : Ev) : Bank := { k with trace := k.trace ++ [e] }

/-- A command rejected at its CMD write: STATUS and nothing else (43_transactions.md R180). -/
def Bank.reject (k : Bank) (c : Cause) : Bank := { k with status := Status.ended c }

/-- An accepted command: the latch (10_state.md R33), STATUS, and the sequencer at the first event of the command's rule
(43_transactions.md R180). -/
def Bank.accept (k : Bank) (op : Op) (f : CmdFields) (calls : List Call) : Bank :=
  { k with
    latOp := op, latAddr := f.addr, latReg := f.reg, latData := f.data, latLen := k.len,
    status := Status.running, seq := .run [] calls .none }

/-- The completion step: `Complete(ok)` with the cause `none`, else `raise Fail(c)` (43_transactions.md R182). -/
def Bank.complete (k : Bank) (c : Cause) : Bank := { k with status := Status.ended c, seq := .idle }

/-- A CMD write of a legal word (43_transactions.md R180, R181): the command of operation `op`, whose rule makes the
procedure calls `calls n` for the length n. -/
def acceptCommand (op : Op) (f : CmdFields) (calls : Nat → List Call) (s : State) : Out :=
  match s.banks[s.bus]? with
  | none => .fault .noBank
  | some k =>
    if k.status.busy then .next (s.recordFault s.bus .busyAccess)
    else if badLen op k.len then .next (s.setBank s.bus (k.reject .badLen))
    else .next (s.setBank s.bus (k.accept op f (calls k.len.toNat)))

/-- A CMD write of an illegal word (30_encoding.md R88, 43_transactions.md R180, R181). -/
def rejectIllegal (s : State) : Out :=
  match s.banks[s.bus]? with
  | none => .fault .noBank
  | some k =>
    if k.status.busy then .next (s.recordFault s.bus .busyAccess)
    else .next (s.setBank s.bus (k.reject .illegal))

/-- A bank at a reset: every value of 10_state.md R44, its command abandoned with no STOP, its BUF unwritten
(70_reset_and_hazards.md R260, R262). The environment is no part of the block and goes on (log 16). -/
def Bank.afterReset (k : Bank) : Bank := { Bank.reset with answers := k.answers, draws := k.draws }

/-- The reset input: "one reset input that resets every bank at once" (70_reset_and_hazards.md R260). -/
def State.resetInput (s : State) : State := { s with banks := s.banks.map Bank.afterReset }

/-! Counts over a trace. -/

/-- The DELAY events of a trace (70_reset_and_hazards.md R273). -/
def delayCount (t : List Ev) : Nat := t.countP (fun e => decide (e = .dly))

/-- The SET_SCL(1) events of a trace: R274's "SCL high pulses". -/
def sclHighCount (t : List Ev) : Nat := t.countP (fun e => decide (e = .scl true))

/-- "A command's duration is at least its DELAY count times T_HALF" (70_reset_and_hazards.md R273). -/
def minDuration (t : List Ev) : Nat := delayCount t * Config.tHalf

/-- The line transitions of a trace that starts from the outputs `scl` and `sda`: writes that change the level they
write (00_scope.md R13). -/
def transitions (scl sda : Bool) : List Ev → Nat
  | [] => 0
  | .scl v :: t => (if v = scl then 0 else 1) + transitions v sda t
  | .sda v :: t => (if v = sda then 0 else 1) + transitions scl v t
  | .rd _ :: t => transitions scl sda t
  | .dly :: t => transitions scl sda t

/-- The start and stop conditions on the wire: the SDA transitions made while SCL is high, `false` for a start
(SDA falls) and `true` for a stop (SDA rises) (00_scope.md glossary, 40_line_driver.md R112). -/
def conditions (scl sda : Bool) : List Ev → List Bool
  | [] => []
  | .scl v :: t => conditions v sda t
  | .sda v :: t => if scl ∧ v ≠ sda then v :: conditions scl v t else conditions scl v t
  | .rd _ :: t => conditions scl sda t
  | .dly :: t => conditions scl sda t

end Sys2Proof.Machine
end

