-- ==== Sys2Proof/Machine/Operands.lean ====
section
/-! DEFINITION. The operand forms: the address bytes (43_transactions.md R184), the byte a SEND takes from the latch or
from BUF, what a READ_SDA reads (40_line_driver.md R114, R115), and the offsets of a host access (20_memory.md R51 to
R55). -/

namespace Sys2Proof.Machine

/-- `AB_W`: the address with the direction bit 0 appended (43_transactions.md R184). -/
def addrByteW (addr : BitVec 7) : Byte := (addr.setWidth 8 <<< 1) ||| 0

/-- `AB_R`: the address with the direction bit 1 appended (43_transactions.md R184). -/
def addrByteR (addr : BitVec 7) : Byte := (addr.setWidth 8 <<< 1) ||| 1

/-- The byte a SEND takes: from the latch (10_state.md R33, 20_memory.md R71), or BUF[i], which may hold no value
(20_memory.md R64). -/
def sendByte (k : Bank) : Src → Option Byte
  | .addrW => some (addrByteW k.latAddr)
  | .addrR => some (addrByteR k.latAddr)
  | .reg => some k.latReg
  | .data => some k.latData
  | .buf i => Memory.read k.buf i.toNat

/-- What READ_SDA reads where the environment answers `e`: on a live bank the wired-AND with the master's own output
(40_line_driver.md R114), on a placeholder bank `e` itself (R115). -/
def readLevel (live sda e : Bool) : Bool := if live then sda && e else e

/-- The environment's next answer on bus `b`: the first one already fixed, else a free draw (20_memory.md R70; log 3). -/
def drawAnswer (b : Nat) (k : Bank) : Bool × Bank :=
  match k.answers with
  | e :: es => (e, { k with answers := es })
  | [] => (Config.draw b k.draws, { k with draws := k.draws + 1 })

/-- `sr` after one sample: `((sr << 1) | r)[7:0]` (42_byte_transfer.md R162). -/
def shiftIn (sr : Byte) (r : Bool) : Byte := (sr <<< 1) ||| (BitVec.ofBool r).setWidth 8

/-- A host address less BANK_BASE, where it is not below it (20_memory.md R51; log 5). -/
def blockAddr (hostAddr : Nat) : Option Nat :=
  if Config.bankBase ≤ hostAddr then some (hostAddr - Config.bankBase) else none

/-- The bank and the offset an address (less BANK_BASE) selects; none outside every bank (20_memory.md R51, R55). -/
def selectBank (numBuses addr : Nat) : Option (Nat × Nat) :=
  if addr / Config.bankStride < numBuses then some (addr / Config.bankStride, addr % Config.bankStride) else none

/-- What an access of a width at an offset of a bank reaches (20_memory.md R52, R53). -/
inductive Target where
  | cmd | status | len | rxdata | line
  /-- BUF[i], 8 bits. -/
  | buf8 (i : Nat)
  /-- BUF[i] to BUF[i+3], 32 bits. -/
  | buf32 (i : Nat)
  /-- Nothing: fault BAD_ACCESS (20_memory.md R54, R55). -/
  | bad
deriving DecidableEq, Repr

/-- The access rules of 20_memory.md R52 to R55. -/
def accessTarget (width off : Nat) : Target :=
  if width = 32 ∧ off % 4 = 0 then
    if off = 0x000 then .cmd
    else if off = 0x004 then .status
    else if off = 0x008 then .len
    else if off = 0x00C then .rxdata
    else if off = 0x010 then .line
    else if 0x100 ≤ off then .buf32 (off - 0x100)
    else .bad
  else if width = 8 ∧ 0x100 ≤ off then .buf8 (off - 0x100)
  else .bad

/-- The targets a host may load while the bank is busy (20_memory.md R63). -/
def readableWhileBusy : Target → Bool
  | .status => true
  | .line => true
  | .cmd => false
  | .len => false
  | .rxdata => false
  | .buf8 _ => false
  | .buf32 _ => false
  | .bad => false

/-- The value a host load of an idle bank answers, or the fault it records (10_state.md R24 to R31, 20_memory.md R57,
R60, R64). -/
def loadValue (k : Bank) : Target → Except ModelFault Word
  | .cmd => .ok 0
  | .status => .ok (statusWord k.status)
  | .len => .ok (k.len.setWidth 32)
  | .rxdata => .ok (k.rxdata.setWidth 32)
  | .line => .ok (lineWord k.scl k.sda)
  | .buf8 i =>
    match Memory.read k.buf i with
    | some v => .ok (v.setWidth 32)
    | none => .error .uninitBuf
  | .buf32 i =>
    match Memory.read32 k.buf i with
    | some v => .ok v
    | none => .error .uninitBuf
  | .bad => .error .badAccess

/-- The bank after a host store that is no CMD write, or the fault it records (20_memory.md R57, R61, R62). A CMD write
goes through `cmdWrite`, never here. -/
def storeEffect (k : Bank) (v : Word) : Target → Except ModelFault Bank
  | .cmd => .ok k
  | .status => .ok k
  | .rxdata => .ok k
  | .line => .ok k
  | .len => .ok { k with len := v.setWidth 16 }
  | .buf8 i => .ok { k with buf := Memory.write k.buf i (v.setWidth 8) }
  | .buf32 i => .ok { k with buf := Memory.write32 k.buf i v }
  | .bad => .error .badAccess

end Sys2Proof.Machine
end

