-- ==== Sys2Proof/Machine/Procedures.lean ====
section
/-! DEFINITION. The procedures the commands call, as the line events each makes: START, STOP, ACK, NACK, ACKWAIT
(41_signals.md), SEND and RECV (42_byte_transfer.md); beginning a call; and what the engine does after each event. -/

namespace Sys2Proof.Machine

/-- A procedure's events: at least one. -/
structure Events where
  first : Micro
  rest : List Micro
deriving DecidableEq, Repr

/-- `Delay()` with nothing else in the step. -/
def wait : Micro := .dly .none

/-- START: `d1 c1 w d0 w c0 w` (41_signals.md R130). -/
def startEvents : Events := ⟨.sda true, [.scl true, wait, .sda false, wait, .scl false, wait]⟩

/-- STOP: `c0 d0 w c1 w d1 w` (41_signals.md R132); `fx` comes with its last DELAY. -/
def stopEvents (fx : Fx) : Events := ⟨.scl false, [.sda false, wait, .scl true, wait, .sda true, .dly fx]⟩

/-- ACK: `d0 w c1 w c0 w d1` (41_signals.md R134). -/
def ackEvents : Events := ⟨.sda false, [wait, .scl true, wait, .scl false, wait, .sda true]⟩

/-- NACK: `c1 w c0 w` (41_signals.md R135). -/
def nackEvents : Events := ⟨.scl true, [wait, .scl false, wait]⟩

/-- ACKWAIT up to its first poll: `d1 w c1 w` and a read (41_signals.md R140). -/
def ackwaitEvents : Events := ⟨.sda true, [wait, .scl true, wait, .read .poll]⟩

/-- ACKWAIT after a poll that reads low: `c0 w` (41_signals.md R140). -/
def ackedEvents : List Micro := [.scl false, wait]

/-- One bit of SEND after its `SetSDA`: `c1 w c0 w` (42_byte_transfer.md R160). -/
def sendClock : List Micro := [.scl true, wait, .scl false, .dly .nextBit]

/-- One bit of SEND: `d<v> c1 w c0 w` (42_byte_transfer.md R160). -/
def sendBit (v : Bool) : List Micro := .sda v :: sendClock

/-- SEND(x): bits 7 down to 0 (42_byte_transfer.md R160, 20_memory.md R58). -/
def sendEvents (x : Byte) : Events :=
  ⟨.sda (x.getLsbD 7), sendClock ++ [6, 5, 4, 3, 2, 1, 0].flatMap (fun i => sendBit (x.getLsbD i))⟩

/-- One bit of RECV after its `SetSCL(0)`: `w c1 r w` (42_byte_transfer.md R162). -/
def recvClock : List Micro := [wait, .scl true, .read .sample, .dly .nextBit]

/-- RECV: eight bits `c0 w c1 r w`, then `c0 w` (42_byte_transfer.md R162); `fx` comes with its last DELAY. -/
def recvEvents (fx : Fx) : Events :=
  ⟨.scl false, recvClock ++ (List.replicate 7 (.scl false :: recvClock)).flatten ++ [.scl false, .dly fx]⟩

/-- What becomes of RECV's byte at the end of RECV. -/
def Dst.fx : Dst → Fx
  | .keep => .none
  | .rx => .storeRx
  | .buf _ => .storeBuf

/-- Begin a procedure call: its counters set (`bc <- 0`, `pcnt <- 0`, `idx` the loop's value; 10_state.md R35 to R37,
R39), its operand read (20_memory.md R71: "BUF bytes are read by the engine when the SEND of that byte begins"), and its
events. The error is the BUF index that holds no value (20_memory.md R64). DESIGN CHOICE (log 23): nothing else writes
`idx`, so it stays at `lat_len - 1` after the last byte and keeps its value where no buffer byte is in transfer, with
LEN = 0 too; R37 leaves that open. -/
def beginCall (k : Bank) : Call → Except Byte (Bank × Events)
  | .start => .ok (k, startEvents)
  | .stop rx => .ok (k, stopEvents (if rx then .storeRx else .none))
  | .ack => .ok (k, ackEvents)
  | .nack => .ok (k, nackEvents)
  | .ackwait => .ok ({ k with pcnt := 0 }, ackwaitEvents)
  | .send (.buf i) =>
    match sendByte k (.buf i) with
    | some x => .ok ({ k with bc := 0, idx := i.setWidth 16 }, sendEvents x)
    | none => .error i
  | .send .addrW => .ok ({ k with bc := 0 }, sendEvents (addrByteW k.latAddr))
  | .send .addrR => .ok ({ k with bc := 0 }, sendEvents (addrByteR k.latAddr))
  | .send .reg => .ok ({ k with bc := 0 }, sendEvents k.latReg)
  | .send .data => .ok ({ k with bc := 0 }, sendEvents k.latData)
  | .recv (.buf i) => .ok ({ k with bc := 0, idx := i.setWidth 16 }, recvEvents .storeBuf)
  | .recv .rx => .ok ({ k with bc := 0 }, recvEvents .storeRx)
  | .recv .keep => .ok ({ k with bc := 0 }, recvEvents .none)

/-- What the engine's next step is. -/
inductive NextOp where
  /-- The completion step (43_transactions.md R182). -/
  | complete
  /-- BUF[i] is to be sent and holds no value (20_memory.md R64). -/
  | uninit (i : Byte)
  /-- The line event `m` of bank `k`, with `todo` and `calls` left after it. -/
  | perform (k : Bank) (m : Micro) (todo : List Micro) (calls : List Call)
deriving DecidableEq, Repr

/-- The sequencer: the running procedure's next event, or the first event of the next call, or the completion step
(10_state.md R38, 43_transactions.md R182). -/
def nextOp (k : Bank) : List Micro → List Call → NextOp
  | m :: todo, calls => .perform k m todo calls
  | [], [] => .complete
  | [], c :: calls =>
    match beginCall k c with
    | .ok (k', e) => .perform k' e.first e.rest calls
    | .error i => .uninit i

/-- ACKWAIT after a poll that read `r` (41_signals.md R140, R141): a low read succeeds; a high read counts; at N high
reads STOP follows, the calls left are dropped (43_transactions.md R185) and the command will fail. -/
def afterPoll (limit : BitVec 16) (r : Bool) (todo : List Micro) (calls : List Call) (cause : Cause) (k : Bank) : Bank :=
  if r then
    if k.pcnt + 1 = limit then
      { k with
        pcnt := k.pcnt + 1
        seq := .run ((stopEvents .none).first :: (stopEvents .none).rest) [] .ackTimeout }
    else { k with pcnt := k.pcnt + 1, seq := .run (.read .poll :: todo) calls cause }
  else { k with seq := .run (ackedEvents ++ todo) calls cause }

/-- What the engine does after the event of `m`, in the same step: the internal assignments, the move of the sequencer.
`r` is the level a READ_SDA read. -/
def afterEvent (limit : BitVec 16) (r : Bool) (todo : List Micro) (calls : List Call) (cause : Cause) (k : Bank) :
    Micro → Bank
  | .scl _ => { k with seq := .run todo calls cause }
  | .sda _ => { k with seq := .run todo calls cause }
  | .dly .none => { k with seq := .run todo calls cause }
  | .dly .nextBit => { k with bc := k.bc + 1, seq := .run todo calls cause }
  | .dly .storeBuf =>
    { k with buf := Memory.write k.buf (k.idx.setWidth 8).toNat k.sr, seq := .run todo calls cause }
  | .dly .storeRx => { k with rxdata := k.sr, seq := .run todo calls cause }
  | .read .sample => { k with sr := shiftIn k.sr r, seq := .run todo calls cause }
  | .read .poll => afterPoll limit r todo calls cause k

/-- The instruction (a line event) a step of the engine performs; `e` is the environment's answer. -/
def eventInstr (e : Bool) : Micro → Instr
  | .scl v => .setScl v
  | .sda v => .setSda v
  | .dly _ => .delay
  | .read _ => .readSda e

end Sys2Proof.Machine
end

