-- ==== Sys2Proof/Machine/LineDriver.lean ====
section
/-! DEFINITION. The four Line Driver operations, format EV (40_line_driver.md): each performs exactly one change or read
and appends exactly one event (R110), and none fails (R117). -/

namespace Sys2Proof.Machine

/-- SET_SCL (40_line_driver.md R111). -/
def execSetScl (v : Bool) (s : State) : Out := onBank s (fun k => { k with scl := v }.emit (.scl v))

/-- SET_SDA (40_line_driver.md R112). -/
def execSetSda (v : Bool) (s : State) : Out := onBank s (fun k => { k with sda := v }.emit (.sda v))

/-- READ_SDA with the environment's answer `e` (40_line_driver.md R114, R115; log 14). -/
def execReadSda (e : Bool) (s : State) : Out :=
  onBank s (fun k => k.emit (.rd (readLevel (s.isLive s.bus) k.sda e)))

/-- DELAY: an event whose only effect is its place in the trace (40_line_driver.md R116, R118). -/
def execDelay (s : State) : Out := onBank s (fun k => k.emit .dly)

end Sys2Proof.Machine
end

