-- ==== Sys2Proof/Machine/Primitives.lean ====
section
/-! DEFINITION. The seven primitive commands (43_transactions.md R192): each runs its one procedure and then its
completion step, adds no START or STOP, checks no LEN and touches no BUF. -/

namespace Sys2Proof.Machine

/-- P_START (41_signals.md R130). -/
def execPStart (f : CmdFields) (s : State) : Out := acceptCommand .pStart f (fun _ => [.start]) s

/-- P_STOP (41_signals.md R132). -/
def execPStop (f : CmdFields) (s : State) : Out := acceptCommand .pStop f (fun _ => [.stop false]) s

/-- P_ACK (41_signals.md R134). -/
def execPAck (f : CmdFields) (s : State) : Out := acceptCommand .pAck f (fun _ => [.ack]) s

/-- P_NACK (41_signals.md R135). -/
def execPNack (f : CmdFields) (s : State) : Out := acceptCommand .pNack f (fun _ => [.nack]) s

/-- P_ACKWAIT (41_signals.md R140). -/
def execPAckwait (f : CmdFields) (s : State) : Out := acceptCommand .pAckwait f (fun _ => [.ackwait]) s

/-- P_SEND: the byte is DATA (42_byte_transfer.md R160). -/
def execPSend (f : CmdFields) (s : State) : Out := acceptCommand .pSend f (fun _ => [.send .data]) s

/-- P_RECV: the byte goes to RXDATA (42_byte_transfer.md R162). -/
def execPRecv (f : CmdFields) (s : State) : Out := acceptCommand .pRecv f (fun _ => [.recv .rx]) s

end Sys2Proof.Machine
end

