-- ==== Sys2Proof/Machine/Transactions.lean ====
section
/-! DEFINITION. The six transaction commands (43_transactions.md R186 to R191): the procedure calls of each rule, and its
meaning, the CMD write of R180 that starts them. "Call X; if it fails, raise Fail(1)" is the same for every ACKWAIT
(R185), so `afterPoll` holds it once. -/

namespace Sys2Proof.Machine

/-- "for idx = i to i + n - 1: x <- MemRead(idx, 1); Call SEND(x); ACKWAIT" (43_transactions.md R186, R190). -/
def sendCalls (i : Nat) : Nat → List Call
  | 0 => []
  | n + 1 => .send (.buf (BitVec.ofNat 8 i)) :: .ackwait :: sendCalls (i + 1) n

/-- "for idx = i to i + n - 1: v <- RECV(); MemWrite(idx, 1, v); ACK after all but the last, NACK after the last"
(43_transactions.md R187, R191, R198). -/
def recvCalls (i : Nat) : Nat → List Call
  | 0 => []
  | n + 1 => .recv (.buf (BitVec.ofNat 8 i)) :: (if n = 0 then .nack else .ack) :: recvCalls (i + 1) n

/-- WRITE (43_transactions.md R186). -/
def writeCalls (len : Nat) : List Call := [.start, .send .addrW, .ackwait] ++ sendCalls 0 len ++ [.stop false]

/-- READ (43_transactions.md R187). -/
def readCalls (len : Nat) : List Call := [.start, .send .addrR, .ackwait] ++ recvCalls 0 len ++ [.stop false]

/-- WRITE_REG (43_transactions.md R188). -/
def writeRegCalls : List Call :=
  [.start, .send .addrW, .ackwait, .send .reg, .ackwait, .send .data, .ackwait, .stop false]

/-- READ_REG (43_transactions.md R189); its second START is the repeated start (R193). -/
def readRegCalls : List Call :=
  [.start, .send .addrW, .ackwait, .send .reg, .ackwait, .start, .send .addrR, .ackwait, .recv .keep, .nack, .stop true]

/-- WRITE_REG_MULTI (43_transactions.md R190). -/
def writeRegMultiCalls (len : Nat) : List Call :=
  [.start, .send .addrW, .ackwait, .send .reg, .ackwait] ++ sendCalls 0 len ++ [.stop false]

/-- READ_REG_MULTI (43_transactions.md R191). -/
def readRegMultiCalls (len : Nat) : List Call :=
  [.start, .send .addrW, .ackwait, .send .reg, .ackwait, .start, .send .addrR, .ackwait] ++ recvCalls 0 len ++
    [.stop false]

/-- WRITE (43_transactions.md R186). -/
def execWrite (f : CmdFields) (s : State) : Out := acceptCommand .write f writeCalls s

/-- READ (43_transactions.md R187). -/
def execRead (f : CmdFields) (s : State) : Out := acceptCommand .read f readCalls s

/-- WRITE_REG (43_transactions.md R188). -/
def execWriteReg (f : CmdFields) (s : State) : Out := acceptCommand .writeReg f (fun _ => writeRegCalls) s

/-- READ_REG (43_transactions.md R189). -/
def execReadReg (f : CmdFields) (s : State) : Out := acceptCommand .readReg f (fun _ => readRegCalls) s

/-- WRITE_REG_MULTI (43_transactions.md R190). -/
def execWriteRegMulti (f : CmdFields) (s : State) : Out := acceptCommand .writeRegMulti f writeRegMultiCalls s

/-- READ_REG_MULTI (43_transactions.md R191). -/
def execReadRegMulti (f : CmdFields) (s : State) : Out := acceptCommand .readRegMulti f readRegMultiCalls s

end Sys2Proof.Machine
end

