-- ==== Sys2Proof/Machine/Dispatch.lean ====
section
/-! DEFINITION. The meaning of every instruction: one arm per constructor, each a call of its own definition. -/

namespace Sys2Proof.Machine

/-- What an instruction does in the bank `State.bus`: for a command, its CMD write (43_transactions.md R180); for a line
event, the event (40_line_driver.md). -/
def exec (i : Instr) (s : State) : Host.Outcome State Fault Refusal :=
  match i with
  | .write f => Sys2Proof.Machine.execWrite f s
  | .read f => Sys2Proof.Machine.execRead f s
  | .writeReg f => Sys2Proof.Machine.execWriteReg f s
  | .readReg f => Sys2Proof.Machine.execReadReg f s
  | .writeRegMulti f => Sys2Proof.Machine.execWriteRegMulti f s
  | .readRegMulti f => Sys2Proof.Machine.execReadRegMulti f s
  | .pStart f => Sys2Proof.Machine.execPStart f s
  | .pStop f => Sys2Proof.Machine.execPStop f s
  | .pAck f => Sys2Proof.Machine.execPAck f s
  | .pNack f => Sys2Proof.Machine.execPNack f s
  | .pAckwait f => Sys2Proof.Machine.execPAckwait f s
  | .pSend f => Sys2Proof.Machine.execPSend f s
  | .pRecv f => Sys2Proof.Machine.execPRecv f s
  | .setScl v => Sys2Proof.Machine.execSetScl v s
  | .setSda v => Sys2Proof.Machine.execSetSda v s
  | .readSda v => Sys2Proof.Machine.execReadSda v s
  | .delay => Sys2Proof.Machine.execDelay s

end Sys2Proof.Machine
end

