-- ==== Sys2Proof/Machine/Agents.lean ====
section
/-! DEFINITION. One move of each agent (00_scope.md R14): an engine step is one line event or the completion step; a host
step is one load or store, a CMD write among them; and runs of one engine alone. -/

namespace Sys2Proof.Machine

/-- One line event of bank `b`, then what the engine does after it. `k` is the bank as `nextOp` left it. -/
def performEvent (b : Nat) (k : Bank) (m : Micro) (todo : List Micro) (calls : List Call) (cause : Cause) (s : State) :
    Out :=
  let e := match m with
    | .read _ => (drawAnswer b k).1
    | _ => true
  let k' := match m with
    | .read _ => (drawAnswer b k).2
    | _ => k
  match exec (eventInstr e m) (s.setBank b k') with
  | .next t =>
    onBank t (fun k'' =>
      afterEvent s.params.pollLimit (readLevel (s.isLive b) k''.sda e) todo calls cause k'' m)
  | .fault f => .fault f
  | .refused r => .refused r

/-- One step of bank `b`'s engine (00_scope.md R14, 40_line_driver.md R110). An idle engine, or the engine of no bank,
makes no event and changes nothing (60_exceptions.md R248). -/
def engineStep (b : Nat) (s : State) : Out :=
  match s.banks[b]? with
  | none => .next s
  | some k =>
    match k.seq with
    | .idle => .next { s with bus := b }
    | .run todo calls cause =>
      match nextOp k todo calls with
      | .complete => .next ({ s with bus := b }.setBank b (k.complete cause))
      | .uninit i => .fault (.uninitBuf b i)
      | .perform k' m todo' calls' => performEvent b k' m todo' calls' cause { s with bus := b }

/-- A host write of the word `w` to the CMD of the bank of the step (43_transactions.md R180): the command it decodes to,
or the rejection of an illegal word (30_encoding.md R88). -/
def cmdWrite (w : Word) (s : State) : Out :=
  match decodeCmd w with
  | .ok i => exec i s
  | .error _ => rejectIllegal s

/-- A host load of a bank (20_memory.md R60, R63, R64). DESIGN CHOICE (log 13): on a busy bank a load that R54 or R55 calls
bad, or that covers a byte of BUF nothing has written (R64), records BUSY_ACCESS alone. -/
def hostLoad (b : Nat) (k : Bank) (t : Target) (s : State) : State :=
  if k.status.busy && !readableWhileBusy t then (s.recordFault b .busyAccess).answerHost none
  else
    match loadValue k t with
    | .ok v => s.answerHost (some v)
    | .error f => (s.recordFault b f).answerHost none

/-- A host store to a bank that is no CMD write (20_memory.md R61 to R63). DESIGN CHOICE (log 13): on a busy bank a store
that R54 or R55 calls bad records BUSY_ACCESS alone. -/
def hostStore (b : Nat) (k : Bank) (t : Target) (v : Word) (s : State) : State :=
  if k.status.busy then s.recordFault b .busyAccess
  else
    match storeEffect k v t with
    | .ok k' => s.setBank b k'
    | .error f => s.recordFault b f

/-- One host access (20_memory.md R51 to R65). An access outside every bank is no access to this block (R55). -/
def hostStep (a : Access) (s : State) : Out :=
  match a with
  | .load addr width =>
    match selectBank s.banks.length addr with
    | none => .next s
    | some (b, off) =>
      match s.banks[b]? with
      | none => .next s
      | some k => .next (hostLoad b k (accessTarget width off) { s with bus := b })
  | .store addr width v =>
    match selectBank s.banks.length addr with
    | none => .next s
    | some (b, off) =>
      match s.banks[b]? with
      | none => .next s
      | some k =>
        if accessTarget width off = .cmd then cmdWrite v { s with bus := b }
        else .next (hostStore b k (accessTarget width off) v { s with bus := b })

/-- The move of one agent. -/
def act (a : Action) (s : State) : Out :=
  match a with
  | .host h => hostStep h s
  | .engine b => engineStep b s
  | .reset => .next s.resetInput

/-- The free schedule (00_scope.md R14, 93_implementation_defined.md: any interleaving, in which each bank's engine
eventually steps; log 9): the bank whose engine moves, and the schedule after it. Turns go to the banks in order, and
before each turn stand as many moves of any engines as the free value says; every fair interleaving is one of these. -/
def freeMove (s : State) : Nat × State :=
  if s.pad < Config.freeMoves s.turn then
    (Config.nextEngine s.turn s.pad % s.banks.length, { s with pad := s.pad + 1 })
  else (s.turn % s.banks.length, { s with turn := s.turn + 1, pad := 0 })

/-- The next move: the head of `inputs`; where none is left, the engine the free schedule names. -/
def move (s : State) : Out :=
  match s.inputs with
  | a :: rest => act a { s with inputs := rest }
  | [] => engineStep (freeMove s).1 (freeMove s).2

/-- `n` steps of bank `b`'s engine, no other agent moving between them. -/
def runEngine (b : Nat) : Nat → State → Out
  | 0, s => .next s
  | n + 1, s =>
    match engineStep b s with
    | .next t => runEngine b n t
    | .fault f => .fault f
    | .refused r => .refused r

/-- The engine's event for a line-event instruction: what `State.withFetchWord` puts in front of the sequencer. DESIGN
CHOICE (log 10): the spec has no READ_SDA that stands in no procedure, and says nothing of what becomes of its level
beside the trace; the model takes it as RECV's sample, so the step also shifts it into `sr` (42_byte_transfer.md R162). -/
def microOf : Instr → Option Micro
  | .setScl v => some (.scl v)
  | .setSda v => some (.sda v)
  | .readSda _ => some (.read .sample)
  | .delay => some wait
  | .write _ => none
  | .read _ => none
  | .writeReg _ => none
  | .readReg _ => none
  | .writeRegMulti _ => none
  | .readRegMulti _ => none
  | .pStart _ => none
  | .pStop _ => none
  | .pAck _ => none
  | .pNack _ => none
  | .pAckwait _ => none
  | .pSend _ => none
  | .pRecv _ => none

/-- The environment's answers with the one a READ_SDA instruction carries in front. -/
def answersFor (i : Instr) (answers : List Bool) : List Bool :=
  match i with
  | .readSda v => v :: answers
  | _ => answers

/-- A bank whose engine performs `i`'s line event next: the event in front of the sequencer, the bank busy. -/
def Bank.withEvent (k : Bank) (i : Instr) (m : Micro) : Bank :=
  match k.seq with
  | .idle =>
    { k with seq := .run [m] [] .none, status := Status.running, answers := answersFor i k.answers }
  | .run todo calls cause =>
    { k with seq := .run (m :: todo) calls cause, answers := answersFor i k.answers }

/-- The state whose next move is bank `s.bus`'s engine performing the line event of the code `c`; unchanged where `c` is
no event. -/
def withEvent (s : State) (c : Byte) : State :=
  match (decodeEv c).toOption, s.banks[s.bus]? with
  | some i, some k =>
    match microOf i with
    | some m => { s.setBank s.bus (k.withEvent i m) with inputs := .engine s.bus :: s.inputs }
    | none => s
  | _, _ => s

/-- The state whose next move is the host's write of the word `w` to the CMD of bank `s.bus`. -/
def withCommand (s : State) (w : Word) : State :=
  { s with inputs := .host (.store (bankAddr s.bus 0x000) 32 w) :: s.inputs }

end Sys2Proof.Machine
end

