-- ==== Sys2Proof/Machine/Step.lean ====
section
/-! DEFINITION. The step: one move of one agent, and where its next instruction stands. -/

namespace Sys2Proof.Machine

/-- One step of the block and its surroundings (00_scope.md R14). -/
def step (s : State) : Host.Outcome State Fault Refusal := move s

/-- `s` with an instruction where `step` fetches its next one (log 10): a command word as the host's next store, to the
CMD of bank `s.bus`; a line event, up to 8 bits, as the next event of that bank's engine. -/
def State.withFetchWord (s : State) (nbits w : Nat) : State :=
  if nbits ≤ 8 then withEvent s (BitVec.ofNat 8 (w % 2 ^ nbits))
  else withCommand s (BitVec.ofNat 32 (w % 2 ^ nbits))

end Sys2Proof.Machine
end

