-- ==== Sys2Proof/Safety.lean ====
section
/-! DEFINITION. What counts as a safe run, the invariants of the state, and the wire sequences of 41_signals.md,
42_byte_transfer.md and 43_transactions.md written as lists of events, in the terms the claims use. -/

namespace Sys2Proof.Machine

/-- No host access has raised a model fault: only of such a run does the spec say anything (60_exceptions.md R235,
93_implementation_defined.md: after a fault "the state is not final"). -/
def State.clean (s : State) : Prop := s.faults = []

/-- The rules of 10_state.md on one bank: BUF in its canonical form, BUSY set exactly while the sequencer is not idle
(R25, R38), CAUSE nonzero exactly where FAIL is set (R27), FAIL clear while busy (R26). -/
structure Bank.Ok (k : Bank) : Prop where
  bufCanonical : Memory.wf k.buf
  busyIffRunning : k.status.busy = true ↔ k.seq ≠ .idle
  causeIffFail : k.status.cause ≠ .none ↔ k.status.fail = true
  busyNoFail : k.status.busy = true → k.status.fail = false

/-- The rules on the block: at least one bank, a poll limit of at least 1 (00_scope.md R7), every bank well-formed. -/
structure State.Ok (s : State) : Prop where
  someBank : 0 < s.banks.length
  pollLimitPos : s.params.pollLimit ≠ 0
  banksOk : ∀ k ∈ s.banks, k.Ok

/-- What persists in a bank between commands (10_state.md R42), with its trace. -/
structure BankView where
  scl : Bool
  sda : Bool
  status : Status
  len : BitVec 16
  rxdata : Byte
  buf : List Host.Cell
  trace : List Ev
deriving DecidableEq, Repr

/-- The persistent part of a bank. -/
def Bank.view (k : Bank) : BankView :=
  { scl := k.scl, sda := k.sda, status := k.status, len := k.len, rxdata := k.rxdata, buf := k.buf, trace := k.trace }

/-- The six transaction commands (30_encoding.md R87, OP 0x1 to 0x6). -/
def isTransaction : Op → Bool
  | .write => true
  | .read => true
  | .writeReg => true
  | .readReg => true
  | .writeRegMulti => true
  | .readRegMulti => true
  | .pStart => false
  | .pStop => false
  | .pAck => false
  | .pNack => false
  | .pAckwait => false
  | .pSend => false
  | .pRecv => false

/-- The environment of bus `b` answers its next draws with `l`, fixed answers and free ones alike (20_memory.md R70). -/
def answersNext (b : Nat) : Bank → List Bool → Prop
  | _, [] => True
  | k, e :: es => (drawAnswer b k).1 = e ∧ answersNext b (drawAnswer b k).2 es

/-- The bank after its environment has answered `n` draws. -/
def afterAnswers (b : Nat) (k : Bank) : Nat → Bank
  | 0 => k
  | n + 1 => afterAnswers b (drawAnswer b k).2 n

/-- The command `i` is accepted in bank `s.bus`, which holds `k`, and `n` steps of that bank's engine bring it to its end:
the engine has made `reads` reads, the bank shows `v` (STATUS among it), the sequencer is idle, and nothing else of the
state has changed. -/
def CommandRuns (s : State) (k : Bank) (i : Instr) (n reads : Nat) (v : BankView) : Prop :=
  ∃ t k', exec i s = .next t ∧ runEngine s.bus n t = .next (s.setBank s.bus k') ∧ k'.seq = .idle ∧ k'.view = v ∧
    k'.answers = (afterAnswers s.bus k reads).answers ∧ k'.draws = (afterAnswers s.bus k reads).draws

/-- The moves `acts` give bank `b`'s engine a step again and again: the fairness of 70_reset_and_hazards.md R271, "a schedule
that eventually runs the bank's engine". -/
def FairTo (b : Nat) (acts : Nat → Action) : Prop := ∀ n, ∃ m, n ≤ m ∧ acts m = .engine b

/-- A run has come to a state where a `wait` on bank `b` ends (30_encoding.md R92): the host's next load of STATUS answers
with bit 0 clear. Or the run has stopped at a byte of BUF that holds no value (log 2). -/
def WaitOver (b : Nat) (o : Out) : Prop :=
  (∃ (u : State) (v : Word), o = .next u ∧
    step { u with inputs := .host (.load (bankAddr b 0x004) 32) :: u.inputs } =
      .next { u with bus := b, reads := u.reads ++ [some v] } ∧ v.getLsbD 0 = false) ∨
  ∃ c i, o = .fault (.uninitBuf c i)

/-- The procedure calls of an operation's rule for the length `n` (43_transactions.md R186 to R192). -/
def ruleCalls (n : Nat) : Op → List Call
  | .write => writeCalls n
  | .read => readCalls n
  | .writeReg => writeRegCalls
  | .readReg => readRegCalls
  | .writeRegMulti => writeRegMultiCalls n
  | .readRegMulti => readRegMultiCalls n
  | .pStart => [.start]
  | .pStop => [.stop false]
  | .pAck => [.ack]
  | .pNack => [.nack]
  | .pAckwait => [.ackwait]
  | .pSend => [.send .data]
  | .pRecv => [.recv .rx]

/-- The lengths a command accepts (43_transactions.md R183): 0 to 256 for the buffer commands, 1 to 256 for those that
read, any for the others. -/
def lenAccepted (n : Nat) : Op → Prop
  | .write => n ≤ 256
  | .read => 1 ≤ n ∧ n ≤ 256
  | .writeRegMulti => n ≤ 256
  | .readRegMulti => 1 ≤ n ∧ n ≤ 256
  | .writeReg => True
  | .readReg => True
  | .pStart => True
  | .pStop => True
  | .pAck => True
  | .pNack => True
  | .pAckwait => True
  | .pSend => True
  | .pRecv => True

/-- The most line events a command makes, with the poll limit `lim` and the latched length `n`: the bounds of
43_transactions.md R199, and the event counts of 41_signals.md and 42_byte_transfer.md for the primitive commands. -/
def eventBound (lim n : Nat) : Op → Nat
  | .write => 14 + (46 + lim) * (1 + n)
  | .read => 57 + lim + 49 * n
  | .writeReg => 152 + 3 * lim
  | .readReg => 205 + 3 * lim
  | .writeRegMulti => 14 + (46 + lim) * (2 + n)
  | .readRegMulti => 156 + 3 * lim + 49 * n
  | .pStart => 7
  | .pStop => 7
  | .pAck => 7
  | .pNack => 4
  | .pAckwait => lim + 11
  | .pSend => 40
  | .pRecv => 42

/-- The state once the bank of the step has accepted the command of operation `op` with the fields `f` (43_transactions.md
R180): the latch, STATUS and the sequencer, and nothing else. -/
def acceptedState (s : State) (k : Bank) (op : Op) (f : CmdFields) : State :=
  { s with
    banks := s.banks.set s.bus
      { k with
        latOp := op, latAddr := f.addr, latReg := f.reg, latData := f.data, latLen := k.len
        status := { busy := true, fail := false, cause := .none }
        seq := .run [] (ruleCalls k.len.toNat op) .none } }

/-! The wire sequences. -/

/-- START (41_signals.md R130): `d1 c1 w d0 w c0 w`. -/
def startTrace : List Ev := [.sda true, .scl true, .dly, .sda false, .dly, .scl false, .dly]

/-- STOP (41_signals.md R132): `c0 d0 w c1 w d1 w`. -/
def stopTrace : List Ev := [.scl false, .sda false, .dly, .scl true, .dly, .sda true, .dly]

/-- ACK (41_signals.md R134): `d0 w c1 w c0 w d1`. -/
def ackTrace : List Ev := [.sda false, .dly, .scl true, .dly, .scl false, .dly, .sda true]

/-- NACK (41_signals.md R135): `c1 w c0 w`. -/
def nackTrace : List Ev := [.scl true, .dly, .scl false, .dly]

/-- ACKWAIT acknowledged after `j` high reads (41_signals.md R140): `d1 w c1 w`, j times `r1`, `r0 c0 w`. -/
def ackedTrace (j : Nat) : List Ev :=
  [.sda true, .dly, .scl true, .dly] ++ List.replicate j (.rd true) ++ [.rd false, .scl false, .dly]

/-- ACKWAIT timed out after `n` high reads (41_signals.md R140): `d1 w c1 w`, n times `r1`, then STOP's events. -/
def timeoutTrace (n : Nat) : List Ev :=
  [.sda true, .dly, .scl true, .dly] ++ List.replicate n (.rd true) ++ stopTrace

/-- A byte's bits, bit 7 first (20_memory.md R58). -/
def byteBits (x : Byte) : List Bool := [7, 6, 5, 4, 3, 2, 1, 0].map (fun i => x.getLsbD i)

/-- SEND(x) (42_byte_transfer.md R160): for each bit, bit 7 first, `d<x[i]> c1 w c0 w`. -/
def sendTrace (x : Byte) : List Ev := (byteBits x).flatMap (fun v => [.sda v, .scl true, .dly, .scl false, .dly])

/-- RECV of the byte v (42_byte_transfer.md R162): for each bit, bit 7 first, `c0 w c1 r<v[i]> w`, then `c0 w`. -/
def recvTrace (v : Byte) : List Ev :=
  (byteBits v).flatMap (fun r => [.scl false, .dly, .scl true, .rd r, .dly]) ++ [.scl false, .dly]

/-- Bytes sent, each with its ACKWAIT, acknowledged after the number of high reads paired with it. -/
def sentTrace (l : List (Byte × Nat)) : List Ev := l.flatMap (fun p => sendTrace p.1 ++ ackedTrace p.2)

/-- Bytes received: ACK after all but the last, NACK after the last (43_transactions.md R187, R191, R198). -/
def receivedTrace : List Byte → List Ev
  | [] => []
  | [v] => recvTrace v ++ nackTrace
  | v :: w :: l => recvTrace v ++ ackTrace ++ receivedTrace (w :: l)

/-- The environment's answers to an ACKWAIT that it acknowledges after `j` high reads. -/
def ackedAnswers (j : Nat) : List Bool := List.replicate j true ++ [false]

/-- The environment's answers to the ACKWAITs of bytes sent. -/
def sentAnswers (l : List (Byte × Nat)) : List Bool := l.flatMap (fun p => ackedAnswers p.2)

/-- BUF holds the bytes `l` from index `i` on. -/
def Memory.holds (m : List Host.Cell) (i : Nat) (l : List Byte) : Prop :=
  ∀ j, (h : j < l.length) → Memory.read m (i + j) = some l[j]

/-- BUF `m'` is `m` with the bytes `l` written at 0, 1, ... -/
def Memory.tookBytes (m m' : List Host.Cell) (l : List Byte) : Prop :=
  ∀ i, Memory.read m' i = if h : i < l.length then some l[i] else Memory.read m i

end Sys2Proof.Machine
end

