-- ==== Sys2Proof/Certificates/Slice0/Obligations.lean ====
section
/-! DEFINITION. The statements for the provers, each from the rules of spec/ named in its docstring. -/

open Sys2Proof Sys2Proof.Machine

/-! ## Encoding -/

/-- 30_encoding.md R81, R82, R87, R91, 95_test_vectors.md section 4: one word of every row, read off the spec, decodes to
the instruction it stands for, and the three illegal opcodes and the codes that are no event decode to nothing. -/
def Obligations.SpecWordsDecode : Prop :=
  decodeTableWord 32 0x00002301 = some (.write ⟨0x23, 0x00, 0x00⟩) ∧
  decodeTableWord 32 0x00002302 = some (.read ⟨0x23, 0x00, 0x00⟩) ∧
  decodeTableWord 32 0x7B042303 = some (.writeReg ⟨0x23, 0x04, 0x7B⟩) ∧
  decodeTableWord 32 0x00FF7F04 = some (.readReg ⟨0x7F, 0xFF, 0x00⟩) ∧
  decodeTableWord 32 0x00005005 = some (.writeRegMulti ⟨0x50, 0x00, 0x00⟩) ∧
  decodeTableWord 32 0x00102306 = some (.readRegMulti ⟨0x23, 0x10, 0x00⟩) ∧
  decodeTableWord 32 0xFFFF7F08 = some (.pStart ⟨0x7F, 0xFF, 0xFF⟩) ∧
  decodeTableWord 32 0x00000009 = some (.pStop ⟨0, 0, 0⟩) ∧
  decodeTableWord 32 0x0000000A = some (.pAck ⟨0, 0, 0⟩) ∧
  decodeTableWord 32 0x0000000B = some (.pNack ⟨0, 0, 0⟩) ∧
  decodeTableWord 32 0x0000000C = some (.pAckwait ⟨0, 0, 0⟩) ∧
  decodeTableWord 32 0xA500000D = some (.pSend ⟨0, 0, 0xA5⟩) ∧
  decodeTableWord 32 0x0000000E = some (.pRecv ⟨0, 0, 0⟩) ∧
  decodeTableWord 8 0x04 = some (.setScl true) ∧
  decodeTableWord 8 0x01 = some (.setSda false) ∧
  decodeTableWord 8 0x06 = some (.readSda true) ∧
  decodeTableWord 8 0x03 = some .delay ∧
  decodeTableWord 32 0x00000000 = none ∧ decodeTableWord 32 0x00000007 = none ∧
  decodeTableWord 32 0x0000000F = none ∧ decodeTableWord 32 0x00000011 = none ∧
  decodeTableWord 32 0x00008001 = none ∧ decodeTableWord 8 0x07 = none ∧ decodeTableWord 8 0x0B = none

/-- 30_encoding.md R81, R82: decode and encode agree for every instruction and every value of every field. -/
def Obligations.DecodeOfEncode : Prop :=
  ∀ i : Instr, decodeTableWord i.nbits (encode i) = some i

/-- 30_encoding.md R81, R89: a command word that decodes is the encoding of what it decodes to, so no bit of it is dropped,
used by its command or not. -/
def Obligations.EncodeOfDecodedCommand : Prop :=
  ∀ (w : Word) (i : Instr), decodeCmd w = .ok i → encode i = w.toNat ∧ i.nbits = 32

/-- 30_encoding.md R88: the illegal CMD words, by their bits. -/
def Obligations.IllegalWordsAreExactlyTheseWords : Prop :=
  ∀ w : Word,
    (∃ r, decodeCmd w = .error r) ↔
      ((w &&& 0xF = 0x0 ∨ w &&& 0xF = 0x7 ∨ w &&& 0xF = 0xF) ∨ w &&& 0xF0 ≠ 0 ∨ w &&& 0x8000 ≠ 0)

/-- 30_encoding.md R82, R90: the seven legal event codes, and what each means; every other code is rejected; every event
a trace can hold has one of the seven. -/
def Obligations.SevenEventCodes : Prop :=
  decodeEv 0x00 = .ok (.setScl false) ∧ decodeEv 0x04 = .ok (.setScl true) ∧
  decodeEv 0x01 = .ok (.setSda false) ∧ decodeEv 0x05 = .ok (.setSda true) ∧
  decodeEv 0x02 = .ok (.readSda false) ∧ decodeEv 0x06 = .ok (.readSda true) ∧
  decodeEv 0x03 = .ok .delay ∧
  (∀ c : Byte, c ∉ [(0x00 : Byte), 0x04, 0x01, 0x05, 0x02, 0x06, 0x03] → ∃ r, decodeEv c = .error r) ∧
  (∀ e : Ev, e.code ∈ [(0x00 : Byte), 0x04, 0x01, 0x05, 0x02, 0x06, 0x03])

/-- 30_encoding.md R91: the word of each line of assembler text, and the operands the assembler refuses. -/
def Obligations.AssembledWords : Prop :=
  ∀ nb b addr reg byte : Nat,
    (b < nb → addr ≤ 0x7F → reg ≤ 0xFF → byte ≤ 0xFF →
      (AsmCmd.write b addr).assemble nb = some (b, BitVec.ofNat 32 (addr * 2 ^ 8 + 0x1)) ∧
      (AsmCmd.read b addr).assemble nb = some (b, BitVec.ofNat 32 (addr * 2 ^ 8 + 0x2)) ∧
      (AsmCmd.writeReg b addr reg byte).assemble nb =
        some (b, BitVec.ofNat 32 (byte * 2 ^ 24 + reg * 2 ^ 16 + addr * 2 ^ 8 + 0x3)) ∧
      (AsmCmd.readReg b addr reg).assemble nb = some (b, BitVec.ofNat 32 (reg * 2 ^ 16 + addr * 2 ^ 8 + 0x4)) ∧
      (AsmCmd.writeRegMulti b addr reg).assemble nb = some (b, BitVec.ofNat 32 (reg * 2 ^ 16 + addr * 2 ^ 8 + 0x5)) ∧
      (AsmCmd.readRegMulti b addr reg).assemble nb = some (b, BitVec.ofNat 32 (reg * 2 ^ 16 + addr * 2 ^ 8 + 0x6)) ∧
      (AsmCmd.pStart b).assemble nb = some (b, 0x8) ∧ (AsmCmd.pStop b).assemble nb = some (b, 0x9) ∧
      (AsmCmd.pAck b).assemble nb = some (b, 0xA) ∧ (AsmCmd.pNack b).assemble nb = some (b, 0xB) ∧
      (AsmCmd.pAckwait b).assemble nb = some (b, 0xC) ∧
      (AsmCmd.pSend b byte).assemble nb = some (b, BitVec.ofNat 32 (byte * 2 ^ 24 + 0xD)) ∧
      (AsmCmd.pRecv b).assemble nb = some (b, 0xE)) ∧
    (nb ≤ b ∨ 0x7F < addr → (AsmCmd.write b addr).assemble nb = none ∧ (AsmCmd.read b addr).assemble nb = none) ∧
    (nb ≤ b ∨ 0x7F < addr ∨ 0xFF < reg ∨ 0xFF < byte → (AsmCmd.writeReg b addr reg byte).assemble nb = none) ∧
    (nb ≤ b ∨ 0x7F < addr ∨ 0xFF < reg →
      (AsmCmd.readReg b addr reg).assemble nb = none ∧ (AsmCmd.writeRegMulti b addr reg).assemble nb = none ∧
      (AsmCmd.readRegMulti b addr reg).assemble nb = none) ∧
    (nb ≤ b →
      (AsmCmd.pStart b).assemble nb = none ∧ (AsmCmd.pStop b).assemble nb = none ∧
      (AsmCmd.pAck b).assemble nb = none ∧ (AsmCmd.pNack b).assemble nb = none ∧
      (AsmCmd.pAckwait b).assemble nb = none ∧ (AsmCmd.pRecv b).assemble nb = none) ∧
    (nb ≤ b ∨ 0xFF < byte → (AsmCmd.pSend b byte).assemble nb = none)

/-! ## The Line Driver -/

/-- 40_line_driver.md R111: SET_SCL writes `scl_out`, LINE bit 0 follows it, one event is appended, of code 0x00 or
0x04, nothing else changes. -/
def Obligations.SetSclDrivesClock : Prop :=
  ∀ (s : State) (k : Bank) (v : Bool), s.banks[s.bus]? = some k →
    exec (.setScl v) s =
      .next { s with banks := s.banks.set s.bus { k with scl := v, trace := k.trace ++ [.scl v] } } ∧
    (lineWord v k.sda).getLsbD 0 = v ∧ (Ev.scl v).code = (if v = true then 0x04 else 0x00)

/-- 40_line_driver.md R112: SET_SDA writes `sda_out`, LINE bit 1 follows it, one event is appended, of code 0x01 or
0x05, nothing else changes. -/
def Obligations.SetSdaDrivesData : Prop :=
  ∀ (s : State) (k : Bank) (v : Bool), s.banks[s.bus]? = some k →
    exec (.setSda v) s =
      .next { s with banks := s.banks.set s.bus { k with sda := v, trace := k.trace ++ [.sda v] } } ∧
    (lineWord k.scl v).getLsbD 1 = v ∧ (Ev.sda v).code = (if v = true then 0x05 else 0x01)

/-- 40_line_driver.md R114, R115: READ_SDA on a live bank appends the wired-AND of the master's output and the
environment's answer, on a placeholder bank the answer, as the event of code 0x06 for the level 1 and 0x02 for the level
0. The wired-AND is the spec's general knowledge (D25), and that the
V of an executed READ_SDA is the environment's answer is the model's choice (log 14). -/
def Obligations.ReadSdaRecordsLevel : Prop :=
  ∀ (s : State) (k : Bank) (e : Bool), s.banks[s.bus]? = some k →
    (s.bus ∈ s.params.live →
      exec (.readSda e) s =
        .next { s with banks := s.banks.set s.bus { k with trace := k.trace ++ [.rd (k.sda && e)] } }) ∧
    (s.bus ∉ s.params.live →
      exec (.readSda e) s = .next { s with banks := s.banks.set s.bus { k with trace := k.trace ++ [.rd e] } }) ∧
    ∀ r : Bool, (Ev.rd r).code = (if r = true then 0x06 else 0x02)

/-- 40_line_driver.md R116: DELAY changes no state but the trace, which takes the event of code 0x03. -/
def Obligations.DelayIsOnlyAnEvent : Prop :=
  ∀ (s : State) (k : Bank), s.banks[s.bus]? = some k →
    exec .delay s = .next { s with banks := s.banks.set s.bus { k with trace := k.trace ++ [.dly] } } ∧ Ev.dly.code = 0x03

/-- 40_line_driver.md R110 and 20_memory.md R67, the frame of the four line events: exactly one event is appended to the
bank's trace, only SET_SCL changes `scl_out`, only SET_SDA `sda_out`; STATUS, LEN, RXDATA, every byte of BUF, the latch,
the internal registers, the sequencer, the environment, every other bank and the rest of the state stay. -/
def Obligations.LineEventFrame : Prop :=
  ∀ (s t : State) (i : Instr),
    (∃ v, i = .setScl v ∨ i = .setSda v ∨ i = .readSda v ∨ i = .delay) → exec i s = .next t →
    (t.params = s.params ∧ t.bus = s.bus ∧ t.inputs = s.inputs ∧ t.turn = s.turn ∧ t.pad = s.pad ∧
      t.reads = s.reads ∧ t.faults = s.faults ∧ t.banks.length = s.banks.length) ∧
    (∀ c, c ≠ s.bus → t.banks[c]? = s.banks[c]?) ∧
    ∃ k k' e, s.banks[s.bus]? = some k ∧ t.banks[s.bus]? = some k' ∧ k'.trace = k.trace ++ [e] ∧
      ((∀ v, i ≠ .setScl v) → k'.scl = k.scl) ∧ ((∀ v, i ≠ .setSda v) → k'.sda = k.sda) ∧
      k'.status = k.status ∧ k'.len = k.len ∧ k'.rxdata = k.rxdata ∧
      (∀ a, Memory.read k'.buf a = Memory.read k.buf a) ∧
      k'.latOp = k.latOp ∧ k'.latAddr = k.latAddr ∧ k'.latReg = k.latReg ∧ k'.latData = k.latData ∧
      k'.latLen = k.latLen ∧ k'.sr = k.sr ∧ k'.bc = k.bc ∧ k'.pcnt = k.pcnt ∧ k'.idx = k.idx ∧ k'.seq = k.seq ∧
      k'.answers = k.answers ∧ k'.draws = k.draws

/-! ## The CMD write -/

/-- 43_transactions.md R180, R181: a host 32-bit write of `w` to the CMD of bank b is one step, with the four outcomes in
the order written. The rule's call list `ruleCalls` puts the sequencer at the first event of the command's rule. -/
def Obligations.CmdWriteIsHandledInOneStep : Prop :=
  ∀ (s : State) (rest : List Action) (b : Nat) (k : Bank) (w : Word),
    s.inputs = .host (.store (bankAddr b 0x000) 32 w) :: rest → s.banks[b]? = some k →
    let op4 := w.extractLsb' 0 4
    let illegal := op4 = 0x0 ∨ op4 = 0x7 ∨ op4 = 0xF ∨ w.extractLsb' 4 4 ≠ 0 ∨ w.getLsbD 15 = true
    let badLength :=
      ((op4 = 0x2 ∨ op4 = 0x6) ∧ k.len = 0) ∨
        ((op4 = 0x1 ∨ op4 = 0x2 ∨ op4 = 0x5 ∨ op4 = 0x6) ∧ 256 < k.len.toNat)
    if k.status.busy = true then
      step s = .next { s with inputs := rest, bus := b, faults := s.faults ++ [(b, .busyAccess)] }
    else if illegal then
      step s = .next { s with
        inputs := rest, bus := b
        banks := s.banks.set b { k with status := { busy := false, fail := true, cause := .illegal } } }
    else if badLength then
      step s = .next { s with
        inputs := rest, bus := b
        banks := s.banks.set b { k with status := { busy := false, fail := true, cause := .badLen } } }
    else
      ∃ op : Op, op.code = op4 ∧
        step s = .next { s with
          inputs := rest, bus := b
          banks := s.banks.set b { k with
            latOp := op, latAddr := w.extractLsb' 8 7, latReg := w.extractLsb' 16 8, latData := w.extractLsb' 24 8
            latLen := k.len
            status := { busy := true, fail := false, cause := .none }
            seq := .run [] (ruleCalls k.len.toNat op) .none } }

/-- 43_transactions.md R180, 10_state.md R33, R25: every one of the thirteen commands, on an idle bank with a length it
accepts, is accepted: the latch takes the fields and LEN, BUSY is set, FAIL and CAUSE cleared, nothing else changes. -/
def Obligations.CommandIsAccepted : Prop :=
  ∀ (s : State) (k : Bank) (op : Op) (f : CmdFields),
    s.banks[s.bus]? = some k → k.status.busy = false → lenAccepted k.len.toNat op →
    exec (Instr.ofOp f op) s = .next (acceptedState s k op f)

/-- 43_transactions.md R183: a length a command does not accept is rejected with BAD_LEN and no effect but STATUS. -/
def Obligations.BadLengthIsRejected : Prop :=
  ∀ (s : State) (k : Bank) (op : Op) (f : CmdFields),
    s.banks[s.bus]? = some k → k.status.busy = false → ¬ lenAccepted k.len.toNat op →
    exec (Instr.ofOp f op) s =
      .next { s with
        banks := s.banks.set s.bus { k with status := { busy := false, fail := true, cause := .badLen } } }

/-- The frame of a CMD write (43_transactions.md R180): both outputs, LEN, RXDATA, every byte of BUF, the trace, `sr`,
`bc`, `pcnt`, `idx` and the environment are unchanged whatever becomes of the command, and so are every other bank, the
parameters and the host's reads; a busy bank is not changed at all. -/
def Obligations.CommandFrame : Prop :=
  ∀ (s t : State) (op : Op) (f : CmdFields), exec (Instr.ofOp f op) s = .next t →
    (t.params = s.params ∧ t.bus = s.bus ∧ t.inputs = s.inputs ∧ t.turn = s.turn ∧ t.pad = s.pad ∧
      t.reads = s.reads ∧ t.banks.length = s.banks.length) ∧
    (∀ c, c ≠ s.bus → t.banks[c]? = s.banks[c]?) ∧
    ∃ k k', s.banks[s.bus]? = some k ∧ t.banks[s.bus]? = some k' ∧
      k'.scl = k.scl ∧ k'.sda = k.sda ∧ k'.len = k.len ∧ k'.rxdata = k.rxdata ∧
      (∀ a, Memory.read k'.buf a = Memory.read k.buf a) ∧ k'.trace = k.trace ∧
      k'.sr = k.sr ∧ k'.bc = k.bc ∧ k'.pcnt = k.pcnt ∧ k'.idx = k.idx ∧ k'.answers = k.answers ∧ k'.draws = k.draws ∧
      (k.status.busy = true → k' = k ∧ t.faults = s.faults ++ [(s.bus, .busyAccess)]) ∧
      (k.status.busy = false → t.faults = s.faults)

/-- 30_encoding.md R86, the model's own stop (log 18): an instruction executed with the index of no bank answers the fault
`noBank`. -/
def Obligations.NoBankStops : Prop :=
  ∀ (s : State) (i : Instr), s.banks.length ≤ s.bus → exec i s = .fault .noBank

/-! ## The primitive commands -/

/-- 41_signals.md R130: P_START makes `d1 c1 w d0 w c0 w` and then completes with STATUS 0, both outputs low. -/
def Obligations.PStartRuns : Prop :=
  ∀ (s : State) (k : Bank) (f : CmdFields), s.banks[s.bus]? = some k → k.status.busy = false →
    CommandRuns s k (.pStart f) 8 0
      { k.view with
        scl := false, sda := false, status := { busy := false, fail := false, cause := .none }
        trace := k.trace ++ [.sda true, .scl true, .dly, .sda false, .dly, .scl false, .dly] }

/-- 41_signals.md R132: P_STOP makes `c0 d0 w c1 w d1 w` and then completes with STATUS 0, both outputs released. -/
def Obligations.PStopRuns : Prop :=
  ∀ (s : State) (k : Bank) (f : CmdFields), s.banks[s.bus]? = some k → k.status.busy = false →
    CommandRuns s k (.pStop f) 8 0
      { k.view with
        scl := true, sda := true, status := { busy := false, fail := false, cause := .none }
        trace := k.trace ++ [.scl false, .sda false, .dly, .scl true, .dly, .sda true, .dly] }

/-- 41_signals.md R134: P_ACK makes `d0 w c1 w c0 w d1` and then completes with STATUS 0. -/
def Obligations.PAckRuns : Prop :=
  ∀ (s : State) (k : Bank) (f : CmdFields), s.banks[s.bus]? = some k → k.status.busy = false →
    CommandRuns s k (.pAck f) 8 0
      { k.view with
        scl := false, sda := true, status := { busy := false, fail := false, cause := .none }
        trace := k.trace ++ [.sda false, .dly, .scl true, .dly, .scl false, .dly, .sda true] }

/-- 41_signals.md R135: P_NACK makes `c1 w c0 w` and then completes with STATUS 0, `sda_out` unchanged. -/
def Obligations.PNackRuns : Prop :=
  ∀ (s : State) (k : Bank) (f : CmdFields), s.banks[s.bus]? = some k → k.status.busy = false →
    CommandRuns s k (.pNack f) 5 0
      { k.view with
        scl := false, status := { busy := false, fail := false, cause := .none }
        trace := k.trace ++ [.scl true, .dly, .scl false, .dly] }

/-- 41_signals.md R140, R141: P_ACKWAIT succeeds at read number j + 1, the first that is low, with j < N high reads before
it, in j + 7 events, `scl_out` low and `sda_out` released. -/
def Obligations.PAckwaitSucceedsAtFirstLowRead : Prop :=
  ∀ (s : State) (k : Bank) (f : CmdFields) (j : Nat), s.banks[s.bus]? = some k → k.status.busy = false →
    j < s.params.pollLimit.toNat → answersNext s.bus k (List.replicate j true ++ [false]) →
    CommandRuns s k (.pAckwait f) (j + 8) (j + 1)
      { k.view with
        scl := false, sda := true, status := { busy := false, fail := false, cause := .none }
        trace := k.trace ++ [.sda true, .dly, .scl true, .dly] ++ List.replicate j (.rd true) ++
          [.rd false, .scl false, .dly] }

/-- 41_signals.md R140, R141: P_ACKWAIT times out exactly after N high reads, makes STOP's events after them, N + 11 events
in all, and reports ACK_TIMEOUT with the bus idle. -/
def Obligations.PAckwaitTimesOutAfterAllHighReads : Prop :=
  ∀ (s : State) (k : Bank) (f : CmdFields), s.banks[s.bus]? = some k → k.status.busy = false →
    s.params.pollLimit ≠ 0 → answersNext s.bus k (List.replicate s.params.pollLimit.toNat true) →
    CommandRuns s k (.pAckwait f) (s.params.pollLimit.toNat + 12) s.params.pollLimit.toNat
      { k.view with
        scl := true, sda := true, status := { busy := false, fail := true, cause := .ackTimeout }
        trace := k.trace ++ [.sda true, .dly, .scl true, .dly] ++
          List.replicate s.params.pollLimit.toNat (.rd true) ++
          [.scl false, .sda false, .dly, .scl true, .dly, .sda true, .dly] }

/-- 42_byte_transfer.md R160: P_SEND shifts DATA out, bit 7 first, each bit `d<b> c1 w c0 w`, and completes with STATUS 0,
`sda_out` at bit 0. -/
def Obligations.PSendShiftsOutMsbFirst : Prop :=
  ∀ (s : State) (k : Bank) (f : CmdFields), s.banks[s.bus]? = some k → k.status.busy = false →
    CommandRuns s k (.pSend f) 41 0
      { k.view with
        scl := false, sda := f.data.getLsbD 0, status := { busy := false, fail := false, cause := .none }
        trace := k.trace ++ ([7, 6, 5, 4, 3, 2, 1, 0].map (fun i => f.data.getLsbD i)).flatMap
          (fun v => [.sda v, .scl true, .dly, .scl false, .dly]) }

/-- 42_byte_transfer.md section 2 (R162, R163, and R114's wired-AND on a live bank, the spec's general knowledge): P_RECV
makes eight bits `c0 w c1 r w`, then `c0 w`, and RXDATA takes the eight levels read, the first as bit 7, whatever `sr`
held before. -/
def Obligations.PRecvShiftsInMsbFirst : Prop :=
  ∀ (s : State) (k : Bank) (f : CmdFields) (l : List Bool) (v : Byte),
    s.banks[s.bus]? = some k → k.status.busy = false → answersNext s.bus k l →
    [7, 6, 5, 4, 3, 2, 1, 0].map (fun i => v.getLsbD i) = l.map (readLevel (s.params.live.contains s.bus) k.sda) →
    CommandRuns s k (.pRecv f) 43 8
      { k.view with
        scl := false, rxdata := v, status := { busy := false, fail := false, cause := .none }
        trace := k.trace ++ ([7, 6, 5, 4, 3, 2, 1, 0].map (fun i => v.getLsbD i)).flatMap
          (fun r => [.scl false, .dly, .scl true, .rd r, .dly]) ++ [.scl false, .dly] }

/-- 42_byte_transfer.md R164 (which the spec derives from R160 and R162): P_SEND runs, and an environment that answers the
reads of a later P_RECV, on a released line or a placeholder bank, with the SDA levels of the events P_SEND appended, in
order, makes it receive the byte sent. -/
def Obligations.SendThenReceiveLoopsBack : Prop :=
  ∀ (s : State) (k : Bank) (f : CmdFields), s.banks[s.bus]? = some k → k.status.busy = false →
    ∃ t k₁ evs, exec (.pSend f) s = .next t ∧ runEngine s.bus 41 t = .next (s.setBank s.bus k₁) ∧
      k₁.status.busy = false ∧ k₁.trace = k.trace ++ evs ∧
      ∀ (s' : State) (k' : Bank) (g : CmdFields), s'.banks[s'.bus]? = some k' → k'.status.busy = false →
        (k'.sda = true ∨ s'.bus ∉ s'.params.live) →
        answersNext s'.bus k' (evs.filterMap (fun e => match e with | .sda v => some v | _ => none)) →
        ∃ t' k₂, exec (.pRecv g) s' = .next t' ∧ runEngine s'.bus 43 t' = .next (s'.setBank s'.bus k₂) ∧
          k₂.status.busy = false ∧ k₂.rxdata = f.data

/-! ## The transactions

`all` is the list of the bytes sent before the last STOP or START, each with the number of high reads before its
acknowledge; the environment's answers are `sentAnswers all`. The address byte is written out: twice the address, plus 1
for reading. That the direction bit is the least significant one, 0 for writing and 1 for reading, is the spec's general
knowledge (43_transactions.md R184, D16; log 21). -/

/-- 43_transactions.md R186 (counts of R199): WRITE with every byte acknowledged. -/
def Obligations.WriteRuns : Prop :=
  ∀ (s : State) (k : Bank) (f : CmdFields) (j : Nat) (data : List (Byte × Nat)),
    s.banks[s.bus]? = some k → k.status.busy = false → k.len.toNat = data.length → data.length ≤ 256 →
    Memory.holds k.buf 0 (data.map (·.1)) →
    let all : List (Byte × Nat) := (BitVec.ofNat 8 (2 * f.addr.toNat), j) :: data
    (∀ p ∈ all, p.2 < s.params.pollLimit.toNat) → answersNext s.bus k (sentAnswers all) →
    CommandRuns s k (.write f) (14 + 47 * (1 + data.length) + (all.map (·.2)).sum + 1) (sentAnswers all).length
      { k.view with
        scl := true, sda := true, status := { busy := false, fail := false, cause := .none }
        trace := k.trace ++ startTrace ++ sentTrace all ++ stopTrace }

/-- 43_transactions.md R187 (counts of R199): READ with the address acknowledged; BUF takes the bytes answered. -/
def Obligations.ReadRuns : Prop :=
  ∀ (s : State) (k : Bank) (f : CmdFields) (j : Nat) (bytes : List Byte),
    s.banks[s.bus]? = some k → k.status.busy = false → k.len.toNat = bytes.length → 1 ≤ bytes.length →
    bytes.length ≤ 256 → j < s.params.pollLimit.toNat →
    answersNext s.bus k (ackedAnswers j ++ bytes.flatMap byteBits) →
    ∃ m, Memory.tookBytes k.buf m bytes ∧
      CommandRuns s k (.read f) (58 + 49 * bytes.length + j + 1) (j + 1 + 8 * bytes.length)
        { k.view with
          scl := true, sda := true, status := { busy := false, fail := false, cause := .none }, buf := m
          trace := k.trace ++ startTrace ++ sentTrace [(BitVec.ofNat 8 (2 * f.addr.toNat + 1), j)] ++
            receivedTrace bytes ++ stopTrace }

/-- 43_transactions.md R188 (counts of R199): WRITE_REG with all three bytes acknowledged, whatever LEN and BUF hold. -/
def Obligations.WriteRegRuns : Prop :=
  ∀ (s : State) (k : Bank) (f : CmdFields) (j0 j1 j2 : Nat),
    s.banks[s.bus]? = some k → k.status.busy = false →
    let all : List (Byte × Nat) := [(BitVec.ofNat 8 (2 * f.addr.toNat), j0), (f.reg, j1), (f.data, j2)]
    (∀ p ∈ all, p.2 < s.params.pollLimit.toNat) → answersNext s.bus k (sentAnswers all) →
    CommandRuns s k (.writeReg f) (155 + (j0 + j1 + j2) + 1) (sentAnswers all).length
      { k.view with
        scl := true, sda := true, status := { busy := false, fail := false, cause := .none }
        trace := k.trace ++ startTrace ++ sentTrace all ++ stopTrace }

/-- 43_transactions.md R189, R193 (counts of R199): READ_REG with all three bytes acknowledged: a repeated START with no
STOP before it, one byte, NACK, STOP, and the byte in RXDATA. -/
def Obligations.ReadRegRuns : Prop :=
  ∀ (s : State) (k : Bank) (f : CmdFields) (j0 j1 j2 : Nat) (v : Byte),
    s.banks[s.bus]? = some k → k.status.busy = false →
    j0 < s.params.pollLimit.toNat → j1 < s.params.pollLimit.toNat → j2 < s.params.pollLimit.toNat →
    answersNext s.bus k (ackedAnswers j0 ++ ackedAnswers j1 ++ ackedAnswers j2 ++ byteBits v) →
    CommandRuns s k (.readReg f) (208 + (j0 + j1 + j2) + 1) (j0 + j1 + j2 + 11)
      { k.view with
        scl := true, sda := true, status := { busy := false, fail := false, cause := .none }, rxdata := v
        trace := k.trace ++ startTrace ++ sentTrace [(BitVec.ofNat 8 (2 * f.addr.toNat), j0), (f.reg, j1)] ++
          startTrace ++ sentTrace [(BitVec.ofNat 8 (2 * f.addr.toNat + 1), j2)] ++
          recvTrace v ++ nackTrace ++ stopTrace }

/-- 43_transactions.md R190 (counts of R199): WRITE_REG_MULTI with every byte acknowledged. -/
def Obligations.WriteRegMultiRuns : Prop :=
  ∀ (s : State) (k : Bank) (f : CmdFields) (j0 j1 : Nat) (data : List (Byte × Nat)),
    s.banks[s.bus]? = some k → k.status.busy = false → k.len.toNat = data.length → data.length ≤ 256 →
    Memory.holds k.buf 0 (data.map (·.1)) →
    let all : List (Byte × Nat) := (BitVec.ofNat 8 (2 * f.addr.toNat), j0) :: (f.reg, j1) :: data
    (∀ p ∈ all, p.2 < s.params.pollLimit.toNat) → answersNext s.bus k (sentAnswers all) →
    CommandRuns s k (.writeRegMulti f) (14 + 47 * (2 + data.length) + (all.map (·.2)).sum + 1)
      (sentAnswers all).length
      { k.view with
        scl := true, sda := true, status := { busy := false, fail := false, cause := .none }
        trace := k.trace ++ startTrace ++ sentTrace all ++ stopTrace }

/-- 43_transactions.md R191, R193 (counts of R199): READ_REG_MULTI with its three sent bytes acknowledged; BUF takes the
bytes answered. -/
def Obligations.ReadRegMultiRuns : Prop :=
  ∀ (s : State) (k : Bank) (f : CmdFields) (j0 j1 j2 : Nat) (bytes : List Byte),
    s.banks[s.bus]? = some k → k.status.busy = false → k.len.toNat = bytes.length → 1 ≤ bytes.length →
    bytes.length ≤ 256 →
    j0 < s.params.pollLimit.toNat → j1 < s.params.pollLimit.toNat → j2 < s.params.pollLimit.toNat →
    answersNext s.bus k (ackedAnswers j0 ++ ackedAnswers j1 ++ ackedAnswers j2 ++ bytes.flatMap byteBits) →
    ∃ m, Memory.tookBytes k.buf m bytes ∧
      CommandRuns s k (.readRegMulti f) (159 + 49 * bytes.length + (j0 + j1 + j2) + 1)
        (j0 + j1 + j2 + 3 + 8 * bytes.length)
        { k.view with
          scl := true, sda := true, status := { busy := false, fail := false, cause := .none }, buf := m
          trace := k.trace ++ startTrace ++ sentTrace [(BitVec.ofNat 8 (2 * f.addr.toNat), j0), (f.reg, j1)] ++
            startTrace ++ sentTrace [(BitVec.ofNat 8 (2 * f.addr.toNat + 1), j2)] ++
            receivedTrace bytes ++ stopTrace }

/-- 43_transactions.md R185, R184: a transaction whose address byte is not acknowledged ends with the one STOP of its
ACKWAIT and ACK_TIMEOUT; BUF and RXDATA are as before. The address byte carries the direction bit 1 in READ only (D16, log
21). -/
def Obligations.UnacknowledgedAddressEndsTransaction : Prop :=
  ∀ (s : State) (k : Bank) (f : CmdFields) (op : Op), isTransaction op = true →
    s.banks[s.bus]? = some k → k.status.busy = false → lenAccepted k.len.toNat op → s.params.pollLimit ≠ 0 →
    answersNext s.bus k (List.replicate s.params.pollLimit.toNat true) →
    CommandRuns s k (Instr.ofOp f op) (58 + s.params.pollLimit.toNat + 1) s.params.pollLimit.toNat
      { k.view with
        scl := true, sda := true, status := { busy := false, fail := true, cause := .ackTimeout }
        trace := k.trace ++ startTrace ++
          sendTrace (BitVec.ofNat 8 (if op = .read then 2 * f.addr.toNat + 1 else 2 * f.addr.toNat)) ++
          timeoutTrace s.params.pollLimit.toNat }

/-- 43_transactions.md R185, R186, R190: WRITE and WRITE_REG_MULTI end at the first byte of BUF that is not acknowledged:
the bytes before it have been sent, it has been sent, no later byte is, and the one STOP is its ACKWAIT's. -/
def Obligations.FirstUnacknowledgedByteEndsWrite : Prop :=
  ∀ (s : State) (k : Bank) (f : CmdFields) (j0 j1 : Nat) (pre : List (Byte × Nat)) (x : Byte),
    s.banks[s.bus]? = some k → k.status.busy = false → k.len.toNat ≤ 256 → pre.length < k.len.toNat →
    Memory.holds k.buf 0 (pre.map (·.1) ++ [x]) → s.params.pollLimit ≠ 0 →
    let n := s.params.pollLimit.toNat
    let all : List (Byte × Nat) := (BitVec.ofNat 8 (2 * f.addr.toNat), j0) :: pre
    let allReg : List (Byte × Nat) := (BitVec.ofNat 8 (2 * f.addr.toNat), j0) :: (f.reg, j1) :: pre
    ((∀ p ∈ all, p.2 < n) → answersNext s.bus k (sentAnswers all ++ List.replicate n true) →
      CommandRuns s k (.write f) (7 + 47 * all.length + (all.map (·.2)).sum + 40 + (n + 11) + 1)
        ((sentAnswers all).length + n)
        { k.view with
          scl := true, sda := true, status := { busy := false, fail := true, cause := .ackTimeout }
          trace := k.trace ++ startTrace ++ sentTrace all ++ sendTrace x ++ timeoutTrace n }) ∧
    ((∀ p ∈ allReg, p.2 < n) → answersNext s.bus k (sentAnswers allReg ++ List.replicate n true) →
      CommandRuns s k (.writeRegMulti f) (7 + 47 * allReg.length + (allReg.map (·.2)).sum + 40 + (n + 11) + 1)
        ((sentAnswers allReg).length + n)
        { k.view with
          scl := true, sda := true, status := { busy := false, fail := true, cause := .ackTimeout }
          trace := k.trace ++ startTrace ++ sentTrace allReg ++ sendTrace x ++ timeoutTrace n })

/-- 43_transactions.md R185, R188 to R191: a transaction that has had its address byte acknowledged ends at the first
register, data or second address byte that is not: the bytes before it have been sent, it has been sent, no later event
but its ACKWAIT's one STOP, and BUF, RXDATA and LEN are as before. Where REG is declined, in the four commands that send
it; where DATA is, in WRITE_REG; where the second address byte is, in READ_REG and READ_REG_MULTI. -/
def Obligations.LaterUnacknowledgedByteEndsTransaction : Prop :=
  ∀ (s : State) (k : Bank) (f : CmdFields) (j0 j1 : Nat), s.banks[s.bus]? = some k → k.status.busy = false →
    s.params.pollLimit ≠ 0 → j0 < s.params.pollLimit.toNat →
    let n := s.params.pollLimit.toNat
    let first : Byte × Nat := (BitVec.ofNat 8 (2 * f.addr.toNat), j0)
    let failed := fun (evs : List Ev) =>
      { k.view with
        scl := true, sda := true, status := { busy := false, fail := true, cause := .ackTimeout }
        trace := k.trace ++ startTrace ++ evs ++ timeoutTrace n }
    (∀ op : Op, op = .writeReg ∨ op = .readReg ∨ op = .writeRegMulti ∨ op = .readRegMulti →
      lenAccepted k.len.toNat op → answersNext s.bus k (ackedAnswers j0 ++ List.replicate n true) →
      CommandRuns s k (Instr.ofOp f op) (105 + j0 + n + 1) (j0 + 1 + n)
        (failed (sentTrace [first] ++ sendTrace f.reg))) ∧
    (j1 < n → answersNext s.bus k (ackedAnswers j0 ++ ackedAnswers j1 ++ List.replicate n true) →
      CommandRuns s k (.writeReg f) (152 + (j0 + j1) + n + 1) (j0 + j1 + 2 + n)
        (failed (sentTrace [first, (f.reg, j1)] ++ sendTrace f.data)) ∧
      ∀ op : Op, op = .readReg ∨ op = .readRegMulti → lenAccepted k.len.toNat op →
        CommandRuns s k (Instr.ofOp f op) (159 + (j0 + j1) + n + 1) (j0 + j1 + 2 + n)
          (failed (sentTrace [first, (f.reg, j1)] ++ startTrace ++ sendTrace (BitVec.ofNat 8 (2 * f.addr.toNat + 1)))))

/-- 20_memory.md R64 gives the read of a byte nothing has written no value; that the engine step that would begin its SEND
stops the machine is the model's deduction (log 2, from 95_test_vectors.md V66). -/
def Obligations.SendingAnUnwrittenByteStops : Prop :=
  ∀ (s : State) (k : Bank) (b : Nat) (i : Byte) (calls : List Call) (cause : Cause),
    s.banks[b]? = some k → k.seq = .run [] (.send (.buf i) :: calls) cause → Memory.read k.buf i.toNat = none →
    engineStep b s = .fault (.uninitBuf b i)

/-! ## Whole-machine properties of the transactions -/

/-- 43_transactions.md R196, R197 (which the spec derives): whenever an accepted transaction is over, whatever the
environment answered, both outputs are high and STOP's events are the last of its trace. -/
def Obligations.TransactionsEndIdleAfterStop : Prop :=
  ∀ (s t : State) (k k' : Bank) (f : CmdFields) (op : Op) (n : Nat), isTransaction op = true →
    s.params.pollLimit ≠ 0 → s.banks[s.bus]? = some k → k.status.busy = false → lenAccepted k.len.toNat op →
    exec (Instr.ofOp f op) s = .next t → runEngine s.bus n t = .next (s.setBank s.bus k') →
    k'.status.busy = false →
    k'.scl = true ∧ k'.sda = true ∧ ∃ evs, k'.trace = k.trace ++ evs ++ stopTrace

/-- 43_transactions.md R194, 60_exceptions.md R237 (which the spec derives): a transaction that fails leaves every byte of
BUF, RXDATA and LEN as they were, and its cause is ACK_TIMEOUT. -/
def Obligations.FailedTransactionWritesNoResult : Prop :=
  ∀ (s t : State) (k k' : Bank) (f : CmdFields) (op : Op) (n : Nat), isTransaction op = true →
    s.params.pollLimit ≠ 0 → s.banks[s.bus]? = some k → k.status.busy = false → lenAccepted k.len.toNat op →
    exec (Instr.ofOp f op) s = .next t → runEngine s.bus n t = .next (s.setBank s.bus k') →
    k'.status.busy = false → k'.status.fail = true →
    (∀ a, Memory.read k'.buf a = Memory.read k.buf a) ∧ k'.rxdata = k.rxdata ∧ k'.len = k.len ∧
      k'.status.cause = .ackTimeout

/-- 41_signals.md R144 (which the spec derives): from the idle bus, the only SDA changes an accepted transaction makes while
SCL is high are its start conditions, one or, in READ_REG and READ_REG_MULTI, up to two, and then one stop condition. -/
def Obligations.OnlyStartAndStopConditions : Prop :=
  ∀ (s t : State) (k k' : Bank) (f : CmdFields) (op : Op) (n : Nat), isTransaction op = true →
    s.params.pollLimit ≠ 0 → s.banks[s.bus]? = some k → k.status.busy = false → lenAccepted k.len.toNat op →
    k.scl = true → k.sda = true →
    exec (Instr.ofOp f op) s = .next t → runEngine s.bus n t = .next (s.setBank s.bus k') →
    k'.status.busy = false →
    ∃ evs, k'.trace = k.trace ++ evs ∧
      (conditions true true evs = [false, true] ∨
        ((op = .readReg ∨ op = .readRegMulti) ∧ conditions true true evs = [false, false, true]))

/-- 43_transactions.md R199, 70_reset_and_hazards.md R271 (which the spec derives): every accepted command is over after at
most its bound of line events and the completion step, whatever the environment answers. Or the engine has stopped instead,
which is the model's deduction (log 2, DEDUCED: R64 gives the read of such a byte no value, and that the step stops is read
from V66): only in WRITE and WRITE_REG_MULTI, at a byte among BUF[0..LEN-1] that nothing has written. -/
def Obligations.EveryCommandEnds : Prop :=
  ∀ (s : State) (k : Bank) (f : CmdFields) (op : Op), s.params.pollLimit ≠ 0 →
    s.banks[s.bus]? = some k → k.status.busy = false → lenAccepted k.len.toNat op →
    ∃ t n, exec (Instr.ofOp f op) s = .next t ∧ n ≤ eventBound s.params.pollLimit.toNat k.len.toNat op + 1 ∧
      ((∃ k', runEngine s.bus n t = .next (s.setBank s.bus k') ∧ k'.status.busy = false ∧ k'.seq = .idle) ∨
        sendsFromBuf op = true ∧ ∃ i : Byte, i.toNat < k.len.toNat ∧ Memory.read k.buf i.toNat = none ∧
          runEngine s.bus n t = .fault (.uninitBuf s.bus i))

/-- 70_reset_and_hazards.md R271 and 00_scope.md R14's fairness: once a command is accepted, a host `wait` loop on its bank
ends. First, under every fair sequence of moves of the engines and of a host that loads only: from some move on every load
of STATUS answers BUSY = 0. Second, under the model's own schedule, which is fair: whatever moves stand in the inputs
(stores among them, no reset), the free schedule after them comes to such a load. Either run may stop instead at a byte of
BUF that holds no value (log 2). -/
def Obligations.WaitLoopsEnd : Prop :=
  ∀ (s : State) (k : Bank) (f : CmdFields) (op : Op), s.params.pollLimit ≠ 0 →
    s.banks[s.bus]? = some k → k.status.busy = false → lenAccepted k.len.toNat op →
    ∃ t, exec (Instr.ofOp f op) s = .next t ∧
      (∀ acts : Nat → Action, FairTo s.bus acts →
        (∀ n, (∃ c, acts n = .engine c) ∨ ∃ a w, acts n = .host (.load a w)) →
        ∃ n, ∀ m, n ≤ m → WaitOver s.bus (core.run m { t with inputs := (List.range m).map acts })) ∧
      ∀ moves : List Action, .reset ∉ moves → ∃ n, WaitOver s.bus (core.run n { t with inputs := moves })

/-! ## The step -/

/-- The invariant every step keeps (10_state.md R24 to R27, R32, R38; the canonical form of BUF is the model's own). -/
def Obligations.StepKeepsInvariant : Prop :=
  ∀ s t : State, s.Ok → step s = .next t → t.Ok

/-- The state after reset meets the invariant. -/
def Obligations.ResetMeetsInvariant : Prop := State.reset.Ok

/-- 00_scope.md R15 and R7: no step changes the parameters or the number of banks. -/
def Obligations.StepKeepsParameters : Prop :=
  ∀ s t : State, step s = .next t → t.params = s.params ∧ t.banks.length = s.banks.length

/-- 20_memory.md R67: an engine step of bank b changes no other bank, no read of the host's and no recorded fault, and its
outcome for bank b depends on the parameters and bank b alone. -/
def Obligations.BanksAreIndependent : Prop :=
  ∀ (b : Nat) (s₁ s₂ t₁ : State), engineStep b s₁ = .next t₁ →
    (∀ c, c ≠ b → t₁.banks[c]? = s₁.banks[c]?) ∧ t₁.reads = s₁.reads ∧ t₁.faults = s₁.faults ∧
    (s₂.params = s₁.params → s₂.banks[b]? = s₁.banks[b]? →
      ∃ t₂, engineStep b s₂ = .next t₂ ∧ t₂.banks[b]? = t₁.banks[b]?)

/-- A step runs the decoded command (43_transactions.md R180): a host store of a word that decodes to `i` to the CMD of
bank b is `exec i`, with the access taken from the inputs and the bank index set. -/
def Obligations.StepRunsDecodedCommand : Prop :=
  ∀ (s : State) (rest : List Action) (b : Nat) (w : Word) (i : Instr), b < s.banks.length →
    s.inputs = .host (.store (bankAddr b 0x000) 32 w) :: rest → decodeCmd w = .ok i →
    step s = exec i { s with inputs := rest, bus := b }

/-- A step runs the engine's next line event (40_line_driver.md R110): the environment's answer is drawn where the event is
a read, `exec` performs the event's instruction, and `afterEvent` moves the sequencer. The rule gives the one event a step;
two things beside it are the model's choice: the executed READ_SDA carries the answer drawn as its V, while the trace takes
the level read (log 14, DESIGN CHOICE), and the internal assignments beside the event, of `sr`, `bc`, `pcnt`, `idx`, BUF
and RXDATA, fall in the same step as the event (log 15, DESIGN CHOICE). -/
def Obligations.StepRunsLineEvent : Prop :=
  ∀ (s : State) (rest : List Action) (b : Nat) (k k' : Bank) (todo todo' : List Micro) (calls calls' : List Call)
    (cause : Cause) (m : Micro),
    s.inputs = .engine b :: rest → s.banks[b]? = some k → k.seq = .run todo calls cause →
    nextOp k todo calls = .perform k' m todo' calls' →
    ∃ e k₁ u k₂,
      (∀ use, m = .read use → (e, k₁) = drawAnswer b k') ∧ ((∀ use, m ≠ .read use) → k₁ = k') ∧
      exec (eventInstr e m) { s with inputs := rest, bus := b, banks := s.banks.set b k₁ } = .next u ∧
      u.banks[b]? = some k₂ ∧
      step s = .next (u.setBank b
        (afterEvent s.params.pollLimit (readLevel (s.isLive b) k₂.sda e) todo' calls' cause k₂ m))

/-- 43_transactions.md R182: with no event and no call left the engine's step is the completion step: BUSY 0, FAIL and
CAUSE as the command ended, the sequencer idle, nothing else changed. -/
def Obligations.CompletionStepEndsCommand : Prop :=
  ∀ (s : State) (rest : List Action) (b : Nat) (k : Bank) (cause : Cause),
    s.inputs = .engine b :: rest → s.banks[b]? = some k → k.seq = .run [] [] cause →
    step s = .next { s with
      inputs := rest, bus := b
      banks := s.banks.set b
        { k with
          status := { busy := false, fail := if cause = .none then false else true, cause := cause }, seq := .idle } }

/-- 60_exceptions.md R248: a step of an idle engine makes no event and changes no bank. -/
def Obligations.IdleEngineChangesNothing : Prop :=
  ∀ (s : State) (rest : List Action) (b : Nat) (k : Bank),
    s.inputs = .engine b :: rest → s.banks[b]? = some k → k.seq = .idle →
    step s = .next { s with inputs := rest, bus := b }

/-- The runs of one engine the statements speak of are runs of the machine's step. -/
def Obligations.EngineRunIsMachineRun : Prop :=
  ∀ (s : State) (b n : Nat) (rest : List Action) (t : State),
    runEngine b n { s with inputs := rest } = .next t →
    core.run n { s with inputs := List.replicate n (.engine b) ++ rest } = .next t

/-! ## The host port -/

/-- 20_memory.md R51, R55, R86's bank index: the host address of offset `off` of bank b selects them whatever BANK_BASE is,
an address above the last bank or below BANK_BASE selects no bank, and BANK_BASE is a multiple of 0x200. -/
def Obligations.AddressMap : Prop :=
  Config.bankBase % 0x200 = 0 ∧
  (∀ n b off : Nat, b < n → off < 0x200 →
    (blockAddr (Config.bankBase + 0x200 * b + off)).bind (selectBank n) = some (b, off)) ∧
  (∀ n a : Nat, Config.bankBase + 0x200 * n ≤ a → (blockAddr a).bind (selectBank n) = none) ∧
  (∀ a : Nat, a < Config.bankBase → blockAddr a = none)

/-- 20_memory.md R55: an access outside every bank is no access to this block: the step only takes it from the inputs. -/
def Obligations.AccessOutsideEveryBankIsIgnored : Prop :=
  ∀ (s : State) (rest : List Action) (a w : Nat) (v : Word), 0x200 * s.banks.length ≤ a →
    (s.inputs = .host (.load a w) :: rest → step s = .next { s with inputs := rest }) ∧
    (s.inputs = .host (.store a w v) :: rest → step s = .next { s with inputs := rest })

/-- 10_state.md R24 to R31, 20_memory.md R60: what a 32-bit load of each register of an idle bank answers (STATUS and LINE
also of a busy one), with no effect on the block; bits 3:2 of STATUS are R27's codes. -/
def Obligations.RegisterLoadsAnswer : Prop :=
  ∀ (s : State) (rest : List Action) (b : Nat) (k : Bank), s.banks[b]? = some k →
    let answers := fun (off : Nat) (v : Word) =>
      s.inputs = .host (.load (bankAddr b off) 32) :: rest →
        step s = .next { s with inputs := rest, bus := b, reads := s.reads ++ [some v] }
    answers 0x004
      (BitVec.ofNat 32 (k.status.busy.toNat + 2 * k.status.fail.toNat +
        4 * (match k.status.cause with | .none => 0 | .ackTimeout => 1 | .badLen => 2 | .illegal => 3))) ∧
    answers 0x010 (BitVec.ofNat 32 (k.scl.toNat + 2 * k.sda.toNat)) ∧
    (k.status.busy = false →
      answers 0x000 0 ∧ answers 0x008 (BitVec.ofNat 32 k.len.toNat) ∧
      answers 0x00C (BitVec.ofNat 32 k.rxdata.toNat))

/-- 20_memory.md R63: while BUSY = 1 every access to the bank but a 32-bit load of STATUS or LINE records BUSY_ACCESS and
has no other effect; a load has no value. That a bad access of a busy bank, or a load of a byte of BUF nothing has written,
also records BUSY_ACCESS, and only that, is the model's choice (log 13). -/
def Obligations.BusyAccessIsRecorded : Prop :=
  ∀ (s : State) (rest : List Action) (b off w : Nat) (k : Bank) (v : Word),
    s.banks[b]? = some k → off < 0x200 → k.status.busy = true →
    (s.inputs = .host (.load (bankAddr b off) w) :: rest → ¬ (w = 32 ∧ (off = 0x004 ∨ off = 0x010)) →
      step s = .next { s with
        inputs := rest, bus := b, reads := s.reads ++ [none], faults := s.faults ++ [(b, .busyAccess)] }) ∧
    (s.inputs = .host (.store (bankAddr b off) w v) :: rest →
      step s = .next { s with inputs := rest, bus := b, faults := s.faults ++ [(b, .busyAccess)] })

/-- 20_memory.md R53, R54, R55: on an idle bank, a 32-bit access at an offset that is no multiple of 4, an 8-bit access
below BUF, an access of any other width, and an access of 0x014 to 0x0FF record BAD_ACCESS and have no other effect; a
load has no value. -/
def Obligations.BadAccessIsRecorded : Prop :=
  ∀ (s : State) (rest : List Action) (b off w : Nat) (k : Bank) (v : Word),
    s.banks[b]? = some k → off < 0x200 → k.status.busy = false →
    ((w = 32 ∧ off % 4 ≠ 0) ∨ (w = 8 ∧ off < 0x100) ∨ (w ≠ 8 ∧ w ≠ 32) ∨ (0x014 ≤ off ∧ off ≤ 0x0FF)) →
    (s.inputs = .host (.load (bankAddr b off) w) :: rest →
      step s = .next { s with
        inputs := rest, bus := b, reads := s.reads ++ [none], faults := s.faults ++ [(b, .badAccess)] }) ∧
    (s.inputs = .host (.store (bankAddr b off) w v) :: rest →
      step s = .next { s with inputs := rest, bus := b, faults := s.faults ++ [(b, .badAccess)] })

/-- 20_memory.md R61: a store to LEN replaces bits 15:0 and has no other effect. -/
def Obligations.LenStoreKeepsLowBits : Prop :=
  ∀ (s : State) (rest : List Action) (b : Nat) (k : Bank) (v : Word),
    s.banks[b]? = some k → k.status.busy = false →
    s.inputs = .host (.store (bankAddr b 0x008) 32 v) :: rest →
    step s = .next { s with
      inputs := rest, bus := b, banks := s.banks.set b { k with len := BitVec.ofNat 16 v.toNat } }

/-- 20_memory.md R62: a store to STATUS, RXDATA or LINE changes no state and records no fault. -/
def Obligations.ReadOnlyStoresAreIgnored : Prop :=
  ∀ (s : State) (rest : List Action) (b off : Nat) (k : Bank) (v : Word),
    s.banks[b]? = some k → k.status.busy = false → (off = 0x004 ∨ off = 0x00C ∨ off = 0x010) →
    s.inputs = .host (.store (bankAddr b off) 32 v) :: rest →
    step s = .next { s with inputs := rest, bus := b }

/-- 20_memory.md R56, R57, R61: an 8-bit store to BUF[i] replaces that byte, a 32-bit store to BUF[4j] the four bytes from
there in little-endian order; every other byte of BUF, and everything else, stays. -/
def Obligations.BufStoresReplaceBytes : Prop :=
  ∀ (s : State) (rest : List Action) (b i : Nat) (k : Bank) (v : Word),
    s.banks[b]? = some k → k.status.busy = false → i < 256 →
    (s.inputs = .host (.store (bankAddr b (0x100 + i)) 8 v) :: rest →
      ∃ m, step s = .next { s with inputs := rest, bus := b, banks := s.banks.set b { k with buf := m } } ∧
        ∀ a, Memory.read m a = if a = i then some (v.extractLsb' 0 8) else Memory.read k.buf a) ∧
    (i % 4 = 0 → s.inputs = .host (.store (bankAddr b (0x100 + i)) 32 v) :: rest →
      ∃ m, step s = .next { s with inputs := rest, bus := b, banks := s.banks.set b { k with buf := m } } ∧
        ∀ a, Memory.read m a =
          if i ≤ a ∧ a < i + 4 then some (v.extractLsb' (8 * (a - i)) 8) else Memory.read k.buf a)

/-- 20_memory.md R56, R57, R64: an 8-bit load of BUF[i] answers that byte, a 32-bit load of BUF[4j] the four bytes from
there in little-endian order; where a byte covered holds no value, UNINIT_BUF is recorded and the load has no value. -/
def Obligations.BufLoadsAnswerBytes : Prop :=
  ∀ (s : State) (rest : List Action) (b i : Nat) (k : Bank),
    s.banks[b]? = some k → k.status.busy = false → i < 256 →
    (s.inputs = .host (.load (bankAddr b (0x100 + i)) 8) :: rest →
      (∀ x, Memory.read k.buf i = some x →
        step s = .next { s with
          inputs := rest, bus := b, reads := s.reads ++ [some (BitVec.ofNat 32 x.toNat)] }) ∧
      (Memory.read k.buf i = none →
        step s = .next { s with
          inputs := rest, bus := b, reads := s.reads ++ [none], faults := s.faults ++ [(b, .uninitBuf)] })) ∧
    (i % 4 = 0 → s.inputs = .host (.load (bankAddr b (0x100 + i)) 32) :: rest →
      (∀ x0 x1 x2 x3, Memory.read k.buf i = some x0 → Memory.read k.buf (i + 1) = some x1 →
        Memory.read k.buf (i + 2) = some x2 → Memory.read k.buf (i + 3) = some x3 →
        step s = .next { s with
          inputs := rest, bus := b
          reads := s.reads ++
            [some (BitVec.ofNat 32
              (x0.toNat + 2 ^ 8 * x1.toNat + 2 ^ 16 * x2.toNat + 2 ^ 24 * x3.toNat))] }) ∧
      ((∃ a, i ≤ a ∧ a < i + 4 ∧ Memory.read k.buf a = none) →
        step s = .next { s with
          inputs := rest, bus := b, reads := s.reads ++ [none], faults := s.faults ++ [(b, .uninitBuf)] }))

/-! ## Reset -/

/-- 10_state.md R44, 70_reset_and_hazards.md R260: the values the spec gives every bank at reset. The two banks, LIVE and
the poll limit are 00_scope.md R7's defaults, which the model puts into its reset state (log 4). -/
def Obligations.ResetValues : Prop :=
  State.reset.banks.length = 2 ∧ State.reset.params.live = [0] ∧ State.reset.params.pollLimit = 250 ∧
  ∀ k ∈ State.reset.banks,
    k.scl = true ∧ k.sda = true ∧ statusWord k.status = 0x00000000 ∧ k.len = 0 ∧ k.rxdata = 0 ∧
    lineWord k.scl k.sda = 0x00000003 ∧ (∀ a, Memory.read k.buf a = none) ∧ k.seq = .idle ∧ k.trace = []

/-- 70_reset_and_hazards.md R260, R262: the reset input resets every bank at once, whatever it was doing, with no event of
a STOP: outputs 1, BUSY and FAIL 0, every byte of BUF unwritten, the trace empty, the sequencer idle. That the parameters,
the host's reads, the recorded faults and the environment go on is the model's choice (log 16). -/
def Obligations.ResetInputResetsEveryBank : Prop :=
  ∀ (s : State) (rest : List Action), s.inputs = .reset :: rest →
    ∃ t, step s = .next t ∧ t.banks.length = s.banks.length ∧ t.inputs = rest ∧ t.params = s.params ∧
      t.reads = s.reads ∧ t.faults = s.faults ∧
      (∀ k ∈ t.banks,
        k.scl = true ∧ k.sda = true ∧ k.status = { busy := false, fail := false, cause := .none } ∧ k.len = 0 ∧
        k.rxdata = 0 ∧ (∀ a, Memory.read k.buf a = none) ∧ k.seq = .idle ∧ k.trace = []) ∧
      ∀ (b : Nat) (k k' : Bank), s.banks[b]? = some k → t.banks[b]? = some k' →
        k'.answers = k.answers ∧ k'.draws = k.draws
end

