-- ==== Sys2Proof/Laws/Memory.lean ====
section
/-! SUPPORT. BUF: a read after a write, a write leaves every other byte alone, and every write keeps the canonical form
(20_memory.md R56, R57, R64). -/

namespace Sys2Proof.Machine

theorem Memory.read_write_same (m : List Host.Cell) (a : Nat) (v : Byte) :
    Memory.read (Memory.write m a v) a = some v := by
  induction m with
  | nil => simp [Memory.write, Memory.read]
  | cons c m ih =>
    simp only [Memory.write]
    split
    · simp [Memory.read]
    · split
      · simp [Memory.read]
      · simp [Memory.read, *]

theorem Memory.read_write_other (m : List Host.Cell) {a i : Nat} (v : Byte) (h : i ≠ a) :
    Memory.read (Memory.write m a v) i = Memory.read m i := by
  induction m with
  | nil => simp [Memory.write, Memory.read, Ne.symm h]
  | cons c m ih =>
    simp only [Memory.write]
    split
    · simp [Memory.read, Ne.symm h]
    · split
      · next hc => simp [Memory.read, hc, Ne.symm h]
      · simp [Memory.read, ih]

theorem Memory.read_write (m : List Host.Cell) (a i : Nat) (v : Byte) :
    Memory.read (Memory.write m a v) i = if i = a then some v else Memory.read m i := by
  split
  · next h => rw [h, Memory.read_write_same]
  · next h => exact Memory.read_write_other m v h

theorem Memory.mem_write {m : List Host.Cell} {a : Nat} {v : Byte} {c : Host.Cell}
    (h : c ∈ Memory.write m a v) : c = (a, v) ∨ c ∈ m := by
  induction m with
  | nil => simpa [Memory.write] using h
  | cons d m ih =>
    simp only [Memory.write] at h
    split at h
    · simpa using h
    · split at h
      · rcases List.mem_cons.mp h with h | h
        · exact .inl h
        · exact .inr (List.mem_cons_of_mem _ h)
      · rcases List.mem_cons.mp h with h | h
        · exact .inr (h ▸ List.mem_cons_self)
        · rcases ih h with h | h
          · exact .inl h
          · exact .inr (List.mem_cons_of_mem _ h)

theorem Memory.write_pairwise {m : List Host.Cell} (a : Nat) (v : Byte)
    (h : m.Pairwise (fun c d => c.1 < d.1)) :
    (Memory.write m a v).Pairwise (fun c d => c.1 < d.1) := by
  induction m with
  | nil => simp [Memory.write]
  | cons d m ih =>
    obtain ⟨hd, hm⟩ := List.pairwise_cons.mp h
    simp only [Memory.write]
    split
    · next hlt =>
      refine List.pairwise_cons.mpr ⟨fun c hc => ?_, h⟩
      rcases List.mem_cons.mp hc with rfl | hc
      · exact hlt
      · exact Nat.lt_trans hlt (hd c hc)
    · split
      · next heq => exact List.pairwise_cons.mpr ⟨fun c hc => heq ▸ hd c hc, hm⟩
      · refine List.pairwise_cons.mpr ⟨fun c hc => ?_, ih hm⟩
        rcases Memory.mem_write hc with rfl | hc
        · show d.1 < a
          omega
        · exact hd c hc

/-- A write of a byte of the buffer keeps the canonical form. -/
theorem Memory.write_wf {m : List Host.Cell} {a : Nat} (v : Byte) (ha : a < Config.bufSize) (h : Memory.wf m) :
    Memory.wf (Memory.write m a v) := by
  refine ⟨Memory.write_pairwise a v h.1, fun c hc => ?_⟩
  rcases Memory.mem_write hc with rfl | hc
  · exact ha
  · exact h.2 c hc

/-- A 32-bit write inside the buffer keeps the canonical form. -/
theorem Memory.write32_wf {m : List Host.Cell} {i : Nat} (v : Word) (hi : i + 3 < Config.bufSize) (h : Memory.wf m) :
    Memory.wf (Memory.write32 m i v) := by
  unfold Memory.write32
  exact Memory.write_wf _ hi (Memory.write_wf _ (by omega) (Memory.write_wf _ (by omega)
    (Memory.write_wf _ (by omega) h)))

/-- A byte after a 32-bit write: one of the four written, or as before (20_memory.md R57). -/
theorem Memory.read_write32 (m : List Host.Cell) (i a : Nat) (v : Word) :
    Memory.read (Memory.write32 m i v) a =
      if a = i + 3 then some (v.extractLsb' 24 8)
      else if a = i + 2 then some (v.extractLsb' 16 8)
      else if a = i + 1 then some (v.extractLsb' 8 8)
      else if a = i then some (v.extractLsb' 0 8)
      else Memory.read m a := by
  simp only [Memory.write32, Memory.read_write]

theorem Memory.wf_nil : Memory.wf [] := by simp [Memory.wf]

end Sys2Proof.Machine
end

