-- ==== Sys2Proof/Laws/State.lean ====
section
/-! SUPPORT. One lemma per field per update of the state and of a bank, so that no later proof unfolds a record update. -/

namespace Sys2Proof.Machine

section
variable (s : State) (b c : Nat) (k k' : Bank) (f : ModelFault) (v : Option Word)

@[simp] theorem State.setBank_params : (s.setBank b k).params = s.params := rfl
@[simp] theorem State.setBank_banks : (s.setBank b k).banks = s.banks.set b k := rfl
@[simp] theorem State.setBank_bus : (s.setBank b k).bus = s.bus := rfl
@[simp] theorem State.setBank_inputs : (s.setBank b k).inputs = s.inputs := rfl
@[simp] theorem State.setBank_turn : (s.setBank b k).turn = s.turn := rfl
@[simp] theorem State.setBank_pad : (s.setBank b k).pad = s.pad := rfl
@[simp] theorem State.setBank_reads : (s.setBank b k).reads = s.reads := rfl
@[simp] theorem State.setBank_faults : (s.setBank b k).faults = s.faults := rfl
@[simp] theorem State.setBank_isLive : (s.setBank b k).isLive c = s.isLive c := rfl

@[simp] theorem State.setBank_setBank : (s.setBank b k).setBank b k' = s.setBank b k' := by
  simp [State.setBank]

theorem State.setBank_self (h : s.banks[b]? = some k) : s.setBank b k = s := by
  have : s.banks.set b k = s.banks := by
    obtain ⟨hb, rfl⟩ := List.getElem?_eq_some_iff.mp h
    exact List.set_getElem_self hb
  simp [State.setBank, this]

theorem State.setBank_get (h : s.banks[b]? = some k) : (s.setBank b k').banks[b]? = some k' := by
  obtain ⟨hb, -⟩ := List.getElem?_eq_some_iff.mp h
  simp [hb]

theorem State.setBank_get_other (h : c ≠ b) : (s.setBank b k).banks[c]? = s.banks[c]? := by
  simp [Ne.symm h]

@[simp] theorem State.recordFault_params : (s.recordFault b f).params = s.params := rfl
@[simp] theorem State.recordFault_banks : (s.recordFault b f).banks = s.banks := rfl
@[simp] theorem State.recordFault_bus : (s.recordFault b f).bus = s.bus := rfl
@[simp] theorem State.recordFault_inputs : (s.recordFault b f).inputs = s.inputs := rfl
@[simp] theorem State.recordFault_turn : (s.recordFault b f).turn = s.turn := rfl
@[simp] theorem State.recordFault_pad : (s.recordFault b f).pad = s.pad := rfl
@[simp] theorem State.recordFault_reads : (s.recordFault b f).reads = s.reads := rfl
@[simp] theorem State.recordFault_faults : (s.recordFault b f).faults = s.faults ++ [(b, f)] := rfl

@[simp] theorem State.answerHost_params : (s.answerHost v).params = s.params := rfl
@[simp] theorem State.answerHost_banks : (s.answerHost v).banks = s.banks := rfl
@[simp] theorem State.answerHost_bus : (s.answerHost v).bus = s.bus := rfl
@[simp] theorem State.answerHost_inputs : (s.answerHost v).inputs = s.inputs := rfl
@[simp] theorem State.answerHost_turn : (s.answerHost v).turn = s.turn := rfl
@[simp] theorem State.answerHost_pad : (s.answerHost v).pad = s.pad := rfl
@[simp] theorem State.answerHost_reads : (s.answerHost v).reads = s.reads ++ [v] := rfl
@[simp] theorem State.answerHost_faults : (s.answerHost v).faults = s.faults := rfl

@[simp] theorem State.resetInput_params : s.resetInput.params = s.params := rfl
@[simp] theorem State.resetInput_banks : s.resetInput.banks = s.banks.map Bank.afterReset := rfl
@[simp] theorem State.resetInput_bus : s.resetInput.bus = s.bus := rfl
@[simp] theorem State.resetInput_inputs : s.resetInput.inputs = s.inputs := rfl
@[simp] theorem State.resetInput_turn : s.resetInput.turn = s.turn := rfl
@[simp] theorem State.resetInput_pad : s.resetInput.pad = s.pad := rfl
@[simp] theorem State.resetInput_reads : s.resetInput.reads = s.reads := rfl
@[simp] theorem State.resetInput_faults : s.resetInput.faults = s.faults := rfl
end

section
variable (k : Bank) (e : Ev) (c : Cause) (op : Op) (f : CmdFields) (calls : List Call)

@[simp] theorem Bank.emit_scl : (k.emit e).scl = k.scl := rfl
@[simp] theorem Bank.emit_sda : (k.emit e).sda = k.sda := rfl
@[simp] theorem Bank.emit_status : (k.emit e).status = k.status := rfl
@[simp] theorem Bank.emit_len : (k.emit e).len = k.len := rfl
@[simp] theorem Bank.emit_rxdata : (k.emit e).rxdata = k.rxdata := rfl
@[simp] theorem Bank.emit_buf : (k.emit e).buf = k.buf := rfl
@[simp] theorem Bank.emit_seq : (k.emit e).seq = k.seq := rfl
@[simp] theorem Bank.emit_trace : (k.emit e).trace = k.trace ++ [e] := rfl
@[simp] theorem Bank.emit_answers : (k.emit e).answers = k.answers := rfl

@[simp] theorem Bank.reject_status : (k.reject c).status = Status.ended c := rfl
@[simp] theorem Bank.reject_buf : (k.reject c).buf = k.buf := rfl
@[simp] theorem Bank.reject_seq : (k.reject c).seq = k.seq := rfl
@[simp] theorem Bank.reject_trace : (k.reject c).trace = k.trace := rfl

@[simp] theorem Bank.accept_status : (k.accept op f calls).status = Status.running := rfl
@[simp] theorem Bank.accept_buf : (k.accept op f calls).buf = k.buf := rfl
@[simp] theorem Bank.accept_seq : (k.accept op f calls).seq = .run [] calls .none := rfl
@[simp] theorem Bank.accept_trace : (k.accept op f calls).trace = k.trace := rfl

@[simp] theorem Bank.complete_status : (k.complete c).status = Status.ended c := rfl
@[simp] theorem Bank.complete_buf : (k.complete c).buf = k.buf := rfl
@[simp] theorem Bank.complete_seq : (k.complete c).seq = .idle := rfl
@[simp] theorem Bank.complete_trace : (k.complete c).trace = k.trace := rfl

@[simp] theorem Status.running_busy : Status.running.busy = true := rfl
@[simp] theorem Status.ended_busy : (Status.ended c).busy = false := rfl
@[simp] theorem Status.ended_cause : (Status.ended c).cause = c := rfl
theorem Status.ended_fail : (Status.ended c).fail = true ↔ c ≠ .none := by simp [Status.ended]
end

end Sys2Proof.Machine
end

