-- ==== Sys2Proof/Laws/Ops.lean ====
section
/-! SUPPORT. One lemma per shared operation: everything it can do. -/

namespace Sys2Proof.Machine

/-- Every command is one CMD write of its operation, with the procedure calls of its rule (43_transactions.md R180). -/
theorem exec_ofOp (op : Op) (f : CmdFields) (s : State) :
    exec (Instr.ofOp f op) s = acceptCommand op f (fun n => ruleCalls n op) s := by
  cases op <;> rfl

/-- The length check says what 43_transactions.md R183 says. -/
theorem badLen_eq_false_iff (op : Op) (n : BitVec 16) : badLen op n = false ↔ lenAccepted n.toNat op := by
  have h0 : n = 0#16 ↔ n.toNat = 0 := ⟨fun h => h ▸ rfl, fun h => BitVec.eq_of_toNat_eq h⟩
  have hs : Config.bufSize = 256 := rfl
  cases op <;> simp [badLen, readsIntoBuf, sendsFromBuf, lenAccepted, hs, h0] <;> omega

/-- What a CMD write of a legal word does (43_transactions.md R180): one of three. -/
theorem acceptCommand_cases {op : Op} {f : CmdFields} {calls : Nat → List Call} {s t : State}
    (h : acceptCommand op f calls s = .next t) :
    ∃ k, s.banks[s.bus]? = some k ∧
      ((k.status.busy = true ∧ t = s.recordFault s.bus .busyAccess) ∨
        (k.status.busy = false ∧ badLen op k.len = true ∧ t = s.setBank s.bus (k.reject .badLen)) ∨
        (k.status.busy = false ∧ badLen op k.len = false ∧
          t = s.setBank s.bus (k.accept op f (calls k.len.toNat)))) := by
  unfold acceptCommand at h
  split at h
  · cases h
  · next k hk =>
    refine ⟨k, hk, ?_⟩
    split at h
    · next hb => cases h; exact .inl ⟨hb, rfl⟩
    · next hb =>
      have hb' : k.status.busy = false := by simpa using hb
      split at h
      · next hl => cases h; exact .inr (.inl ⟨hb', hl, rfl⟩)
      · next hl => cases h; exact .inr (.inr ⟨hb', by simpa using hl, rfl⟩)

/-- What a CMD write of an illegal word does (30_encoding.md R88): one of two. -/
theorem rejectIllegal_cases {s t : State} (h : rejectIllegal s = .next t) :
    ∃ k, s.banks[s.bus]? = some k ∧
      ((k.status.busy = true ∧ t = s.recordFault s.bus .busyAccess) ∨
        (k.status.busy = false ∧ t = s.setBank s.bus (k.reject .illegal))) := by
  unfold rejectIllegal at h
  split at h
  · cases h
  · next k hk =>
    refine ⟨k, hk, ?_⟩
    split at h
    · next hb => cases h; exact .inl ⟨hb, rfl⟩
    · next hb => cases h; exact .inr ⟨by simpa using hb, rfl⟩

/-- What a host load does: an answer, or a fault recorded and no answer; never a change of a bank (20_memory.md R60). -/
theorem hostLoad_cases (b : Nat) (k : Bank) (t : Target) (s : State) :
    (∃ v, loadValue k t = .ok v ∧ hostLoad b k t s = s.answerHost (some v)) ∨
      ∃ f, hostLoad b k t s = (s.recordFault b f).answerHost none := by
  unfold hostLoad
  split
  · exact .inr ⟨_, rfl⟩
  · split
    · next v hv => exact .inl ⟨v, hv, rfl⟩
    · next f _ => exact .inr ⟨f, rfl⟩

/-- What a host store that is no CMD write does: the bank as `storeEffect` says, or a fault recorded. -/
theorem hostStore_cases (b : Nat) (k : Bank) (t : Target) (v : Word) (s : State) :
    (k.status.busy = false ∧ ∃ k', storeEffect k v t = .ok k' ∧ hostStore b k t v s = s.setBank b k') ∨
      ∃ f, hostStore b k t v s = s.recordFault b f := by
  unfold hostStore
  split
  · exact .inr ⟨_, rfl⟩
  · next hb =>
    split
    · next k' hk => exact .inl ⟨by simpa using hb, k', hk, rfl⟩
    · next f _ => exact .inr ⟨f, rfl⟩

/-- `AB_W` is twice the address (43_transactions.md R184). -/
theorem addrByteW_eq (a : BitVec 7) : addrByteW a = BitVec.ofNat 8 (2 * a.toNat) := by
  revert a
  decide

/-- `AB_R` is twice the address plus 1 (43_transactions.md R184). -/
theorem addrByteR_eq (a : BitVec 7) : addrByteR a = BitVec.ofNat 8 (2 * a.toNat + 1) := by
  revert a
  decide

/-- The bank and offset an address of bank `b` selects (20_memory.md R51). -/
theorem selectBank_bankAddr {n b off : Nat} (hb : b < n) (ho : off < 0x200) :
    selectBank n (bankAddr b off) = some (b, off) := by
  have h1 : bankAddr b off / Config.bankStride = b := by
    simp only [bankAddr, Config.bankStride]
    omega
  have h2 : bankAddr b off % Config.bankStride = off := by
    simp only [bankAddr, Config.bankStride]
    omega
  simp [selectBank, h1, h2, hb]

/-- An access that reaches BUF covers bytes of BUF only (20_memory.md R52, R53). -/
theorem accessTarget_buf {w off i : Nat} (ho : off < 0x200) :
    (accessTarget w off = .buf8 i → i < Config.bufSize) ∧
      (accessTarget w off = .buf32 i → i + 3 < Config.bufSize) := by
  have hs : Config.bufSize = 256 := rfl
  unfold accessTarget
  rw [hs]
  by_cases h1 : w = 32 ∧ off % 4 = 0
  · rw [if_pos h1]
    by_cases h2 : 0x100 ≤ off
    · simp only [show ¬ off = 0x000 by omega, show ¬ off = 0x004 by omega, show ¬ off = 0x008 by omega,
        show ¬ off = 0x00C by omega, show ¬ off = 0x010 by omega, h2, if_true, if_false, reduceCtorEq,
        Target.buf32.injEq, false_implies, true_and]
      omega
    · constructor <;> intro h <;> (repeat' split at h) <;> cases h
  · rw [if_neg h1]
    split
    · simp only [Target.buf8.injEq, reduceCtorEq, false_implies, and_true]
      omega
    · simp only [reduceCtorEq, false_implies, and_self]

/-- An 8-bit access of BUF[i] (20_memory.md R56). -/
theorem accessTarget_buf8 (i : Nat) : accessTarget 8 (0x100 + i) = .buf8 i := by
  unfold accessTarget
  rw [if_neg (by omega), if_pos (by omega), Nat.add_sub_cancel_left]

/-- A 32-bit access of BUF[i] to BUF[i+3] (20_memory.md R57). -/
theorem accessTarget_buf32 {i : Nat} (h : i % 4 = 0) : accessTarget 32 (0x100 + i) = .buf32 i := by
  unfold accessTarget
  rw [if_pos (by omega), if_neg (by omega), if_neg (by omega), if_neg (by omega), if_neg (by omega), if_neg (by omega),
    if_pos (by omega), Nat.add_sub_cancel_left]

/-- An address outside every bank selects none (20_memory.md R51, R55). -/
theorem selectBank_outside {n a : Nat} (h : 0x200 * n ≤ a) : selectBank n a = none := by
  unfold selectBank
  rw [if_neg]
  show ¬ a / 0x200 < n
  omega

/-- A step that takes a host load of bank `b` from the inputs. -/
theorem step_load {s : State} {rest : List Action} {b off w : Nat} {k : Bank} (hb : s.banks[b]? = some k)
    (ho : off < 0x200) (hi : s.inputs = .host (.load (bankAddr b off) w) :: rest) :
    step s = .next (hostLoad b k (accessTarget w off) { s with inputs := rest, bus := b }) := by
  have he := selectBank_bankAddr (off := off) (List.getElem?_eq_some_iff.mp hb).1 ho
  simp [step, move, hi, act, hostStep, he, hb]

/-- A step that takes a host store to bank `b` from the inputs. -/
theorem step_store {s : State} {rest : List Action} {b off w : Nat} {k : Bank} {v : Word} (hb : s.banks[b]? = some k)
    (ho : off < 0x200) (hi : s.inputs = .host (.store (bankAddr b off) w v) :: rest) :
    step s =
      if accessTarget w off = .cmd then cmdWrite v { s with inputs := rest, bus := b }
      else .next (hostStore b k (accessTarget w off) v { s with inputs := rest, bus := b }) := by
  have he := selectBank_bankAddr (off := off) (List.getElem?_eq_some_iff.mp hb).1 ho
  simp [step, move, hi, act, hostStep, he, hb]

/-- A step that takes an engine's move from the inputs. -/
theorem step_engine {s : State} {rest : List Action} {b : Nat} (hi : s.inputs = .engine b :: rest) :
    step s = engineStep b { s with inputs := rest } := by
  simp [step, move, hi, act]

end Sys2Proof.Machine
end

