-- ==== Sys2Proof/Laws/Engine.lean ====
section
/-! SUPPORT. One engine step and a run of one engine, seen on the bank alone: the engine of bank b reads and writes only
bank b (20_memory.md R67), so a claim about an engine is a claim about `Bank.engine` and `Bank.engineRun`. -/

namespace Sys2Proof.Machine

/-- The environment's answer to a line event, and the bank after it was drawn. -/
def Bank.drawFor (b : Nat) (k : Bank) : Micro → Bool × Bank
  | .read _ => drawAnswer b k
  | .scl _ => (true, k)
  | .sda _ => (true, k)
  | .dly _ => (true, k)

/-- The bank after the event itself. -/
def Bank.event (live : Bool) (e : Bool) (k : Bank) : Micro → Bank
  | .scl v => { k with scl := v }.emit (.scl v)
  | .sda v => { k with sda := v }.emit (.sda v)
  | .dly _ => k.emit .dly
  | .read _ => k.emit (.rd (readLevel live k.sda e))

/-- One line event with what follows it. -/
def Bank.perform (limit : BitVec 16) (live : Bool) (b : Nat) (k : Bank) (m : Micro) (todo : List Micro)
    (calls : List Call) (cause : Cause) : Bank :=
  let d := k.drawFor b m
  let k' := d.2.event live d.1 m
  afterEvent limit (readLevel live k'.sda d.1) todo calls cause k' m

/-- One engine step of a bank; the error is the BUF index that holds no value. -/
def Bank.engine (limit : BitVec 16) (live : Bool) (b : Nat) (k : Bank) : Except Byte Bank :=
  match k.seq with
  | .idle => .ok k
  | .run todo calls cause =>
    match nextOp k todo calls with
    | .complete => .ok (k.complete cause)
    | .uninit i => .error i
    | .perform k' m todo' calls' => .ok (k'.perform limit live b m todo' calls' cause)

/-- `n` engine steps of a bank. -/
def Bank.engineRun (limit : BitVec 16) (live : Bool) (b : Nat) : Nat → Bank → Except Byte Bank
  | 0, k => .ok k
  | n + 1, k =>
    match k.engine limit live b with
    | .ok k' => Bank.engineRun limit live b n k'
    | .error i => .error i

theorem onBank_eq {s : State} {k : Bank} (f : Bank → Bank) (h : s.banks[s.bus]? = some k) :
    onBank s f = .next (s.setBank s.bus (f k)) := by
  simp [onBank, h]

/-- `performEvent` is `Bank.perform` on the bank. -/
theorem performEvent_eq {s : State} {b : Nat} {k : Bank} (k' : Bank) (m : Micro) (todo : List Micro)
    (calls : List Call) (cause : Cause) (hb : s.banks[b]? = some k) (hbus : s.bus = b) :
    performEvent b k' m todo calls cause s =
      .next (s.setBank b (k'.perform s.params.pollLimit (s.isLive b) b m todo calls cause)) := by
  subst hbus
  have h1 : ∀ q : Bank, (s.setBank s.bus q).banks[(s.setBank s.bus q).bus]? = some q :=
    fun q => s.setBank_get s.bus k q hb
  cases m <;>
    simp only [performEvent, eventInstr, exec, execSetScl, execSetSda, execReadSda, execDelay, onBank_eq _ (h1 _),
      State.setBank_bus, State.setBank_setBank, State.setBank_isLive, Bank.perform, Bank.drawFor, Bank.event]

/-- An engine step is `Bank.engine` on the bank, and touches nothing else but the step's bank index. -/
theorem engineStep_eq {s : State} {b : Nat} {k : Bank} (hb : s.banks[b]? = some k) :
    engineStep b s =
      match k.engine s.params.pollLimit (s.isLive b) b with
      | .ok k' => .next ({ s with bus := b }.setBank b k')
      | .error i => .fault (.uninitBuf b i) := by
  simp only [engineStep, hb, Bank.engine]
  cases hseq : k.seq with
  | idle =>
    simp only
    rw [State.setBank_self]
    exact hb
  | run todo calls cause =>
    simp only
    cases hop : nextOp k todo calls with
    | complete => rfl
    | uninit i => rfl
    | perform k' m todo' calls' =>
      simp only
      rw [performEvent_eq (s := { s with bus := b }) (k := k) k' m todo' calls' cause hb rfl]
      rfl

/-- A run of one engine is `Bank.engineRun` on the bank. -/
theorem runEngine_eq {s : State} {b : Nat} {k : Bank} (n : Nat) (hb : s.banks[b]? = some k) (hbus : s.bus = b) :
    runEngine b n s =
      match k.engineRun s.params.pollLimit (s.isLive b) b n with
      | .ok k' => .next (s.setBank b k')
      | .error i => .fault (.uninitBuf b i) := by
  induction n generalizing s k with
  | zero => simp [runEngine, Bank.engineRun, State.setBank_self _ _ _ hb]
  | succ n ih =>
    have hs : ({ s with bus := b } : State) = s := by rw [← hbus]
    simp only [runEngine, Bank.engineRun, engineStep_eq hb]
    cases hk : k.engine s.params.pollLimit (s.isLive b) b with
    | error i => rfl
    | ok k' =>
      simp only [hs]
      rw [ih (s := s.setBank b k') (k := k') (s.setBank_get b k k' hb) (by simpa using hbus)]
      simp only [State.setBank_params, State.setBank_isLive, State.setBank_setBank]

theorem Bank.engineRun_add (limit : BitVec 16) (live : Bool) (b m n : Nat) (k : Bank) :
    k.engineRun limit live b (m + n) =
      match k.engineRun limit live b m with
      | .ok k' => k'.engineRun limit live b n
      | .error i => .error i := by
  induction m generalizing k with
  | zero => simp [Bank.engineRun]
  | succ m ih =>
    rw [Nat.add_right_comm]
    simp only [Bank.engineRun]
    cases k.engine limit live b with
    | error i => rfl
    | ok k' => exact ih k'

end Sys2Proof.Machine
end

