-- ==== Sys2Proof/Laws/Runs.lean ====
section
/-! SUPPORT. What a run of one engine does over one procedure call (41_signals.md, 42_byte_transfer.md): one lemma per
procedure, each from the bank about to begin the call to the bank about to go on after it. -/

namespace Sys2Proof.Machine

/-- The bank with the environment moved on by `n` answers. -/
def Bank.drawn (b : Nat) (k : Bank) (n : Nat) : Bank :=
  { k with answers := (afterAnswers b k n).answers, draws := (afterAnswers b k n).draws }

theorem drawAnswer_bank (b : Nat) (k : Bank) : (drawAnswer b k).2 = k.drawn b 1 := by
  cases k with
  | mk _ _ _ _ _ _ _ _ _ _ _ _ _ _ _ _ _ a _ => cases a <;> rfl

/-- The environment sees only its own two fields. -/
theorem drawAnswer_congr (b : Nat) {k k' : Bank} (ha : k.answers = k'.answers) (hd : k.draws = k'.draws) :
    (drawAnswer b k).1 = (drawAnswer b k').1 ∧ (drawAnswer b k).2.answers = (drawAnswer b k').2.answers ∧
      (drawAnswer b k).2.draws = (drawAnswer b k').2.draws := by
  simp only [drawAnswer, ha]
  cases k'.answers <;> simp [hd]

theorem afterAnswers_congr (b n : Nat) {k k' : Bank} (ha : k.answers = k'.answers) (hd : k.draws = k'.draws) :
    (afterAnswers b k n).answers = (afterAnswers b k' n).answers ∧
      (afterAnswers b k n).draws = (afterAnswers b k' n).draws := by
  induction n generalizing k k' with
  | zero => exact ⟨ha, hd⟩
  | succ n ih =>
    obtain ⟨-, h2, h3⟩ := drawAnswer_congr b ha hd
    exact ih h2 h3

theorem answersNext_congr (b : Nat) (l : List Bool) {k k' : Bank} (ha : k.answers = k'.answers)
    (hd : k.draws = k'.draws) : answersNext b k l ↔ answersNext b k' l := by
  induction l generalizing k k' with
  | nil => simp [answersNext]
  | cons e es ih =>
    obtain ⟨h1, h2, h3⟩ := drawAnswer_congr b ha hd
    simp only [answersNext, h1, ih h2 h3]

theorem answersNext_of {b : Nat} {l : List Bool} {k k' : Bank} (h : answersNext b k l) (ha : k.answers = k'.answers)
    (hd : k.draws = k'.draws) : answersNext b k' l := (answersNext_congr b l ha hd).mp h

@[simp] theorem Bank.drawn_zero (b : Nat) (k : Bank) : k.drawn b 0 = k := rfl

theorem afterAnswers_add (b m n : Nat) (k : Bank) :
    afterAnswers b k (m + n) = afterAnswers b (afterAnswers b k m) n := by
  induction m generalizing k with
  | zero => simp [afterAnswers]
  | succ m ih => rw [Nat.add_right_comm]; exact ih _

theorem Bank.drawn_drawn (b m n : Nat) (k : Bank) : (k.drawn b m).drawn b n = k.drawn b (m + n) := by
  have h := afterAnswers_congr b n (k := k.drawn b m) (k' := afterAnswers b k m) rfl rfl
  simp only [Bank.drawn, afterAnswers_add] at h ⊢
  rw [h.1, h.2]

theorem answersNext_append (b : Nat) (l₁ l₂ : List Bool) (k : Bank) :
    answersNext b k (l₁ ++ l₂) ↔ answersNext b k l₁ ∧ answersNext b (k.drawn b l₁.length) l₂ := by
  induction l₁ generalizing k with
  | nil => simp [answersNext]
  | cons e es ih =>
    simp only [List.cons_append, answersNext, ih, List.length_cons, drawAnswer_bank, Bank.drawn_drawn,
      Nat.add_comm 1, and_assoc]

/-! Runs without reads. -/

/-- The event of a `Micro` that is no read. -/
def Micro.ev : Micro → Ev
  | .scl v => .scl v
  | .sda v => .sda v
  | .dly _ => .dly
  | .read _ => .rd true

/-- The bank after a line event that is no read and stores nothing, but for the trace and the sequencer. -/
def Bank.plain (k : Bank) : Micro → Bank
  | .scl v => { k with scl := v }
  | .sda v => { k with sda := v }
  | .dly .nextBit => { k with bc := k.bc + 1 }
  | .dly _ => k
  | .read _ => k

/-- Neither a read nor a store. -/
def Micro.isPlain : Micro → Bool
  | .read _ => false
  | .dly .storeBuf => false
  | .dly .storeRx => false
  | .dly _ => true
  | .scl _ => true
  | .sda _ => true

section
variable {limit : BitVec 16} {live : Bool} {b : Nat} {k : Bank} {todo : List Micro} {calls : List Call} {cause : Cause}

theorem engineRun_cons {m : Micro} (n : Nat) (h : k.seq = .run (m :: todo) calls cause) :
    k.engineRun limit live b (n + 1) = (k.perform limit live b m todo calls cause).engineRun limit live b n := by
  simp [Bank.engineRun, Bank.engine, h, nextOp]

/-- What follows an event sets the sequencer and does not look at it. -/
theorem afterEvent_seq (r : Bool) (q : Bank) (sq : Seq) (m : Micro) :
    afterEvent limit r todo calls cause { q with seq := sq } m = afterEvent limit r todo calls cause q m := by
  rcases m with v | v | fx | u
  · rfl
  · rfl
  · cases fx <;> rfl
  · cases u
    · rfl
    · simp only [afterEvent, afterPoll]

theorem drawFor_seq (q : Bank) (sq : Seq) (m : Micro) :
    Bank.drawFor b { q with seq := sq } m = ((q.drawFor b m).1, { (q.drawFor b m).2 with seq := sq }) := by
  rcases m with v | v | fx | u
  · rfl
  · rfl
  · rfl
  · simp only [Bank.drawFor, drawAnswer]
    cases q.answers <;> rfl

theorem event_seq (live e : Bool) (q : Bank) (sq : Seq) (m : Micro) :
    Bank.event live e { q with seq := sq } m = { q.event live e m with seq := sq } := by
  cases m <;> rfl

theorem perform_seq (q : Bank) (sq : Seq) (m : Micro) :
    Bank.perform limit live b { q with seq := sq } m todo calls cause = q.perform limit live b m todo calls cause := by
  simp only [Bank.perform, drawFor_seq, event_seq, afterEvent_seq]

/-- A call begins with its first event, in one step (20_memory.md R71). -/
theorem engineRun_begin {c : Call} {k' : Bank} {e : Events} (n : Nat) (h : k.seq = .run [] (c :: calls) cause)
    (hc : beginCall k c = .ok (k', e)) :
    k.engineRun limit live b (n + 1) =
      ({ k' with seq := .run (e.first :: e.rest) calls cause } : Bank).engineRun limit live b (n + 1) := by
  have h2 : k.engine limit live b = .ok (k'.perform limit live b e.first e.rest calls cause) := by
    simp only [Bank.engine, h, nextOp, hc]
  have h1 := engineRun_cons (limit := limit) (live := live) (b := b) (calls := calls) (cause := cause) (todo := e.rest)
    (m := e.first) (k := { k' with seq := .run (e.first :: e.rest) calls cause }) n rfl
  rw [h1, perform_seq]
  simp only [Bank.engineRun, h2]

theorem perform_plain {m : Micro} (hm : m.isPlain = true) :
    k.perform limit live b m todo calls cause =
      { k.plain m with trace := k.trace ++ [m.ev], seq := .run todo calls cause } := by
  rcases m with v | v | fx | u
  · rfl
  · rfl
  · cases fx <;> first | rfl | cases hm
  · cases hm

/-- The bank after events that are neither reads nor stores, but for the trace and the sequencer. -/
def Bank.plains (k : Bank) : List Micro → Bank
  | [] => k
  | m :: ms => (k.plain m).plains ms

theorem plain_frame (q : Bank) (t : List Ev) (sq : Seq) (m : Micro) :
    Bank.plain { q with trace := t, seq := sq } m = { q.plain m with trace := t, seq := sq } := by
  rcases m with v | v | fx | u
  · rfl
  · rfl
  · cases fx <;> rfl
  · rfl

theorem plains_frame (ms : List Micro) (q : Bank) (t : List Ev) (sq : Seq) :
    Bank.plains { q with trace := t, seq := sq } ms = { q.plains ms with trace := t, seq := sq } := by
  induction ms generalizing q with
  | nil => rfl
  | cons m ms ih => simp only [Bank.plains, plain_frame, ih]

/-- A run over events that are neither reads nor stores. -/
theorem engineRun_plain (ms : List Micro) (hms : ∀ m ∈ ms, m.isPlain = true)
    (h : k.seq = .run (ms ++ todo) calls cause) :
    k.engineRun limit live b ms.length =
      .ok { k.plains ms with trace := k.trace ++ ms.map Micro.ev, seq := .run todo calls cause } := by
  induction ms generalizing k with
  | nil =>
    cases k
    simp only [List.nil_append] at h
    subst h
    simp only [Bank.engineRun, Bank.plains, List.length_nil, List.map_nil, List.append_nil]
  | cons m ms ih =>
    rw [List.length_cons, engineRun_cons _ h, perform_plain (hms m List.mem_cons_self),
      ih (fun x hx => hms x (List.mem_cons_of_mem _ hx)) rfl, plains_frame]
    simp only [Bank.plains, List.map_cons, List.append_assoc, List.singleton_append]

/-- A run over a whole call whose events are neither reads nor stores. -/
theorem engineRun_plainCall {c : Call} {k' : Bank} {e : Events} (h : k.seq = .run [] (c :: calls) cause)
    (hc : beginCall k c = .ok (k', e)) (hp : ∀ m ∈ e.first :: e.rest, m.isPlain = true) :
    k.engineRun limit live b (e.rest.length + 1) =
      .ok { k'.plains (e.first :: e.rest) with
              trace := k'.trace ++ (e.first :: e.rest).map Micro.ev, seq := .run [] calls cause } := by
  rw [engineRun_begin _ h hc]
  have h0 := engineRun_plain (limit := limit) (live := live) (b := b) (todo := []) (calls := calls) (cause := cause)
    (k := { k' with seq := .run (e.first :: e.rest) calls cause }) (e.first :: e.rest) hp (by simp only [List.append_nil])
  have hf := plains_frame (e.first :: e.rest) k' k'.trace (.run (e.first :: e.rest) calls cause)
  rw [List.length_cons] at h0
  rw [h0]
  exact congrArg Except.ok (by rw [show ({ k' with seq := .run (e.first :: e.rest) calls cause } : Bank) =
    { k' with trace := k'.trace, seq := .run (e.first :: e.rest) calls cause } from rfl, hf])

/-- START (41_signals.md R130). -/
theorem engineRun_start (h : k.seq = .run [] (.start :: calls) cause) :
    k.engineRun limit live b 7 =
      .ok { k with scl := false, sda := false, trace := k.trace ++ startTrace, seq := .run [] calls cause } :=
  engineRun_plainCall h rfl (by decide)

/-- STOP (41_signals.md R132). -/
theorem engineRun_stop (h : k.seq = .run [] (.stop false :: calls) cause) :
    k.engineRun limit live b 7 =
      .ok { k with scl := true, sda := true, trace := k.trace ++ stopTrace, seq := .run [] calls cause } :=
  engineRun_plainCall h rfl (by decide)

/-- READ_REG's STOP, with which RXDATA takes the received byte (43_transactions.md R189). -/
theorem engineRun_stopRx (h : k.seq = .run [] (.stop true :: calls) cause) :
    k.engineRun limit live b 7 =
      .ok { k with
              scl := true, sda := true, rxdata := k.sr, trace := k.trace ++ stopTrace,
              seq := .run [] calls cause } := by
  have h6 : Bank.engineRun limit live b 6
      { k with seq := .run ((stopEvents .storeRx).first :: (stopEvents .storeRx).rest) calls cause } = _ :=
    engineRun_plain (todo := [.dly .storeRx]) (calls := calls) (cause := cause)
      [.scl false, .sda false, wait, .scl true, wait, .sda true] (by decide) rfl
  rw [engineRun_begin 6 h rfl, show (6 + 1 : Nat) = 6 + 1 from rfl, Bank.engineRun_add]
  simp only [if_true, h6]
  rw [engineRun_cons 0 rfl]
  simp only [Bank.engineRun, Bank.perform, Bank.drawFor, Bank.event, Bank.emit, afterEvent, Bank.plains, Bank.plain,
    stopTrace, wait, Micro.ev, List.map, List.append_assoc, List.cons_append, List.nil_append]

/-- ACK (41_signals.md R134). -/
theorem engineRun_ack (h : k.seq = .run [] (.ack :: calls) cause) :
    k.engineRun limit live b 7 =
      .ok { k with scl := false, sda := true, trace := k.trace ++ ackTrace, seq := .run [] calls cause } :=
  engineRun_plainCall h rfl (by decide)

/-- NACK (41_signals.md R135). -/
theorem engineRun_nack (h : k.seq = .run [] (.nack :: calls) cause) :
    k.engineRun limit live b 4 =
      .ok { k with scl := false, trace := k.trace ++ nackTrace, seq := .run [] calls cause } :=
  engineRun_plainCall h rfl (by decide)

theorem sendEvents_ev (x : Byte) :
    ((sendEvents x).first :: (sendEvents x).rest).map Micro.ev = sendTrace x := rfl

theorem sendEvents_plain (x : Byte) : ∀ m ∈ (sendEvents x).first :: (sendEvents x).rest, m.isPlain = true := by
  simp [sendEvents, sendClock, sendBit, wait, Micro.isPlain]

/-- SEND of a byte taken from the latch (42_byte_transfer.md R160). -/
theorem engineRun_send {src : Src} {x : Byte} (h : k.seq = .run [] (.send src :: calls) cause)
    (hc : beginCall k (.send src) = .ok ({ k with bc := 0 }, sendEvents x)) :
    k.engineRun limit live b 40 =
      .ok { k with
              scl := false, sda := x.getLsbD 0, bc := 8, trace := k.trace ++ sendTrace x, seq := .run [] calls cause } :=
  engineRun_plainCall h hc (sendEvents_plain x)

/-- SEND of a BUF byte (42_byte_transfer.md R160, 43_transactions.md R186). -/
theorem engineRun_sendBuf {i x : Byte} (h : k.seq = .run [] (.send (.buf i) :: calls) cause)
    (hx : Memory.read k.buf i.toNat = some x) :
    k.engineRun limit live b 40 =
      .ok { k with
              scl := false, sda := x.getLsbD 0, bc := 8, idx := i.setWidth 16, trace := k.trace ++ sendTrace x,
              seq := .run [] calls cause } := by
  have hc : beginCall k (.send (.buf i)) = .ok ({ k with bc := 0, idx := i.setWidth 16 }, sendEvents x) := by
    simp [beginCall, sendByte, hx]
  exact engineRun_plainCall h hc (sendEvents_plain x)

/-- SEND of a BUF byte that holds no value stops (20_memory.md R64). -/
theorem engine_sendBuf_uninit {i : Byte} (h : k.seq = .run [] (.send (.buf i) :: calls) cause)
    (hx : Memory.read k.buf i.toNat = none) : k.engine limit live b = .error i := by
  simp [Bank.engine, h, nextOp, beginCall, sendByte, hx]

/-! Reads. -/

theorem readLevel_released (live e : Bool) : readLevel live true e = e := by
  cases live <;> simp [readLevel]

/-- The environment does not see the poll counter, the trace and the sequencer. -/
theorem drawn_frame (n : Nat) (p : BitVec 16) (t : List Ev) (sq : Seq) :
    Bank.drawn b { k with pcnt := p, trace := t, seq := sq } n =
      { k.drawn b n with pcnt := p, trace := t, seq := sq } := by
  have h := afterAnswers_congr b n (k := { k with pcnt := p, trace := t, seq := sq }) (k' := k) rfl rfl
  simp only [Bank.drawn, h.1, h.2]

/-- A poll that reads high below the limit (41_signals.md R140, R141). -/
theorem perform_pollHigh (hsda : k.sda = true) (ha : (drawAnswer b k).1 = true) (hp : k.pcnt + 1 ≠ limit) :
    k.perform limit live b (.read .poll) todo calls cause =
      { k.drawn b 1 with
          pcnt := k.pcnt + 1, trace := k.trace ++ [.rd true], seq := .run (.read .poll :: todo) calls cause } := by
  have h1 : (k.drawn b 1).sda = true := hsda
  have h2 : (k.drawn b 1).pcnt + 1 ≠ limit := hp
  simp only [Bank.perform, Bank.drawFor, drawAnswer_bank, ha, Bank.event, Bank.emit, afterEvent, afterPoll, h1,
    readLevel_released, if_true, h2, if_false]
  rfl

/-- A poll that reads high at the limit: the command unwinds to STOP (41_signals.md R140, 43_transactions.md R185). -/
theorem perform_pollLimit (hsda : k.sda = true) (ha : (drawAnswer b k).1 = true) (hp : k.pcnt + 1 = limit) :
    k.perform limit live b (.read .poll) todo calls cause =
      { k.drawn b 1 with
          pcnt := k.pcnt + 1, trace := k.trace ++ [.rd true],
          seq := .run ((stopEvents .none).first :: (stopEvents .none).rest) [] .ackTimeout } := by
  have h1 : (k.drawn b 1).sda = true := hsda
  have h2 : (k.drawn b 1).pcnt + 1 = limit := hp
  simp only [Bank.perform, Bank.drawFor, drawAnswer_bank, ha, Bank.event, Bank.emit, afterEvent, afterPoll, h1,
    readLevel_released, if_true, h2]
  subst hp
  rfl

/-- A poll that reads low (41_signals.md R140). -/
theorem perform_pollLow (hsda : k.sda = true) (ha : (drawAnswer b k).1 = false) :
    k.perform limit live b (.read .poll) todo calls cause =
      { k.drawn b 1 with
          pcnt := k.pcnt, trace := k.trace ++ [.rd false], seq := .run (ackedEvents ++ todo) calls cause } := by
  have h1 : (k.drawn b 1).sda = true := hsda
  simp only [Bank.perform, Bank.drawFor, drawAnswer_bank, ha, Bank.event, Bank.emit, afterEvent, afterPoll, h1,
    readLevel_released, Bool.false_eq_true, if_false]
  rfl

theorem pcnt_succ {p : BitVec 16} (h : p.toNat + 1 < limit.toNat) : (p + 1).toNat = p.toNat + 1 ∧ p + 1 ≠ limit := by
  have hl := limit.isLt
  have h1 : (p + 1).toNat = p.toNat + 1 := by
    rw [BitVec.toNat_add]
    show (p.toNat + 1) % 65536 = _
    omega
  exact ⟨h1, fun he => by rw [he] at h1; omega⟩

theorem pcnt_add_succ (p : BitVec 16) (j : Nat) : p + 1 + BitVec.ofNat 16 j = p + BitVec.ofNat 16 (j + 1) := by
  apply BitVec.eq_of_toNat_eq
  simp only [BitVec.toNat_add, BitVec.toNat_ofNat]
  show ((p.toNat + 1) % 65536 + j % 65536) % 65536 = (p.toNat + (j + 1) % 65536) % 65536
  omega

/-- ACKWAIT's polls, acknowledged after `j` high reads (41_signals.md R141). -/
theorem engineRun_polls (j : Nat) (h : k.seq = .run (.read .poll :: todo) calls cause) (hsda : k.sda = true)
    (ha : answersNext b k (ackedAnswers j)) (hj : k.pcnt.toNat + j < limit.toNat) :
    k.engineRun limit live b (j + 1) =
      .ok { k.drawn b (j + 1) with
              pcnt := k.pcnt + BitVec.ofNat 16 j
              trace := k.trace ++ (List.replicate j (.rd true) ++ [.rd false])
              seq := .run (ackedEvents ++ todo) calls cause } := by
  induction j generalizing k with
  | zero =>
    rw [engineRun_cons 0 h, perform_pollLow hsda ha.1]
    simp only [Bank.engineRun, List.replicate_zero, List.nil_append, BitVec.add_zero]
  | succ j ih =>
    obtain ⟨h1, h2⟩ : (drawAnswer b k).1 = true ∧ answersNext b (k.drawn b 1) (ackedAnswers j) := by
      rw [← drawAnswer_bank]
      exact ha
    obtain ⟨hp, hp'⟩ := pcnt_succ (limit := limit) (p := k.pcnt) (by omega)
    rw [engineRun_cons _ h, perform_pollHigh hsda h1 hp']
    have := ih (k := { k.drawn b 1 with
          pcnt := k.pcnt + 1, trace := k.trace ++ [.rd true], seq := .run (.read .poll :: todo) calls cause })
      rfl hsda (answersNext_of h2 rfl rfl) (by show (k.pcnt + 1).toNat + j < _; omega)
    rw [this, drawn_frame, Bank.drawn_drawn, Nat.add_comm 1 (j + 1)]
    simp only [pcnt_add_succ, List.append_assoc, List.replicate_succ, List.cons_append, List.nil_append]

/-- ACKWAIT's polls, all high up to the limit (41_signals.md R141). -/
theorem engineRun_pollsTimeout (j : Nat) (h : k.seq = .run (.read .poll :: todo) calls cause) (hsda : k.sda = true)
    (ha : answersNext b k (List.replicate (j + 1) true)) (hj : k.pcnt.toNat + (j + 1) = limit.toNat) :
    k.engineRun limit live b (j + 1) =
      .ok { k.drawn b (j + 1) with
              pcnt := limit
              trace := k.trace ++ List.replicate (j + 1) (.rd true)
              seq := .run ((stopEvents .none).first :: (stopEvents .none).rest) [] .ackTimeout } := by
  induction j generalizing k with
  | zero =>
    have hp : k.pcnt + 1 = limit := by
      apply BitVec.eq_of_toNat_eq
      have hl := limit.isLt
      rw [BitVec.toNat_add]
      show (k.pcnt.toNat + 1) % 65536 = _
      omega
    rw [engineRun_cons 0 h, perform_pollLimit hsda ha.1 hp]
    simp only [Bank.engineRun, hp, List.replicate]
  | succ j ih =>
    obtain ⟨h1, h2⟩ : (drawAnswer b k).1 = true ∧ answersNext b (k.drawn b 1) (List.replicate (j + 1) true) := by
      rw [← drawAnswer_bank]
      exact ha
    obtain ⟨hp, hp'⟩ := pcnt_succ (limit := limit) (p := k.pcnt) (by omega)
    rw [engineRun_cons _ h, perform_pollHigh hsda h1 hp']
    have := ih (k := { k.drawn b 1 with
          pcnt := k.pcnt + 1, trace := k.trace ++ [.rd true], seq := .run (.read .poll :: todo) calls cause })
      rfl hsda (answersNext_of h2 rfl rfl) (by show (k.pcnt + 1).toNat + (j + 1) = _; omega)
    rw [this, drawn_frame, Bank.drawn_drawn, Nat.add_comm 1 (j + 1)]
    simp only [List.append_assoc, List.replicate_succ, List.cons_append, List.nil_append]

/-- ACKWAIT acknowledged after `j` high reads (41_signals.md R140). -/
theorem engineRun_acked (j : Nat) (h : k.seq = .run [] (.ackwait :: calls) cause)
    (ha : answersNext b k (ackedAnswers j)) (hj : j < limit.toNat) :
    k.engineRun limit live b (j + 7) =
      .ok { k.drawn b (j + 1) with
              scl := false, sda := true, pcnt := BitVec.ofNat 16 j, trace := k.trace ++ ackedTrace j,
              seq := .run [] calls cause } := by
  have h4 : Bank.engineRun limit live b 4
      { k with pcnt := 0, seq := .run (ackwaitEvents.first :: ackwaitEvents.rest) calls cause } =
        .ok { k with
                scl := true, sda := true, pcnt := 0, trace := k.trace ++ [.sda true, .dly, .scl true, .dly],
                seq := .run [.read .poll] calls cause } :=
    engineRun_plain (todo := [.read .poll]) (calls := calls) (cause := cause)
      [.sda true, wait, .scl true, wait] (by decide) rfl
  rw [show j + 7 = (j + 6) + 1 from rfl, engineRun_begin (j + 6) h rfl,
    show (j + 6) + 1 = 4 + ((j + 1) + 2) by omega, Bank.engineRun_add]
  simp only [h4]
  have hq := engineRun_polls (limit := limit) (live := live) (b := b) (todo := []) (calls := calls) (cause := cause)
    (k := { k with
      scl := true, sda := true, pcnt := 0, trace := k.trace ++ [.sda true, .dly, .scl true, .dly],
      seq := .run [.read .poll] calls cause }) j rfl rfl (answersNext_of ha rfl rfl)
    (by show (0 : BitVec 16).toNat + j < _; simpa using hj)
  rw [Bank.engineRun_add, hq]
  have hp := engineRun_plain (limit := limit) (live := live) (b := b) (todo := []) (calls := calls) (cause := cause)
    (k := { k.drawn b (j + 1) with
      scl := true, sda := true, pcnt := 0 + BitVec.ofNat 16 j
      trace := k.trace ++ [.sda true, .dly, .scl true, .dly] ++ (List.replicate j (.rd true) ++ [.rd false])
      seq := .run (ackedEvents ++ []) calls cause }) ackedEvents (by decide) rfl
  have hd := afterAnswers_congr b (j + 1)
    (k := { k with
      scl := true, sda := true, pcnt := 0, trace := k.trace ++ [.sda true, .dly, .scl true, .dly],
      seq := .run [.read .poll] calls cause }) (k' := k) rfl rfl
  simp only [Bank.drawn, hd.1, hd.2] at hp ⊢
  refine hp.trans ?_
  simp only [Bank.plains, Bank.plain, wait, Micro.ev, List.map, ackedEvents, ackedTrace, List.append_assoc,
    List.cons_append, List.nil_append, BitVec.ofNat_eq_ofNat, BitVec.zero_add]

/-- ACKWAIT timed out (41_signals.md R140, R143, 43_transactions.md R185): whatever calls were left are dropped. -/
theorem engineRun_timeout (h : k.seq = .run [] (.ackwait :: calls) cause) (hl : limit ≠ 0)
    (ha : answersNext b k (List.replicate limit.toNat true)) :
    k.engineRun limit live b (limit.toNat + 11) =
      .ok { k.drawn b limit.toNat with
              scl := true, sda := true, pcnt := limit, trace := k.trace ++ timeoutTrace limit.toNat,
              seq := .run [] [] .ackTimeout } := by
  obtain ⟨j, hj⟩ : ∃ j, limit.toNat = j + 1 := by
    cases hn : limit.toNat with
    | zero => exact absurd (BitVec.eq_of_toNat_eq hn) hl
    | succ j => exact ⟨j, rfl⟩
  have h4 : Bank.engineRun limit live b 4
      { k with pcnt := 0, seq := .run (ackwaitEvents.first :: ackwaitEvents.rest) calls cause } =
        .ok { k with
                scl := true, sda := true, pcnt := 0, trace := k.trace ++ [.sda true, .dly, .scl true, .dly],
                seq := .run [.read .poll] calls cause } :=
    engineRun_plain (todo := [.read .poll]) (calls := calls) (cause := cause)
      [.sda true, wait, .scl true, wait] (by decide) rfl
  rw [hj] at ha ⊢
  rw [show j + 1 + 11 = (j + 11) + 1 from rfl, engineRun_begin (j + 11) h rfl,
    show (j + 11) + 1 = 4 + ((j + 1) + 7) by omega, Bank.engineRun_add]
  simp only [h4]
  have hq := engineRun_pollsTimeout (limit := limit) (live := live) (b := b) (todo := []) (calls := calls)
    (cause := cause)
    (k := { k with
      scl := true, sda := true, pcnt := 0, trace := k.trace ++ [.sda true, .dly, .scl true, .dly],
      seq := .run [.read .poll] calls cause }) j rfl rfl (answersNext_of ha rfl rfl)
    (by show (0 : BitVec 16).toNat + (j + 1) = _; simpa using hj.symm)
  rw [Bank.engineRun_add, hq]
  have hp := engineRun_plain (limit := limit) (live := live) (b := b) (todo := []) (calls := [])
    (cause := Cause.ackTimeout)
    (k := { k.drawn b (j + 1) with
      scl := true, sda := true, pcnt := limit
      trace := k.trace ++ [.sda true, .dly, .scl true, .dly] ++ List.replicate (j + 1) (.rd true)
      seq := .run ((stopEvents .none).first :: (stopEvents .none).rest) [] .ackTimeout })
    ((stopEvents .none).first :: (stopEvents .none).rest) (by decide) (by simp only [List.append_nil])
  have hd := afterAnswers_congr b (j + 1)
    (k := { k with
      scl := true, sda := true, pcnt := 0, trace := k.trace ++ [.sda true, .dly, .scl true, .dly],
      seq := .run [.read .poll] calls cause }) (k' := k) rfl rfl
  simp only [Bank.drawn, hd.1, hd.2] at hp ⊢
  refine hp.trans ?_
  simp only [Bank.plains, Bank.plain, wait, Micro.ev, List.map, stopEvents, timeoutTrace, stopTrace,
    List.append_assoc, List.cons_append, List.nil_append]

/-- RECV's register after samples that read `l`, the first one first (42_byte_transfer.md R162). -/
def shiftsIn (sr : Byte) (l : List Bool) : Byte := l.foldl shiftIn sr

/-- After eight samples nothing is left of what the register held (42_byte_transfer.md R163): bit 7 is the first. -/
theorem shiftsIn_byteBits (sr v : Byte) : shiftsIn sr (byteBits v) = v := by
  apply BitVec.eq_of_getLsbD_eq
  intro i hi
  have hcases : i = 0 ∨ i = 1 ∨ i = 2 ∨ i = 3 ∨ i = 4 ∨ i = 5 ∨ i = 6 ∨ i = 7 := by omega
  rcases hcases with rfl | rfl | rfl | rfl | rfl | rfl | rfl | rfl <;>
    simp [shiftsIn, byteBits, shiftIn]

/-- One bit of RECV (42_byte_transfer.md R162). -/
theorem engineRun_recvBit (h : k.seq = .run (.scl false :: (recvClock ++ todo)) calls cause) :
    k.engineRun limit live b 5 =
      .ok { k.drawn b 1 with
              scl := true, sr := shiftIn k.sr (readLevel live k.sda (drawAnswer b k).1), bc := k.bc + 1
              trace := k.trace ++
                [.scl false, .dly, .scl true, .rd (readLevel live k.sda (drawAnswer b k).1), .dly]
              seq := .run todo calls cause } := by
  have h3 : k.engineRun limit live b 3 =
      .ok { k with
              scl := true, trace := k.trace ++ [.scl false, .dly, .scl true]
              seq := .run (.read .sample :: .dly .nextBit :: todo) calls cause } :=
    engineRun_plain (todo := .read .sample :: .dly .nextBit :: todo) [.scl false, wait, .scl true] (by decide) h
  rw [show (5 : Nat) = 3 + 2 from rfl, Bank.engineRun_add, h3]
  simp only
  have hd := drawAnswer_congr b (k := { k with
              scl := true, trace := k.trace ++ [.scl false, .dly, .scl true]
              seq := .run (.read .sample :: .dly .nextBit :: todo) calls cause }) (k' := k) rfl rfl
  rw [engineRun_cons 1 rfl]
  simp only [Bank.perform, Bank.drawFor, hd.1, afterEvent, Bank.event, Bank.emit]
  rw [drawAnswer_bank] at hd ⊢
  rw [drawAnswer_bank] at hd
  simp only [Bank.drawn] at hd ⊢
  rw [engineRun_cons 0 rfl, hd.2.1, hd.2.2]
  simp only [Bank.engineRun, Bank.perform, Bank.drawFor, afterEvent, Bank.event, Bank.emit, List.append_assoc,
    List.cons_append, List.nil_append]

/-- The bits of RECV for the answers `l` (42_byte_transfer.md R162). -/
theorem engineRun_recvBits (l : List Bool)
    (h : k.seq = .run ((List.replicate l.length (.scl false :: recvClock)).flatten ++ todo) calls cause)
    (ha : answersNext b k l) (hscl : l = [] → k.scl = true) :
    k.engineRun limit live b (5 * l.length) =
      .ok { k.drawn b l.length with
              scl := true, sr := shiftsIn k.sr (l.map (readLevel live k.sda)), bc := k.bc + BitVec.ofNat 4 l.length
              trace := k.trace ++
                (l.map (readLevel live k.sda)).flatMap (fun r => [.scl false, .dly, .scl true, .rd r, .dly])
              seq := .run todo calls cause } := by
  induction l generalizing k with
  | nil =>
    have := hscl rfl
    cases k
    simp only at this
    subst this
    simp only [List.length_nil, List.replicate_zero, List.flatten_nil, List.nil_append] at h
    subst h
    simp [Bank.engineRun, shiftsIn]
  | cons e l ih =>
    obtain ⟨h1, h2⟩ : (drawAnswer b k).1 = e ∧ answersNext b (k.drawn b 1) l := by
      rw [← drawAnswer_bank]
      exact ha
    have h5 := engineRun_recvBit (limit := limit) (live := live) (b := b) (k := k)
      (todo := (List.replicate l.length (.scl false :: recvClock)).flatten ++ todo) (calls := calls) (cause := cause)
      (by rw [h]; simp [List.replicate_succ])
    rw [h1] at h5
    rw [List.length_cons, show 5 * (l.length + 1) = 5 + 5 * l.length by omega, Bank.engineRun_add, h5]
    simp only
    have hi := ih (k := { k.drawn b 1 with
              scl := true, sr := shiftIn k.sr (readLevel live k.sda e), bc := k.bc + 1
              trace := k.trace ++ [.scl false, .dly, .scl true, .rd (readLevel live k.sda e), .dly]
              seq := .run ((List.replicate l.length (.scl false :: recvClock)).flatten ++ todo) calls cause })
      rfl (answersNext_of h2 rfl rfl) (fun _ => rfl)
    have hd := afterAnswers_congr b l.length (k := { k.drawn b 1 with
              scl := true, sr := shiftIn k.sr (readLevel live k.sda e), bc := k.bc + 1
              trace := k.trace ++ [.scl false, .dly, .scl true, .rd (readLevel live k.sda e), .dly]
              seq := .run ((List.replicate l.length (.scl false :: recvClock)).flatten ++ todo) calls cause })
      (k' := k.drawn b 1) rfl rfl
    have hdd := Bank.drawn_drawn b 1 l.length k
    have hbc : k.bc + 1 + BitVec.ofNat 4 l.length = k.bc + BitVec.ofNat 4 (l.length + 1) := by
      apply BitVec.eq_of_toNat_eq
      simp only [BitVec.toNat_add, BitVec.toNat_ofNat]
      show ((k.bc.toNat + 1) % 16 + l.length % 16) % 16 = (k.bc.toNat + (l.length + 1) % 16) % 16
      omega
    have ha' := congrArg Bank.answers hdd
    have hd' := congrArg Bank.draws hdd
    simp only [Bank.drawn] at hi hd ha' hd' ⊢
    rw [hi, hd.1, hd.2, ha', hd']
    simp only [Nat.add_comm 1 l.length, hbc, List.map_cons, List.flatMap_cons, shiftsIn, List.foldl_cons,
      List.append_assoc, List.cons_append, List.nil_append]

/-- RECV up to its last DELAY, from the bank as the call's counters are set (42_byte_transfer.md R162): `v` is the byte
received. -/
theorem engineRun_recvBody {fx : Fx} {l : List Bool} {v : Byte}
    (h : k.seq = .run ((recvEvents fx).first :: (recvEvents fx).rest) calls cause) (ha : answersNext b k l)
    (hv : byteBits v = l.map (readLevel live k.sda)) :
    k.engineRun limit live b 41 =
      .ok { k.drawn b 8 with
              scl := false, sr := v, bc := k.bc + 8
              trace := k.trace ++ ((byteBits v).flatMap (fun r => [.scl false, .dly, .scl true, .rd r, .dly]) ++
                [.scl false])
              seq := .run [.dly fx] calls cause } := by
  have hl : l.length = 8 := by simpa [byteBits] using (congrArg List.length hv).symm
  have h40 := engineRun_recvBits (limit := limit) (live := live) (b := b) (k := k) (todo := [.scl false, .dly fx])
    (calls := calls) (cause := cause) l (by rw [h, hl]; rfl) ha (by intro h0; simp [h0] at hl)
  rw [hl, ← hv] at h40
  rw [show (41 : Nat) = 5 * 8 + 1 from rfl, Bank.engineRun_add, h40]
  simp only
  rw [engineRun_cons 0 rfl]
  simp only [Bank.engineRun, Bank.perform, Bank.drawFor, afterEvent, Bank.event, Bank.emit, shiftsIn_byteBits,
    List.append_assoc]
  rfl

/-- RECV whose byte stays in `sr` (43_transactions.md R189). -/
theorem engineRun_recvKeep {l : List Bool} {v : Byte} (h : k.seq = .run [] (.recv .keep :: calls) cause)
    (ha : answersNext b k l) (hv : byteBits v = l.map (readLevel live k.sda)) :
    k.engineRun limit live b 42 =
      .ok { k.drawn b 8 with
              scl := false, sr := v, bc := 8, trace := k.trace ++ recvTrace v, seq := .run [] calls cause } := by
  have h41 := engineRun_recvBody (limit := limit) (live := live) (b := b) (calls := calls) (cause := cause)
    (fx := .none) (k := { k with bc := 0, seq := .run ((recvEvents .none).first :: (recvEvents .none).rest) calls cause })
    rfl (answersNext_of ha rfl rfl) hv
  have hd := afterAnswers_congr b 8 (k := { k with
    bc := 0, seq := .run ((recvEvents .none).first :: (recvEvents .none).rest) calls cause }) (k' := k) rfl rfl
  rw [engineRun_begin 41 h rfl, Bank.engineRun_add, h41]
  simp only
  rw [engineRun_cons 0 rfl]
  simp only [Bank.engineRun, Bank.perform, Bank.drawFor, afterEvent, Bank.event, Bank.emit, Bank.drawn, hd.1, hd.2,
    recvTrace, List.append_assoc, List.cons_append, List.nil_append]
  rfl

/-- RECV whose byte goes to RXDATA (42_byte_transfer.md R162). -/
theorem engineRun_recvRx {l : List Bool} {v : Byte} (h : k.seq = .run [] (.recv .rx :: calls) cause)
    (ha : answersNext b k l) (hv : byteBits v = l.map (readLevel live k.sda)) :
    k.engineRun limit live b 42 =
      .ok { k.drawn b 8 with
              scl := false, sr := v, bc := 8, rxdata := v, trace := k.trace ++ recvTrace v
              seq := .run [] calls cause } := by
  have h41 := engineRun_recvBody (limit := limit) (live := live) (b := b) (calls := calls) (cause := cause)
    (fx := .storeRx)
    (k := { k with bc := 0, seq := .run ((recvEvents .storeRx).first :: (recvEvents .storeRx).rest) calls cause })
    rfl (answersNext_of ha rfl rfl) hv
  have hd := afterAnswers_congr b 8 (k := { k with
    bc := 0, seq := .run ((recvEvents .storeRx).first :: (recvEvents .storeRx).rest) calls cause }) (k' := k) rfl rfl
  rw [engineRun_begin 41 h rfl, Bank.engineRun_add, h41]
  simp only
  rw [engineRun_cons 0 rfl]
  simp only [Bank.engineRun, Bank.perform, Bank.drawFor, afterEvent, Bank.event, Bank.emit, Bank.drawn, hd.1, hd.2,
    recvTrace, List.append_assoc, List.cons_append, List.nil_append]
  rfl

/-- RECV whose byte goes to BUF[i] (43_transactions.md R187, R191). -/
theorem engineRun_recvBuf {i : Byte} {l : List Bool} {v : Byte} (h : k.seq = .run [] (.recv (.buf i) :: calls) cause)
    (ha : answersNext b k l) (hv : byteBits v = l.map (readLevel live k.sda)) :
    k.engineRun limit live b 42 =
      .ok { k.drawn b 8 with
              scl := false, sr := v, bc := 8, idx := i.setWidth 16, buf := Memory.write k.buf i.toNat v
              trace := k.trace ++ recvTrace v, seq := .run [] calls cause } := by
  have h41 := engineRun_recvBody (limit := limit) (live := live) (b := b) (calls := calls) (cause := cause)
    (fx := .storeBuf)
    (k := { k with
      bc := 0, idx := i.setWidth 16
      seq := .run ((recvEvents .storeBuf).first :: (recvEvents .storeBuf).rest) calls cause })
    rfl (answersNext_of ha rfl rfl) hv
  have hd := afterAnswers_congr b 8 (k := { k with
    bc := 0, idx := i.setWidth 16
    seq := .run ((recvEvents .storeBuf).first :: (recvEvents .storeBuf).rest) calls cause }) (k' := k) rfl rfl
  have hi : ((i.setWidth 16).setWidth 8).toNat = i.toNat := by simp
  rw [engineRun_begin 41 h rfl, Bank.engineRun_add, h41]
  simp only
  rw [engineRun_cons 0 rfl]
  simp only [Bank.engineRun, Bank.perform, Bank.drawFor, afterEvent, Bank.event, Bank.emit, Bank.drawn, hd.1, hd.2,
    recvTrace, List.append_assoc, List.cons_append, List.nil_append, hi]
  rfl

/-- The completion step (43_transactions.md R182). -/
theorem engineRun_complete (h : k.seq = .run [] [] cause) :
    k.engineRun limit live b 1 = .ok (k.complete cause) := by
  simp [Bank.engineRun, Bank.engine, h, nextOp]

end

end Sys2Proof.Machine
end

