-- ==== Sys2Proof/Laws/Calls.lean ====
section
/-! SUPPORT. The calls of a command one after another: `Reaches` says where a run over some calls has brought a bank, and
one lemma per call, and per loop of calls, carries it on. -/

namespace Sys2Proof.Machine

/-- `n` engine steps over whole calls, with `r` reads and the events `evs`, bring bank `k` to `k'`, with the calls
`calls` left and the outputs at `scl` and `sda`; STATUS, LEN, BUF, RXDATA and the latch are as before. -/
structure Reaches (limit : BitVec 16) (live : Bool) (b : Nat) (k : Bank) (n r : Nat) (evs : List Ev) (scl sda : Bool)
    (calls : List Call) (k' : Bank) : Prop where
  run : k.engineRun limit live b n = .ok k'
  seq : k'.seq = .run [] calls .none
  scl_eq : k'.scl = scl
  sda_eq : k'.sda = sda
  trace : k'.trace = k.trace ++ evs
  answers : k'.answers = (k.drawn b r).answers
  draws : k'.draws = (k.drawn b r).draws
  status : k'.status = k.status
  len : k'.len = k.len
  buf : k'.buf = k.buf
  rxdata : k'.rxdata = k.rxdata
  latAddr : k'.latAddr = k.latAddr
  latReg : k'.latReg = k.latReg
  latData : k'.latData = k.latData

/-- `n` engine steps with `r` reads bring bank `k` to its command's end, where it shows `v`. -/
structure EndsAs (limit : BitVec 16) (live : Bool) (b : Nat) (k : Bank) (n r : Nat) (v : BankView) (k' : Bank) :
    Prop where
  run : k.engineRun limit live b n = .ok k'
  seq : k'.seq = .idle
  view : k'.view = v
  answers : k'.answers = (k.drawn b r).answers
  draws : k'.draws = (k.drawn b r).draws

section
variable {limit : BitVec 16} {live : Bool} {b : Nat} {k k₁ k₂ : Bank} {calls calls₂ : List Call} {n n₂ r r₂ : Nat}
  {evs evs₂ : List Ev} {scl sda scl₂ sda₂ : Bool}

/-- The environment after `r` reads answers what it answers a bank that has made them. -/
theorem answersNext_after {l : List Bool} (h : answersNext b (k.drawn b r) l)
    (ha : k₁.answers = (k.drawn b r).answers) (hd : k₁.draws = (k.drawn b r).draws) : answersNext b k₁ l :=
  answersNext_of h ha.symm hd.symm

/-- The environment's answers to an ACKWAIT that succeeds, and the ones after it. -/
theorem answersNext_acked {j : Nat} {l : List Bool} (h : answersNext b k (ackedAnswers j ++ l)) :
    answersNext b k (ackedAnswers j) ∧ answersNext b (k.drawn b (j + 1)) l := by
  have hl : (ackedAnswers j).length = j + 1 := by simp [ackedAnswers]
  simpa only [hl] using (answersNext_append b _ _ k).mp h

/-- Reads before and reads after, together. -/
theorem drawn_after (ha : k₁.answers = (k.drawn b r).answers) (hd : k₁.draws = (k.drawn b r).draws) (m : Nat) :
    (k₁.drawn b m).answers = (k.drawn b (r + m)).answers ∧ (k₁.drawn b m).draws = (k.drawn b (r + m)).draws := by
  rw [← Bank.drawn_drawn]
  exact afterAnswers_congr b m (k := k₁) (k' := k.drawn b r) ha hd

theorem Reaches.trans (h₁ : Reaches limit live b k n r evs scl sda calls k₁)
    (h₂ : Reaches limit live b k₁ n₂ r₂ evs₂ scl₂ sda₂ calls₂ k₂) :
    Reaches limit live b k (n + n₂) (r + r₂) (evs ++ evs₂) scl₂ sda₂ calls₂ k₂ := by
  obtain ⟨ha, hd⟩ := drawn_after h₁.answers h₁.draws r₂
  exact
    { run := by rw [Bank.engineRun_add, h₁.run]; exact h₂.run
      seq := h₂.seq
      scl_eq := h₂.scl_eq
      sda_eq := h₂.sda_eq
      trace := by rw [h₂.trace, h₁.trace, List.append_assoc]
      answers := h₂.answers.trans ha
      draws := h₂.draws.trans hd
      status := h₂.status.trans h₁.status
      len := h₂.len.trans h₁.len
      buf := h₂.buf.trans h₁.buf
      rxdata := h₂.rxdata.trans h₁.rxdata
      latAddr := h₂.latAddr.trans h₁.latAddr
      latReg := h₂.latReg.trans h₁.latReg
      latData := h₂.latData.trans h₁.latData }

theorem reaches_start (h : k.seq = .run [] (.start :: calls) .none) :
    ∃ k', Reaches limit live b k 7 0 startTrace false false calls k' :=
  ⟨_, engineRun_start h, rfl, rfl, rfl, rfl, rfl, rfl, rfl, rfl, rfl, rfl, rfl, rfl, rfl⟩

theorem reaches_stop (h : k.seq = .run [] (.stop false :: calls) .none) :
    ∃ k', Reaches limit live b k 7 0 stopTrace true true calls k' :=
  ⟨_, engineRun_stop h, rfl, rfl, rfl, rfl, rfl, rfl, rfl, rfl, rfl, rfl, rfl, rfl, rfl⟩

theorem reaches_ack (h : k.seq = .run [] (.ack :: calls) .none) :
    ∃ k', Reaches limit live b k 7 0 ackTrace false true calls k' :=
  ⟨_, engineRun_ack h, rfl, rfl, rfl, rfl, rfl, rfl, rfl, rfl, rfl, rfl, rfl, rfl, rfl⟩

theorem reaches_nack (h : k.seq = .run [] (.nack :: calls) .none) :
    ∃ k', Reaches limit live b k 4 0 nackTrace false k.sda calls k' :=
  ⟨_, engineRun_nack h, rfl, rfl, rfl, rfl, rfl, rfl, rfl, rfl, rfl, rfl, rfl, rfl, rfl⟩

theorem reaches_acked (j : Nat) (h : k.seq = .run [] (.ackwait :: calls) .none) (ha : answersNext b k (ackedAnswers j))
    (hj : j < limit.toNat) : ∃ k', Reaches limit live b k (j + 7) (j + 1) (ackedTrace j) false true calls k' :=
  ⟨_, engineRun_acked j h ha hj, rfl, rfl, rfl, rfl, rfl, rfl, rfl, rfl, rfl, rfl, rfl, rfl, rfl⟩

theorem reaches_send {src : Src} {x : Byte} (h : k.seq = .run [] (.send src :: calls) .none)
    (hx : sendByte k src = some x) :
    ∃ k', Reaches limit live b k 40 0 (sendTrace x) false (x.getLsbD 0) calls k' := by
  rcases src with _ | _ | _ | _ | i
  case buf => exact ⟨_, engineRun_sendBuf h hx, rfl, rfl, rfl, rfl, rfl, rfl, rfl, rfl, rfl, rfl, rfl, rfl, rfl⟩
  all_goals
    cases hx
    exact ⟨_, engineRun_send h rfl, rfl, rfl, rfl, rfl, rfl, rfl, rfl, rfl, rfl, rfl, rfl, rfl, rfl⟩

/-- A byte sent and acknowledged after `j` high reads. -/
theorem Reaches.sent {src : Src} {x : Byte} {j : Nat} {l : List Bool}
    (h : Reaches limit live b k n r evs scl sda (.send src :: .ackwait :: calls) k₁) (hx : sendByte k₁ src = some x)
    (hj : j < limit.toNat) (ha : answersNext b (k.drawn b r) (ackedAnswers j ++ l)) :
    ∃ k₂, Reaches limit live b k (n + (47 + j)) (r + (j + 1)) (evs ++ (sendTrace x ++ ackedTrace j)) false true calls k₂ ∧
      answersNext b (k.drawn b (r + (j + 1))) l := by
  obtain ⟨a₁, a₂⟩ := answersNext_acked ha
  rw [Bank.drawn_drawn] at a₂
  obtain ⟨k₂, h₂⟩ := reaches_send (limit := limit) (live := live) (b := b) h.seq hx
  obtain ⟨k₃, h₃⟩ := reaches_acked (limit := limit) (live := live) j h₂.seq
    (answersNext_of (answersNext_after a₁ h.answers h.draws) h₂.answers.symm h₂.draws.symm) hj
  have h₄ := h₂.trans h₃
  rw [show 40 + (j + 7) = 47 + j by omega, Nat.zero_add] at h₄
  exact ⟨k₃, h.trans h₄, a₂⟩

/-- The first bytes of a loop and the ones after them. -/
theorem sendCalls_add (i m n : Nat) : sendCalls i (m + n) = sendCalls i m ++ sendCalls (i + m) n := by
  induction m generalizing i with
  | zero => simp [sendCalls]
  | succ m ih =>
    rw [show m + 1 + n = (m + n) + 1 by omega]
    simp [sendCalls, ih, show i + 1 + m = i + (m + 1) by omega]

/-- The loop of WRITE and WRITE_REG_MULTI from index `i`, every byte acknowledged (43_transactions.md R186, R190). -/
theorem Reaches.sends (l : List (Byte × Nat)) (i : Nat) {m : List Bool}
    (h : Reaches limit live b k n r evs false true (sendCalls i l.length ++ calls) k₁) (hi : i + l.length ≤ 256)
    (hx : Memory.holds k.buf i (l.map (·.1))) (hj : ∀ p ∈ l, p.2 < limit.toNat)
    (ha : answersNext b (k.drawn b r) (sentAnswers l ++ m)) :
    ∃ k₂, Reaches limit live b k (n + (47 * l.length + (l.map (·.2)).sum)) (r + (sentAnswers l).length)
        (evs ++ sentTrace l) false true calls k₂ ∧
      answersNext b (k.drawn b (r + (sentAnswers l).length)) m := by
  induction l generalizing n r evs k₁ i with
  | nil => exact ⟨k₁, by simpa [sentTrace, sentAnswers, sendCalls] using h, by simpa [sentAnswers] using ha⟩
  | cons p l ih =>
    obtain ⟨x, j⟩ := p
    simp only [List.length_cons] at hi
    have hi8 : (BitVec.ofNat 8 i).toNat = i := by rw [BitVec.toNat_ofNat]; omega
    have hx0 : sendByte k₁ (.buf (BitVec.ofNat 8 i)) = some x := by
      simp only [sendByte, hi8, h.buf]
      exact hx 0 (Nat.succ_pos _)
    have ha' : answersNext b (k.drawn b r) (ackedAnswers j ++ (sentAnswers l ++ m)) := by
      simpa only [sentAnswers, List.flatMap_cons, List.append_assoc] using ha
    obtain ⟨k₂, h₂, a₂⟩ := Reaches.sent (calls := sendCalls (i + 1) l.length ++ calls) h hx0
      (hj _ List.mem_cons_self) ha'
    have hx1 : Memory.holds k.buf (i + 1) (l.map (·.1)) := by
      intro q hq
      have hq' := hx (q + 1) (Nat.succ_lt_succ hq)
      rwa [show i + (q + 1) = i + 1 + q by omega] at hq'
    obtain ⟨k₃, h₃, a₃⟩ := ih (i + 1) h₂ (by omega) hx1 (fun p hp => hj p (List.mem_cons_of_mem _ hp)) a₂
    have e₁ : n + (47 + j) + (47 * l.length + (l.map (·.2)).sum) =
        n + (47 * ((x, j) :: l).length + (((x, j) :: l).map (·.2)).sum) := by
      simp only [List.length_cons, List.map_cons, List.sum_cons]
      omega
    have e₂ : r + (j + 1) + (sentAnswers l).length = r + (sentAnswers ((x, j) :: l)).length := by
      simp only [sentAnswers, List.flatMap_cons, List.length_append, ackedAnswers, List.length_replicate,
        List.length_singleton]
      omega
    rw [e₁, e₂] at h₃
    rw [e₂] at a₃
    exact ⟨k₃, by simpa only [sentTrace, List.flatMap_cons, List.append_assoc] using h₃, a₃⟩

/-- The completion step after a run. -/
theorem engineRun_thenComplete {cause : Cause} (h : k.engineRun limit live b n = .ok k₁)
    (hs : k₁.seq = .run [] [] cause) : k.engineRun limit live b (n + 1) = .ok (k₁.complete cause) := by
  rw [Bank.engineRun_add, h]
  exact engineRun_complete hs

/-- A command with no call left ends with success (43_transactions.md R182). -/
theorem Reaches.completes (h : Reaches limit live b k n r evs scl sda [] k₁) :
    ∃ k', EndsAs limit live b k (n + 1) r
      { k.view with
        scl := scl, sda := sda, status := { busy := false, fail := false, cause := .none }, trace := k.trace ++ evs }
      k' := by
  refine ⟨_, engineRun_thenComplete h.run h.seq, rfl, ?_, h.answers, h.draws⟩
  simp [Bank.view, Bank.complete, h.scl_eq, h.sda_eq, h.trace, h.len, h.rxdata, h.buf, Status.ended]

/-- A command whose ACKWAIT times out ends with ACK_TIMEOUT, whatever calls were left (43_transactions.md R185). -/
theorem Reaches.timesOut (h : Reaches limit live b k n r evs scl sda (.ackwait :: calls) k₁) (hl : limit ≠ 0)
    (ha : answersNext b (k.drawn b r) (List.replicate limit.toNat true)) :
    ∃ k', EndsAs limit live b k (n + (limit.toNat + 11) + 1) (r + limit.toNat)
      { k.view with
        scl := true, sda := true, status := { busy := false, fail := true, cause := .ackTimeout }
        trace := k.trace ++ (evs ++ timeoutTrace limit.toNat) } k' := by
  have ht := engineRun_timeout (limit := limit) (live := live) h.seq hl (answersNext_after ha h.answers h.draws)
  have hrun := Bank.engineRun_add limit live b n (limit.toNat + 11) k
  rw [h.run] at hrun
  obtain ⟨ha', hd'⟩ := drawn_after h.answers h.draws limit.toNat
  refine ⟨_, engineRun_thenComplete (hrun.trans ht) rfl, rfl, ?_, ha', hd'⟩
  simp [Bank.view, Bank.complete, Status.ended, Bank.drawn, h.trace, h.len, h.rxdata, h.buf]

/-- The loop of READ and READ_REG_MULTI from index `i`: the bytes answered are in BUF, nothing else of BUF has changed. -/
structure Receives (limit : BitVec 16) (live : Bool) (b : Nat) (k : Bank) (i : Nat) (l : List Byte)
    (calls : List Call) (k' : Bank) : Prop where
  run : k.engineRun limit live b (49 * l.length - 3) = .ok k'
  seq : k'.seq = .run [] calls .none
  trace : k'.trace = k.trace ++ receivedTrace l
  answers : k'.answers = (k.drawn b (8 * l.length)).answers
  draws : k'.draws = (k.drawn b (8 * l.length)).draws
  status : k'.status = k.status
  len : k'.len = k.len
  rxdata : k'.rxdata = k.rxdata
  buf : ∀ a, Memory.read k'.buf a =
    if h : i ≤ a ∧ a < i + l.length then some (l[a - i]'(by omega)) else Memory.read k.buf a

theorem map_readLevel_released (live : Bool) (l : List Bool) : l.map (readLevel live true) = l := by
  rw [show readLevel live true = id from funext (readLevel_released live), List.map_id]

/-- One byte received into BUF[i] (43_transactions.md R187, R191). -/
theorem engineRun_recvByte {i : Nat} {v : Byte} (hi : i < 256)
    (h : k.seq = .run [] (.recv (.buf (BitVec.ofNat 8 i)) :: calls) .none) (hsda : k.sda = true)
    (ha : answersNext b k (byteBits v)) :
    k.engineRun limit live b 42 =
      .ok { k.drawn b 8 with
              scl := false, sr := v, bc := 8, idx := (BitVec.ofNat 8 i).setWidth 16, buf := Memory.write k.buf i v
              trace := k.trace ++ recvTrace v, seq := .run [] calls .none } := by
  have h1 := engineRun_recvBuf (limit := limit) (live := live) h ha (by rw [hsda, map_readLevel_released])
  rwa [show (BitVec.ofNat 8 i).toNat = i by rw [BitVec.toNat_ofNat]; omega] at h1

theorem receives (l : List Byte) (i : Nat) (hne : l ≠ []) (hi : i + l.length ≤ 256)
    (h : k.seq = .run [] (recvCalls i l.length ++ calls) .none) (hsda : k.sda = true)
    (ha : answersNext b k (l.flatMap byteBits)) : ∃ k', Receives limit live b k i l calls k' := by
  induction l generalizing k i with
  | nil => exact absurd rfl hne
  | cons v l ih =>
    simp only [List.length_cons] at hi
    obtain ⟨a₁, a₂⟩ := (answersNext_append b (byteBits v) (l.flatMap byteBits) k).mp ha
    cases l with
    | nil =>
      have h42 := engineRun_recvByte (limit := limit) (live := live) (calls := .nack :: calls) (by omega) h hsda a₁
      have hrun := Bank.engineRun_add limit live b 42 4 k
      rw [h42] at hrun
      refine ⟨_, hrun.trans (engineRun_nack rfl), rfl, ?_, rfl, rfl, rfl, rfl, rfl, fun a => ?_⟩
      · simp [receivedTrace]
      · show Memory.read (Memory.write k.buf i v) a = _
        rw [Memory.read_write]
        by_cases hai : a = i
        · subst hai
          simp
        · rw [if_neg hai, dif_neg]
          simp only [List.length_singleton]
          omega
    | cons w l =>
      have h42 := engineRun_recvByte (limit := limit) (live := live)
        (calls := .ack :: (recvCalls (i + 1) (w :: l).length ++ calls)) (by omega) h hsda a₁
      have h49 := Bank.engineRun_add limit live b 42 7 k
      rw [h42] at h49
      replace h49 := h49.trans (engineRun_ack rfl)
      simp only at h49
      have hd := afterAnswers_congr b (8 * (w :: l).length)
        (k := { k.drawn b 8 with
                  scl := false, sda := true, sr := v, bc := 8, idx := (BitVec.ofNat 8 i).setWidth 16
                  buf := Memory.write k.buf i v, trace := k.trace ++ recvTrace v ++ ackTrace
                  seq := .run [] (recvCalls (i + 1) (w :: l).length ++ calls) .none })
        (k' := k.drawn b 8) rfl rfl
      obtain ⟨k₂, h₂⟩ := ih
        (k := { k.drawn b 8 with
                  scl := false, sda := true, sr := v, bc := 8, idx := (BitVec.ofNat 8 i).setWidth 16
                  buf := Memory.write k.buf i v, trace := k.trace ++ recvTrace v ++ ackTrace
                  seq := .run [] (recvCalls (i + 1) (w :: l).length ++ calls) .none })
        (i + 1) (List.cons_ne_nil _ _) (by omega) rfl rfl (answersNext_of a₂ rfl rfl)
      have hrun := Bank.engineRun_add limit live b (42 + 7) (49 * (w :: l).length - 3) k
      rw [h49] at hrun
      replace hrun := hrun.trans h₂.run
      have hdd := Bank.drawn_drawn b 8 (8 * (w :: l).length) k
      rw [show 42 + 7 + (49 * (w :: l).length - 3) = 49 * (v :: w :: l).length - 3 by simp only [List.length_cons]; omega]
        at hrun
      have e8 : 8 * (v :: w :: l).length = 8 + 8 * (w :: l).length := by simp only [List.length_cons]; omega
      refine ⟨k₂, hrun, h₂.seq, ?_, ?_, ?_, h₂.status, h₂.len, h₂.rxdata, fun a => ?_⟩
      · rw [h₂.trace]
        simp only [receivedTrace, List.append_assoc]
      · rw [e8, h₂.answers, ← hdd]
        exact hd.1
      · rw [e8, h₂.draws, ← hdd]
        exact hd.2
      · rw [h₂.buf a]
        show (if h : _ then _ else Memory.read (Memory.write k.buf i v) a) = _
        rw [Memory.read_write]
        by_cases hin : i + 1 ≤ a ∧ a < i + 1 + (w :: l).length
        · rw [dif_pos hin, dif_pos (by simp only [List.length_cons] at hin ⊢; omega)]
          obtain ⟨d, rfl⟩ : ∃ d, a = i + 1 + d := ⟨a - (i + 1), by omega⟩
          simp only [show i + 1 + d - (i + 1) = d by omega, show i + 1 + d - i = d + 1 by omega, List.getElem_cons_succ]
        · rw [dif_neg hin]
          by_cases hai : a = i
          · subst hai
            simp
          · rw [if_neg hai, dif_neg]
            simp only [List.length_cons] at hin ⊢
            omega

/-- A read's last bytes, its STOP and its completion step. -/
theorem Reaches.receivesAndEnds {l : List Byte} (h : Reaches limit live b k n r evs scl sda calls k₁)
    (h₂ : Receives limit live b k₁ 0 l [.stop false] k₂) :
    ∃ m k', Memory.tookBytes k.buf m l ∧
      EndsAs limit live b k (n + (49 * l.length - 3) + 7 + 1) (r + 8 * l.length)
        { k.view with
          scl := true, sda := true, status := { busy := false, fail := false, cause := .none }, buf := m
          trace := k.trace ++ (evs ++ (receivedTrace l ++ stopTrace)) } k' := by
  have h1 := Bank.engineRun_add limit live b n (49 * l.length - 3) k
  rw [h.run] at h1
  replace h1 := h1.trans h₂.run
  have h2 := Bank.engineRun_add limit live b (n + (49 * l.length - 3)) 7 k
  rw [h1] at h2
  obtain ⟨ha, hd⟩ := drawn_after h.answers h.draws (8 * l.length)
  refine ⟨k₂.buf, _, fun a => ?_, engineRun_thenComplete (h2.trans (engineRun_stop h₂.seq)) rfl, rfl, ?_,
    h₂.answers.trans ha, h₂.draws.trans hd⟩
  · rw [h₂.buf a, h.buf]
    simp
  · simp [Bank.view, Bank.complete, Status.ended, h₂.trace, h.trace, h₂.len, h.len, h₂.rxdata, h.rxdata]
end

/-- What an accepted command does, from what its engine does (43_transactions.md R180). -/
theorem exec_accepted {s : State} {k : Bank} {op : Op} {f : CmdFields} (hb : s.banks[s.bus]? = some k)
    (hbusy : k.status.busy = false) (hl : lenAccepted k.len.toNat op) :
    exec (Instr.ofOp f op) s = .next (s.setBank s.bus (k.accept op f (ruleCalls k.len.toNat op))) := by
  rw [exec_ofOp]
  simp [acceptCommand, hb, hbusy, (badLen_eq_false_iff op k.len).mpr hl]

theorem commandRuns_of_endsAs {s : State} {k k' : Bank} {op : Op} {f : CmdFields} {n r : Nat} {v : BankView}
    (hb : s.banks[s.bus]? = some k) (hbusy : k.status.busy = false) (hl : lenAccepted k.len.toNat op)
    (h : EndsAs s.params.pollLimit (s.isLive s.bus) s.bus (k.accept op f (ruleCalls k.len.toNat op)) n r v k') :
    CommandRuns s k (Instr.ofOp f op) n r v := by
  have hd := afterAnswers_congr s.bus r (k := k.accept op f (ruleCalls k.len.toNat op)) (k' := k) rfl rfl
  refine ⟨_, k', exec_accepted hb hbusy hl, ?_, h.seq, h.view, h.answers.trans hd.1, h.draws.trans hd.2⟩
  rw [runEngine_eq n (State.setBank_get _ _ _ _ hb) rfl]
  simp only [State.setBank_params, State.setBank_isLive, h.run, State.setBank_setBank]

end Sys2Proof.Machine
end

