-- ==== Sys2Proof/Laws/Invariant.lean ====
section
/-! SUPPORT. What one engine step may change of a bank, and that the pieces of a step keep `Bank.Ok` and `State.Ok`. -/

namespace Sys2Proof.Machine

section
variable {limit : BitVec 16} {live : Bool} {b : Nat} {k k' : Bank}

/-- Beginning a call writes at most the three counters. -/
theorem beginCall_frame {c : Call} {e : Events} (h : beginCall k c = .ok (k', e)) :
    ∃ bc pc ix, k' = { k with bc := bc, pcnt := pc, idx := ix } := by
  cases c with
  | send src =>
    cases src with
    | buf i =>
      simp only [beginCall] at h
      split at h
      · cases h; exact ⟨_, _, _, rfl⟩
      · cases h
    | _ => cases h; exact ⟨_, _, _, rfl⟩
  | recv dst => cases dst <;> cases h <;> exact ⟨_, _, _, rfl⟩
  | _ => cases h; exact ⟨_, _, _, rfl⟩

/-- Finding the next event writes at most the three counters. -/
theorem nextOp_frame {todo todo' : List Micro} {calls calls' : List Call} {m : Micro}
    (h : nextOp k todo calls = .perform k' m todo' calls') :
    ∃ bc pc ix, k' = { k with bc := bc, pcnt := pc, idx := ix } := by
  unfold nextOp at h
  split at h
  · cases h; exact ⟨_, _, _, rfl⟩
  · cases h
  · split at h
    · next k2 e hc => cases h; exact beginCall_frame hc
    · cases h

/-- Performing an event leaves the command running, keeps STATUS, LEN and the latched command, and writes at most the
one byte of BUF a receive writes. -/
theorem Bank.perform_frame (limit : BitVec 16) (live : Bool) (b : Nat) (k : Bank) (m : Micro) (todo : List Micro)
    (calls : List Call) (cause : Cause) :
    ∃ q, k.perform limit live b m todo calls cause = q ∧ q.status = k.status ∧ q.len = k.len ∧ q.latOp = k.latOp ∧
      (∃ t c c', q.seq = .run t c c') ∧
      (q.buf = k.buf ∨ q.buf = Memory.write k.buf (k.idx.setWidth 8).toNat k.sr) := by
  refine ⟨_, rfl, ?_⟩
  cases m with
  | scl v => exact ⟨rfl, rfl, rfl, ⟨_, _, _, rfl⟩, .inl rfl⟩
  | sda v => exact ⟨rfl, rfl, rfl, ⟨_, _, _, rfl⟩, .inl rfl⟩
  | dly fx =>
    cases fx <;> first
      | exact ⟨rfl, rfl, rfl, ⟨_, _, _, rfl⟩, .inl rfl⟩
      | exact ⟨rfl, rfl, rfl, ⟨_, _, _, rfl⟩, .inr rfl⟩
  | read u =>
    cases u with
    | sample =>
      simp only [Bank.perform, Bank.drawFor, drawAnswer_bank]
      exact ⟨rfl, rfl, rfl, ⟨_, _, _, rfl⟩, .inl rfl⟩
    | poll =>
      simp only [Bank.perform, Bank.drawFor, drawAnswer_bank, afterEvent, afterPoll]
      split
      · split <;> exact ⟨rfl, rfl, rfl, ⟨_, _, _, rfl⟩, .inl rfl⟩
      · exact ⟨rfl, rfl, rfl, ⟨_, _, _, rfl⟩, .inl rfl⟩

theorem Bank.engine_ok (h : k.engine limit live b = .ok k') (ho : k.Ok) : k'.Ok := by
  obtain ⟨h1, h2, h3, h4⟩ := ho
  unfold Bank.engine at h
  split at h
  · cases h; exact ⟨h1, h2, h3, h4⟩
  · next todo calls cause hs =>
    split at h
    · cases h
      exact ⟨h1, by simp, by simp [Bank.complete, Status.ended], by simp⟩
    · cases h
    · next k2 m t2 c2 hn =>
      cases h
      obtain ⟨bc, pc, ix, rfl⟩ := nextOp_frame hn
      obtain ⟨q, hq, e1, -, -, ⟨t, c, c', e2⟩, e3⟩ :=
        Bank.perform_frame limit live b { k with bc := bc, pcnt := pc, idx := ix } m t2 c2 cause
      rw [hq]
      have hb : k.status.busy = true := h2.mpr (by simp [hs])
      refine ⟨?_, ?_, ?_, ?_⟩
      · rcases e3 with e3 | e3
        · rw [e3]; exact h1
        · rw [e3]; exact Memory.write_wf _ (BitVec.isLt _) h1
      · rw [e1, e2]; simp [hb]
      · rw [e1]; exact h3
      · rw [e1]; exact h4

/-- The engine keeps a bank busy exactly while its sequencer runs. -/
theorem Bank.engine_busy (h : k.engine limit live b = .ok k') (ho : k.status.busy = true ↔ k.seq ≠ .idle) :
    k'.status.busy = true ↔ k'.seq ≠ .idle := by
  unfold Bank.engine at h
  split at h
  · cases h; exact ho
  · next todo calls cause hs =>
    split at h
    · cases h; simp
    · cases h
    · next k2 m t2 c2 hn =>
      cases h
      obtain ⟨bc, pc, ix, rfl⟩ := nextOp_frame hn
      obtain ⟨q, hq, e1, -, -, ⟨t, c, c', e2⟩, -⟩ :=
        Bank.perform_frame limit live b { k with bc := bc, pcnt := pc, idx := ix } m t2 c2 cause
      have hb : k.status.busy = true := ho.mpr (by simp [hs])
      rw [hq, e1, e2]
      simp [hb]

theorem Bank.engineRun_busy (n : Nat) (h : k.engineRun limit live b n = .ok k')
    (ho : k.status.busy = true ↔ k.seq ≠ .idle) : k'.status.busy = true ↔ k'.seq ≠ .idle := by
  induction n generalizing k with
  | zero => cases h; exact ho
  | succ n ih =>
    simp only [Bank.engineRun] at h
    split at h
    · next k2 hk => exact ih h (Bank.engine_busy hk ho)
    · cases h

/-- An idle engine stays as it is. -/
theorem Bank.engineRun_idle (h : k.seq = .idle) (n : Nat) : k.engineRun limit live b n = .ok k := by
  induction n with
  | zero => rfl
  | succ n ih =>
    simp only [Bank.engineRun, Bank.engine, h]
    exact ih
end

theorem State.Ok.bank {s : State} {b : Nat} {k : Bank} (h : s.Ok) (hb : s.banks[b]? = some k) : k.Ok :=
  h.banksOk k (List.mem_of_getElem? hb)

theorem State.Ok.setBank {s : State} {b : Nat} {k : Bank} (h : s.Ok) (hk : k.Ok) : (s.setBank b k).Ok := by
  refine ⟨by simpa using h.someBank, h.pollLimitPos, ?_⟩
  intro q hq
  rcases List.mem_or_eq_of_mem_set hq with h' | rfl
  · exact h.banksOk q h'
  · exact hk

theorem engineStep_keeps {s t : State} {b : Nat} (hs : s.Ok) (h : engineStep b s = .next t) :
    t.Ok ∧ t.params = s.params ∧ t.banks.length = s.banks.length := by
  cases hb : s.banks[b]? with
  | none =>
    simp only [engineStep, hb, Host.Outcome.next.injEq] at h
    subst h
    exact ⟨hs, rfl, rfl⟩
  | some k =>
    rw [engineStep_eq hb] at h
    split at h
    · next k' hk =>
      cases h
      exact ⟨State.Ok.setBank (s := { s with bus := b }) ⟨hs.1, hs.2, hs.3⟩ (Bank.engine_ok hk (hs.bank hb)), rfl,
        by simp⟩
    · cases h

/-- A word that decodes is a command with fields. -/
theorem decodeCmd_ofOp {w : Word} {i : Instr} (hd : decodeCmd w = .ok i) : ∃ f op, i = Instr.ofOp f op := by
  unfold decodeCmd at hd
  split at hd
  · split at hd
    · cases hd; exact ⟨_, _, rfl⟩
    · cases hd
  · cases hd

end Sys2Proof.Machine
end

