-- ==== Sys2Proof/Laws/Ends.lean ====
section
/-! SUPPORT. How a transaction ends whatever the environment answers: `EndsWithin` says that the rest of a run ends in so
many steps, idle, after a STOP, with one of the given lists of conditions on the wire; one lemma per call builds it from
the last call backwards. -/

namespace Sys2Proof.Machine

/-! ## The conditions on the wire -/

/-- The two output levels after some events. -/
def levelsAfter (scl sda : Bool) : List Ev → Bool × Bool
  | [] => (scl, sda)
  | .scl v :: t => levelsAfter v sda t
  | .sda v :: t => levelsAfter scl v t
  | .rd _ :: t => levelsAfter scl sda t
  | .dly :: t => levelsAfter scl sda t

theorem conditions_append (scl sda : Bool) (e₁ e₂ : List Ev) :
    conditions scl sda (e₁ ++ e₂) =
      conditions scl sda e₁ ++ conditions (levelsAfter scl sda e₁).1 (levelsAfter scl sda e₁).2 e₂ := by
  induction e₁ generalizing scl sda with
  | nil => rfl
  | cons e t ih =>
    cases e with
    | scl v => exact ih v sda
    | sda v =>
      simp only [List.cons_append, conditions, levelsAfter, ih]
      split <;> simp
    | rd v => exact ih scl sda
    | dly => exact ih scl sda

theorem levelsAfter_append (scl sda : Bool) (e₁ e₂ : List Ev) :
    levelsAfter scl sda (e₁ ++ e₂) = levelsAfter (levelsAfter scl sda e₁).1 (levelsAfter scl sda e₁).2 e₂ := by
  induction e₁ generalizing scl sda with
  | nil => rfl
  | cons e t ih => cases e <;> exact ih _ _

theorem conditions_reads (scl sda : Bool) (j : Nat) :
    conditions scl sda (List.replicate j (.rd true)) = [] ∧
      levelsAfter scl sda (List.replicate j (.rd true)) = (scl, sda) := by
  induction j with
  | zero => exact ⟨rfl, rfl⟩
  | succ j ih => exact ih

theorem conditions_start (sda : Bool) :
    conditions false sda startTrace = [false] ∧ levelsAfter false sda startTrace = (false, false) := by
  cases sda <;> exact ⟨rfl, rfl⟩

theorem conditions_send (x : Byte) (sda : Bool) :
    conditions false sda (sendTrace x) = [] ∧ levelsAfter false sda (sendTrace x) = (false, x.getLsbD 0) := by
  simp [sendTrace, byteBits, conditions, levelsAfter]

theorem conditions_acked (sda : Bool) (j : Nat) :
    conditions false sda (ackedTrace j) = [] ∧ levelsAfter false sda (ackedTrace j) = (false, true) := by
  simp [ackedTrace, conditions_append, levelsAfter_append, conditions_reads, conditions, levelsAfter]

theorem conditions_timeout (sda : Bool) (j : Nat) : conditions false sda (timeoutTrace j) = [true] := by
  simp [timeoutTrace, conditions_append, conditions_reads, conditions, stopTrace]

theorem conditions_recv (v : Byte) (sda : Bool) :
    conditions false sda (recvTrace v) = [] ∧ levelsAfter false sda (recvTrace v) = (false, sda) := by
  simp [recvTrace, byteBits, conditions, levelsAfter]

theorem conditions_ack : conditions false true ackTrace = [] ∧ levelsAfter false true ackTrace = (false, true) :=
  ⟨rfl, rfl⟩

theorem conditions_nack (sda : Bool) :
    conditions false sda nackTrace = [] ∧ levelsAfter false sda nackTrace = (false, sda) := ⟨rfl, rfl⟩

theorem conditions_stop (sda : Bool) : conditions false sda stopTrace = [true] := by cases sda <;> rfl

/-! ## What the environment can answer -/

/-- The environment acknowledges within `n` reads or answers high `n` times. -/
theorem acked_or_not (b : Nat) (k : Bank) (n : Nat) :
    (∃ j, j < n ∧ answersNext b k (ackedAnswers j)) ∨ answersNext b k (List.replicate n true) := by
  induction n generalizing k with
  | zero => exact .inr trivial
  | succ n ih =>
    cases h : (drawAnswer b k).1 with
    | false => exact .inl ⟨0, by omega, h, trivial⟩
    | true =>
      rcases ih (drawAnswer b k).2 with ⟨j, hj, hh⟩ | hh
      · exact .inl ⟨j + 1, by omega, h, hh⟩
      · exact .inr ⟨h, hh⟩

/-- The environment's next `n` answers. -/
def takeAnswers (b : Nat) : Nat → Bank → List Bool
  | 0, _ => []
  | n + 1, k => (drawAnswer b k).1 :: takeAnswers b n (drawAnswer b k).2

theorem takeAnswers_next (b n : Nat) (k : Bank) :
    answersNext b k (takeAnswers b n k) ∧ (takeAnswers b n k).length = n := by
  induction n generalizing k with
  | zero => exact ⟨trivial, rfl⟩
  | succ n ih => exact ⟨⟨rfl, (ih _).1⟩, by simp [takeAnswers, (ih _).2]⟩

/-- Eight bits are the bits of a byte. -/
theorem byteBits_surjective (l : List Bool) (h : l.length = 8) : ∃ v : Byte, byteBits v = l := by
  match l, h with
  | [x7, x6, x5, x4, x3, x2, x1, x0], _ =>
    refine ⟨BitVec.ofBool x7 ++ BitVec.ofBool x6 ++ BitVec.ofBool x5 ++ BitVec.ofBool x4 ++ BitVec.ofBool x3 ++
      BitVec.ofBool x2 ++ BitVec.ofBool x1 ++ BitVec.ofBool x0, ?_⟩
    cases x7 <;> cases x6 <;> cases x5 <;> cases x4 <;> cases x3 <;> cases x2 <;> cases x1 <;> cases x0 <;> decide

/-! ## The end of a run -/

/-- Within `bound` engine steps the run is over, whatever the environment answers, or has stopped at a byte of BUF that
holds no value. Over, the bank is idle with both outputs high, its last events are STOP's, the conditions on the wire are
one of `conds` if the levels were `known`, and a failure (only if it `mayFail`) has written neither BUF nor RXDATA. -/
def EndsWithin (limit : BitVec 16) (live : Bool) (b : Nat) (k : Bank) (bound : Nat) (known : Prop)
    (conds : List (List Bool)) (mayFail : Bool) : Prop :=
  ∃ n, n ≤ bound ∧
    ((∃ k' evs, k.engineRun limit live b n = .ok k' ∧ k'.seq = .idle ∧ k'.status.busy = false ∧ k'.scl = true ∧
        k'.sda = true ∧ k'.trace = k.trace ++ evs ∧ (∃ before, evs = before ++ stopTrace) ∧
        (known → conditions k.scl k.sda evs ∈ conds) ∧ k'.len = k.len ∧
        (k'.status.fail = true →
          mayFail = true ∧ k'.buf = k.buf ∧ k'.rxdata = k.rxdata ∧ k'.status.cause = .ackTimeout)) ∨
      ∃ i, k.engineRun limit live b n = .error i)

section
variable {limit : BitVec 16} {live : Bool} {b : Nat} {k k₁ : Bank} {calls : List Call} {n r bound : Nat}
  {evs : List Ev} {scl sda : Bool} {conds conds' : List (List Bool)}

/-- A weaker bound, more lists of conditions. -/
theorem EndsWithin.mono {bound' : Nat} {known : Prop} {mayFail : Bool}
    (h : EndsWithin limit live b k bound known conds mayFail) (hb : bound ≤ bound') (hc : ∀ c ∈ conds, c ∈ conds') :
    EndsWithin limit live b k bound' known conds' true := by
  obtain ⟨n, hn, h⟩ := h
  refine ⟨n, by omega, ?_⟩
  rcases h with ⟨k', evs, e1, e2, e3, e4, e5, e6, e7, e8, e9, e10⟩ | h
  · exact .inl ⟨k', evs, e1, e2, e3, e4, e5, e6, e7, fun p => hc _ (e8 p), e9, fun hf => ⟨rfl, (e10 hf).2⟩⟩
  · exact .inr h

/-- Calls that write no result, before the rest of a run. -/
theorem Reaches.endsWithin {known : Prop} (h : Reaches limit live b k n r evs scl sda calls k₁)
    (he : EndsWithin limit live b k₁ bound True conds true)
    (hc : known → ∀ e, conditions scl sda e ∈ conds → conditions k.scl k.sda (evs ++ e) ∈ conds') :
    EndsWithin limit live b k (n + bound) known conds' true := by
  obtain ⟨m, hm, h₂⟩ := he
  have hadd := Bank.engineRun_add limit live b n m k
  rw [h.run] at hadd
  refine ⟨n + m, by omega, ?_⟩
  rcases h₂ with ⟨k', evs₂, e1, e2, e3, e4, e5, e6, ⟨before, e7⟩, e8, e9, e10⟩ | ⟨i, hi⟩
  · refine .inl ⟨k', evs ++ evs₂, hadd.trans e1, e2, e3, e4, e5, by rw [e6, h.trace, List.append_assoc],
      ⟨evs ++ before, by rw [e7, List.append_assoc]⟩, fun p => ?_, by rw [e9, h.len], fun hf => ?_⟩
    · have := e8 trivial
      rw [h.scl_eq, h.sda_eq] at this
      exact hc p _ this
    · obtain ⟨a, b, c, d⟩ := e10 hf
      exact ⟨a, by rw [b, h.buf], by rw [c, h.rxdata], d⟩
  · exact .inr ⟨i, hadd.trans hi⟩

/-- The last STOP, with READ_REG's write of RXDATA in it or not, and the completion step. -/
theorem endsWithin_stop (rx : Bool) (h : k.seq = .run [] [.stop rx] .none) (hscl : k.scl = false) :
    EndsWithin limit live b k 8 True [[true]] false := by
  refine ⟨8, by omega, .inl ?_⟩
  cases rx with
  | false =>
    exact ⟨_, stopTrace, engineRun_thenComplete (engineRun_stop h) rfl, rfl, rfl, rfl, rfl, rfl, ⟨[], rfl⟩,
      fun _ => by rw [hscl, conditions_stop]; simp, rfl, fun hf => by simp [Bank.complete, Status.ended] at hf⟩
  | true =>
    exact ⟨_, stopTrace, engineRun_thenComplete (engineRun_stopRx h) rfl, rfl, rfl, rfl, rfl, rfl, ⟨[], rfl⟩,
      fun _ => by rw [hscl, conditions_stop]; simp, rfl, fun hf => by simp [Bank.complete, Status.ended] at hf⟩

theorem endsWithin_ackwait (hl : limit ≠ 0) (h : k.seq = .run [] (.ackwait :: calls) .none) (hscl : k.scl = false)
    (hb : 8 ≤ bound) (hc : [true] ∈ conds)
    (rest : ∀ k₁ : Bank, k₁.seq = .run [] calls .none → k₁.scl = false → k₁.sda = true →
      EndsWithin limit live b k₁ bound True conds true) :
    EndsWithin limit live b k (limit.toNat + 6 + bound) True conds true := by
  rcases acked_or_not b k limit.toNat with ⟨j, hj, ha⟩ | ha
  · obtain ⟨k₁, h₁⟩ := reaches_acked (limit := limit) (live := live) j h ha hj
    have := h₁.endsWithin (known := True) (conds' := conds) (rest k₁ h₁.seq h₁.scl_eq h₁.sda_eq) (fun _ e he => by
      rw [hscl, conditions_append, (conditions_acked _ _).1, (conditions_acked _ _).2]
      exact he)
    exact this.mono (by omega) (fun _ h => h)
  · have h₁ := engineRun_thenComplete (engineRun_timeout (live := live) h hl ha) rfl
    refine ⟨limit.toNat + 11 + 1, by omega, .inl ⟨_, timeoutTrace limit.toNat, h₁, rfl, rfl, rfl, rfl, rfl, ⟨_, rfl⟩,
      fun _ => ?_, rfl, fun _ => ⟨rfl, rfl, rfl, rfl⟩⟩⟩
    rw [hscl, conditions_timeout]
    exact hc

theorem endsWithin_send {src : Src} (h : k.seq = .run [] (.send src :: calls) .none) (hscl : k.scl = false)
    (hb : 1 ≤ bound)
    (rest : ∀ k₁ : Bank, k₁.seq = .run [] calls .none → k₁.scl = false →
      EndsWithin limit live b k₁ bound True conds true) :
    EndsWithin limit live b k (40 + bound) True conds true := by
  cases hx : sendByte k src with
  | some x =>
    obtain ⟨k₁, h₁⟩ := reaches_send (limit := limit) (live := live) (b := b) h hx
    exact h₁.endsWithin (rest k₁ h₁.seq h₁.scl_eq) (fun _ e he => by
      rw [hscl, conditions_append, (conditions_send _ _).1, (conditions_send _ _).2]
      exact he)
  | none =>
    cases src with
    | buf i =>
      refine ⟨1, by omega, .inr ⟨i, ?_⟩⟩
      simp [Bank.engineRun, engine_sendBuf_uninit h hx]
    | _ => simp [sendByte] at hx

/-- A byte sent and its ACKWAIT. -/
theorem endsWithin_sendAckwait (hl : limit ≠ 0) {src : Src} (h : k.seq = .run [] (.send src :: .ackwait :: calls) .none)
    (hscl : k.scl = false) (hb : 8 ≤ bound) (hc : [true] ∈ conds)
    (rest : ∀ k₁ : Bank, k₁.seq = .run [] calls .none → k₁.scl = false → k₁.sda = true →
      EndsWithin limit live b k₁ bound True conds true) :
    EndsWithin limit live b k (46 + limit.toNat + bound) True conds true :=
  (endsWithin_send h hscl (bound := limit.toNat + 6 + bound) (by omega)
    (fun _ h₁ h₂ => endsWithin_ackwait hl h₁ h₂ hb hc rest)).mono (by omega) (fun _ h => h)

/-- The first START, from levels that may not be known. -/
theorem endsWithin_start (h : k.seq = .run [] (.start :: calls) .none) (hc : ∀ c ∈ conds, false :: c ∈ conds')
    (rest : ∀ k₁ : Bank, k₁.seq = .run [] calls .none → k₁.scl = false →
      EndsWithin limit live b k₁ bound True conds true) :
    EndsWithin limit live b k (7 + bound) (k.scl = true ∧ k.sda = true) conds' true := by
  obtain ⟨k₁, h₁⟩ := reaches_start (limit := limit) (live := live) (b := b) h
  refine h₁.endsWithin (rest k₁ h₁.seq h₁.scl_eq) ?_
  intro ⟨p₁, p₂⟩ e he
  rw [p₁, p₂, conditions_append]
  exact hc _ he

/-- The repeated START (43_transactions.md R193). -/
theorem endsWithin_restart (h : k.seq = .run [] (.start :: calls) .none) (hscl : k.scl = false)
    (hc : ∀ c ∈ conds, false :: c ∈ conds')
    (rest : ∀ k₁ : Bank, k₁.seq = .run [] calls .none → k₁.scl = false →
      EndsWithin limit live b k₁ bound True conds true) :
    EndsWithin limit live b k (7 + bound) True conds' true := by
  obtain ⟨k₁, h₁⟩ := reaches_start (limit := limit) (live := live) (b := b) h
  refine h₁.endsWithin (rest k₁ h₁.seq h₁.scl_eq) (fun _ e he => ?_)
  rw [hscl, conditions_append, (conditions_start _).1, (conditions_start _).2]
  exact hc _ he

/-- The loop of WRITE and WRITE_REG_MULTI. -/
theorem endsWithin_sends (hl : limit ≠ 0) (m i : Nat) (h : k.seq = .run [] (sendCalls i m ++ calls) .none)
    (hscl : k.scl = false) (hb : 8 ≤ bound) (hc : [true] ∈ conds)
    (rest : ∀ k₁ : Bank, k₁.seq = .run [] calls .none → k₁.scl = false →
      EndsWithin limit live b k₁ bound True conds true) :
    EndsWithin limit live b k ((46 + limit.toNat) * m + bound) True conds true := by
  induction m generalizing k i with
  | zero => simpa using rest k h hscl
  | succ m ih =>
    have := endsWithin_sendAckwait hl (live := live) (b := b) (bound := (46 + limit.toNat) * m + bound) h hscl
      (by omega) hc (fun k₁ h₁ h₂ _ => ih (i + 1) h₁ h₂)
    exact this.mono (by rw [Nat.mul_add]; omega) (fun _ h => h)

/-- Calls of the receiving part, with no condition on the wire; BUF and RXDATA may change. -/
def Passes (limit : BitVec 16) (live : Bool) (b : Nat) (k : Bank) (n : Nat) (calls : List Call) (k₁ : Bank) : Prop :=
  ∃ evs, k.engineRun limit live b n = .ok k₁ ∧ k₁.seq = .run [] calls .none ∧ k₁.scl = false ∧ k₁.sda = k.sda ∧
    k₁.trace = k.trace ++ evs ∧ k₁.len = k.len ∧ ∀ e, conditions false k.sda (evs ++ e) = conditions false k.sda e

theorem passes_recv {dst : Dst} (h : k.seq = .run [] (.recv dst :: calls) .none) (hsda : k.sda = true) :
    ∃ k₁, Passes limit live b k 42 calls k₁ := by
  have ht := takeAnswers_next b 8 k
  obtain ⟨v, hv⟩ := byteBits_surjective (takeAnswers b 8 k) ht.2
  have hv' : byteBits v = (takeAnswers b 8 k).map (readLevel live k.sda) := by rw [hsda, map_readLevel_released, hv]
  have hc : ∀ e, conditions false k.sda (recvTrace v ++ e) = conditions false k.sda e := by
    intro e
    rw [conditions_append, (conditions_recv v _).1, (conditions_recv v _).2]
    rfl
  cases dst with
  | keep => exact ⟨_, recvTrace v, engineRun_recvKeep h ht.1 hv', rfl, rfl, rfl, rfl, rfl, hc⟩
  | rx => exact ⟨_, recvTrace v, engineRun_recvRx h ht.1 hv', rfl, rfl, rfl, rfl, rfl, hc⟩
  | buf i => exact ⟨_, recvTrace v, engineRun_recvBuf h ht.1 hv', rfl, rfl, rfl, rfl, rfl, hc⟩

theorem passes_nack (h : k.seq = .run [] (.nack :: calls) .none) : ∃ k₁, Passes limit live b k 4 calls k₁ :=
  ⟨_, nackTrace, engineRun_nack h, rfl, rfl, rfl, rfl, rfl, fun e => by
    rw [conditions_append, (conditions_nack _).1, (conditions_nack _).2]
    rfl⟩

theorem passes_ack (h : k.seq = .run [] (.ack :: calls) .none) (hsda : k.sda = true) :
    ∃ k₁, Passes limit live b k 7 calls k₁ :=
  ⟨_, ackTrace, engineRun_ack h, rfl, rfl, hsda.symm, rfl, rfl, fun e => by
    rw [hsda, conditions_append, conditions_ack.1, conditions_ack.2]
    rfl⟩

/-- A received byte before an end that cannot fail. -/
theorem Passes.endsWithin (h : Passes limit live b k n calls k₁) (hscl : k.scl = false)
    (he : EndsWithin limit live b k₁ bound True conds false) :
    EndsWithin limit live b k (n + bound) True conds false := by
  obtain ⟨evs, hrun, hseq, h1, h2, h3, h4, h5⟩ := h
  obtain ⟨m, hm, h6⟩ := he
  have hadd := Bank.engineRun_add limit live b n m k
  rw [hrun] at hadd
  refine ⟨n + m, by omega, ?_⟩
  rcases h6 with ⟨k', evs₂, e1, e2, e3, e4, e5, e6, ⟨before, e7⟩, e8, e9, e10⟩ | ⟨i, hi⟩
  · refine .inl ⟨k', evs ++ evs₂, hadd.trans e1, e2, e3, e4, e5, by rw [e6, h3, List.append_assoc],
      ⟨evs ++ before, by rw [e7, List.append_assoc]⟩, fun _ => ?_, by rw [e9, h4], fun hf => ?_⟩
    · have := e8 trivial
      rw [h1, h2] at this
      rw [hscl, h5]
      exact this
    · cases (e10 hf).1
  · exact .inr ⟨i, hadd.trans hi⟩

/-- The loop of READ and READ_REG_MULTI with the STOP after it. -/
theorem endsWithin_recvs (m i : Nat) (h : k.seq = .run [] (recvCalls i (m + 1) ++ [.stop false]) .none)
    (hscl : k.scl = false) (hsda : k.sda = true) : EndsWithin limit live b k (49 * (m + 1) + 5) True [[true]] false := by
  induction m generalizing k i with
  | zero =>
    obtain ⟨k₁, h₁⟩ := passes_recv (limit := limit) (live := live) (b := b) h hsda
    obtain ⟨_, -, s1, s2, s3, -⟩ := id h₁
    obtain ⟨k₂, h₂⟩ := passes_nack (limit := limit) (live := live) (b := b) s1
    obtain ⟨_, -, t1, t2, t3, -⟩ := id h₂
    exact h₁.endsWithin hscl (h₂.endsWithin s2 (endsWithin_stop false t1 t2))
  | succ m ih =>
    obtain ⟨k₁, h₁⟩ := passes_recv (limit := limit) (live := live) (b := b) h hsda
    obtain ⟨_, -, s1, s2, s3, -⟩ := id h₁
    obtain ⟨k₂, h₂⟩ := passes_ack (limit := limit) (live := live) (b := b) s1 (by rw [s3, hsda])
    obtain ⟨_, -, t1, t2, t3, -⟩ := id h₂
    obtain ⟨N, hN, e⟩ := h₁.endsWithin hscl (h₂.endsWithin s2 (ih (i + 1) t1 t2 (by rw [t3, s3, hsda])))
    exact ⟨N, by omega, e⟩

/-- Whichever number of steps has made the bank idle, it has ended as `EndsWithin` says. -/
theorem EndsWithin.unique {known : Prop} {m : Nat} {k' : Bank}
    (he : EndsWithin limit live b k bound known conds true) (ho : k.status.busy = true ↔ k.seq ≠ .idle)
    (hr : k.engineRun limit live b m = .ok k') (hd : k'.status.busy = false) :
    ∃ evs, k'.scl = true ∧ k'.sda = true ∧ k'.trace = k.trace ++ evs ∧ (∃ before, evs = before ++ stopTrace) ∧
      (known → conditions k.scl k.sda evs ∈ conds) ∧ k'.len = k.len ∧
      (k'.status.fail = true → k'.buf = k.buf ∧ k'.rxdata = k.rxdata ∧ k'.status.cause = .ackTimeout) := by
  have hi : k'.seq = .idle := by
    have := Bank.engineRun_busy m hr ho
    rw [hd] at this
    simpa using this
  obtain ⟨N, -, hN⟩ := he
  have hj : k.engineRun limit live b (m + N) = .ok k' := by
    rw [Bank.engineRun_add, hr]
    exact Bank.engineRun_idle hi N
  have hj₂ := Bank.engineRun_add limit live b N m k
  rw [Nat.add_comm N m, hj] at hj₂
  rcases hN with ⟨kE, evs₂, e1, e2, e3, e4, e5, e6, e7, e8, e9, e10⟩ | ⟨i, hi'⟩
  · rw [e1] at hj₂
    replace hj₂ := hj₂.trans (Bank.engineRun_idle e2 m)
    cases hj₂
    exact ⟨evs₂, e4, e5, e6, e7, e8, e9, fun hf => (e10 hf).2⟩
  · rw [hi'] at hj₂; cases hj₂
end

end Sys2Proof.Machine
end

