-- ==== Sys2Proof/Laws/PerInstr.lean ====
section
/-! SUPPORT. One law per instruction: its encoding is a word of its row of spec/opcode_table.json (30_encoding.md R82,
R87), whatever its fields hold. -/

namespace Sys2Proof

/-- A row of spec/opcode_table.json: the bits of its format, its mask and its match. -/
structure TableRow where
  nbits : Nat
  mask : Nat
  bits : Nat

/-- The row of each instruction, as the table writes it. -/
def Instr.tableRow : Instr → TableRow
  | .write _ => ⟨32, 0x000080FF, 0x00000001⟩
  | .read _ => ⟨32, 0x000080FF, 0x00000002⟩
  | .writeReg _ => ⟨32, 0x000080FF, 0x00000003⟩
  | .readReg _ => ⟨32, 0x000080FF, 0x00000004⟩
  | .writeRegMulti _ => ⟨32, 0x000080FF, 0x00000005⟩
  | .readRegMulti _ => ⟨32, 0x000080FF, 0x00000006⟩
  | .pStart _ => ⟨32, 0x000080FF, 0x00000008⟩
  | .pStop _ => ⟨32, 0x000080FF, 0x00000009⟩
  | .pAck _ => ⟨32, 0x000080FF, 0x0000000A⟩
  | .pNack _ => ⟨32, 0x000080FF, 0x0000000B⟩
  | .pAckwait _ => ⟨32, 0x000080FF, 0x0000000C⟩
  | .pSend _ => ⟨32, 0x000080FF, 0x0000000D⟩
  | .pRecv _ => ⟨32, 0x000080FF, 0x0000000E⟩
  | .setScl _ => ⟨8, 0xFB, 0x00⟩
  | .setSda _ => ⟨8, 0xFB, 0x01⟩
  | .readSda _ => ⟨8, 0xFB, 0x02⟩
  | .delay => ⟨8, 0xFF, 0x03⟩

namespace Laws.TableRow

/-- The encoding fits the row's format and matches its mask and match. -/
def Statement (i : Instr) : Prop :=
  i.nbits = i.tableRow.nbits ∧ encode i < 2 ^ i.tableRow.nbits ∧
    encode i &&& i.tableRow.mask = i.tableRow.bits

/-- A CMD word under the mask 0x000080FF is its OP (30_encoding.md R87). -/
theorem cmdWord_masked (o : Op) (f : CmdFields) : (cmdWord o f).toNat &&& 0x000080FF = o.code.toNat := by
  have fields : ∀ (d r : BitVec 8) (a : BitVec 7) (c : BitVec 4),
      (d ++ r ++ (0 : BitVec 1) ++ a ++ (0 : BitVec 4) ++ c) &&&
          ((0 : BitVec 8) ++ (0 : BitVec 8) ++ (1 : BitVec 1) ++ (0 : BitVec 7) ++ (15 : BitVec 4) ++ (15 : BitVec 4)) =
        (0 : BitVec 8) ++ (0 : BitVec 8) ++ (0 : BitVec 1) ++ (0 : BitVec 7) ++ (0 : BitVec 4) ++ c := by
    intro d r a c
    have hc : c &&& 15 = c := BitVec.and_allOnes
    have h0 : ∀ {w} (x : BitVec w), x &&& 0 = 0 := fun x => BitVec.and_zero
    rw [BitVec.and_append, BitVec.and_append, BitVec.and_append, BitVec.and_append, BitVec.and_append, hc, h0, h0, h0]
    rfl
  have h := congrArg BitVec.toNat (fields f.data f.reg f.addr o.code)
  rw [BitVec.toNat_and] at h
  refine h.trans ?_
  cases o <;> rfl

theorem write (f : CmdFields) : Statement (.write f) := ⟨rfl, (cmdWord _ _).isLt, cmdWord_masked _ _⟩
theorem read (f : CmdFields) : Statement (.read f) := ⟨rfl, (cmdWord _ _).isLt, cmdWord_masked _ _⟩
theorem writeReg (f : CmdFields) : Statement (.writeReg f) := ⟨rfl, (cmdWord _ _).isLt, cmdWord_masked _ _⟩
theorem readReg (f : CmdFields) : Statement (.readReg f) := ⟨rfl, (cmdWord _ _).isLt, cmdWord_masked _ _⟩
theorem writeRegMulti (f : CmdFields) : Statement (.writeRegMulti f) := ⟨rfl, (cmdWord _ _).isLt, cmdWord_masked _ _⟩
theorem readRegMulti (f : CmdFields) : Statement (.readRegMulti f) := ⟨rfl, (cmdWord _ _).isLt, cmdWord_masked _ _⟩
theorem pStart (f : CmdFields) : Statement (.pStart f) := ⟨rfl, (cmdWord _ _).isLt, cmdWord_masked _ _⟩
theorem pStop (f : CmdFields) : Statement (.pStop f) := ⟨rfl, (cmdWord _ _).isLt, cmdWord_masked _ _⟩
theorem pAck (f : CmdFields) : Statement (.pAck f) := ⟨rfl, (cmdWord _ _).isLt, cmdWord_masked _ _⟩
theorem pNack (f : CmdFields) : Statement (.pNack f) := ⟨rfl, (cmdWord _ _).isLt, cmdWord_masked _ _⟩
theorem pAckwait (f : CmdFields) : Statement (.pAckwait f) := ⟨rfl, (cmdWord _ _).isLt, cmdWord_masked _ _⟩
theorem pSend (f : CmdFields) : Statement (.pSend f) := ⟨rfl, (cmdWord _ _).isLt, cmdWord_masked _ _⟩
theorem pRecv (f : CmdFields) : Statement (.pRecv f) := ⟨rfl, (cmdWord _ _).isLt, cmdWord_masked _ _⟩
theorem setScl (v : Bool) : Statement (.setScl v) := by cases v <;> exact ⟨rfl, by decide, by decide⟩
theorem setSda (v : Bool) : Statement (.setSda v) := by cases v <;> exact ⟨rfl, by decide, by decide⟩
theorem readSda (v : Bool) : Statement (.readSda v) := by cases v <;> exact ⟨rfl, by decide, by decide⟩
theorem delay : Statement .delay := ⟨rfl, by decide, by decide⟩

end Laws.TableRow

end Sys2Proof
end

