-- ==== Sys2Proof/Laws/Schedule.lean ====
section
/-! SUPPORT. Who moves, and what a move of another agent leaves of a bank: what a host access and a move can do, runs over
moves placed in the inputs, the fairness of the free schedule, and where a host's wait is over. -/

namespace Sys2Proof.Machine

/-- What no move of a host or an engine changes: the parameters, the moves to come, the number of banks, the schedule. -/
structure KeepsAround (s t : State) : Prop where
  params : t.params = s.params
  inputs : t.inputs = s.inputs
  length : t.banks.length = s.banks.length
  turn : t.turn = s.turn
  pad : t.pad = s.pad

theorem KeepsAround.setBank (s : State) (b : Nat) (k : Bank) : KeepsAround s (s.setBank b k) :=
  ⟨rfl, rfl, by simp, rfl, rfl⟩

/-- A CMD write on an existing bank answers a next state, and leaves every bank that is busy as it was. -/
theorem cmdWrite_keeps (w : Word) {s : State} {k : Bank} (hb : s.banks[s.bus]? = some k) :
    ∃ t, cmdWrite w s = .next t ∧ KeepsAround s t ∧
      ∀ (c : Nat) (q : Bank), s.banks[c]? = some q → q.status.busy = true → t.banks[c]? = some q := by
  have keep : k.status.busy = false → ∀ (k' : Bank) (c : Nat) (q : Bank), s.banks[c]? = some q → q.status.busy = true →
      (s.setBank s.bus k').banks[c]? = some q := by
    intro hk k' c q hq hbusy
    rw [State.setBank_get_other _ _ _ _ (fun h => by subst h; rw [hb] at hq; cases hq; simp [hk] at hbusy), hq]
  unfold cmdWrite
  cases hd : decodeCmd w with
  | ok i =>
    obtain ⟨f, op, rfl⟩ := decodeCmd_ofOp hd
    simp only [exec_ofOp, acceptCommand, hb]
    split
    · exact ⟨_, rfl, ⟨rfl, rfl, rfl, rfl, rfl⟩, fun _ _ h _ => h⟩
    · next hk =>
      split <;> exact ⟨_, rfl, KeepsAround.setBank _ _ _, keep (by simpa using hk) _⟩
  | error r =>
    simp only [rejectIllegal, hb]
    split
    · exact ⟨_, rfl, ⟨rfl, rfl, rfl, rfl, rfl⟩, fun _ _ h _ => h⟩
    · next hk => exact ⟨_, rfl, KeepsAround.setBank _ _ _, keep (by simpa using hk) _⟩

/-- A host access answers a next state; a load leaves every bank as it was, a store every busy one (20_memory.md R60,
R63). -/
theorem hostStep_keeps (a : Access) (s : State) :
    ∃ t, hostStep a s = .next t ∧ KeepsAround s t ∧
      ∀ (c : Nat) (q : Bank), s.banks[c]? = some q → (q.status.busy = true ∨ ∃ x w, a = .load x w) → t.banks[c]? = some q := by
  have same : ∃ t, Host.Outcome.next (ρ := Refusal) (φ := Fault) s = .next t ∧ KeepsAround s t ∧
      ∀ (c : Nat) (q : Bank), s.banks[c]? = some q → (q.status.busy = true ∨ ∃ x w, a = .load x w) → t.banks[c]? = some q :=
    ⟨s, rfl, ⟨rfl, rfl, rfl, rfl, rfl⟩, fun _ _ h _ => h⟩
  cases a with
  | load x w =>
    simp only [hostStep]
    split
    · exact same
    · next b off _ =>
      split
      · exact same
      · next k _ =>
        refine ⟨_, rfl, ?_⟩
        rcases hostLoad_cases b k (accessTarget w off) { s with bus := b } with ⟨v, -, e⟩ | ⟨f, e⟩ <;> rw [e] <;>
          exact ⟨⟨rfl, rfl, rfl, rfl, rfl⟩, fun _ _ h _ => h⟩
  | store x w v =>
    simp only [hostStep]
    split
    · exact same
    · next b off _ =>
      split
      · exact same
      · next k hk =>
        split
        · obtain ⟨t, ht, h, keep⟩ := cmdWrite_keeps v (s := { s with bus := b }) hk
          exact ⟨t, ht, ⟨h.params, h.inputs, h.length, h.turn, h.pad⟩,
            fun c q hq hc => keep c q hq (hc.resolve_right (fun ⟨_, _, e⟩ => by cases e))⟩
        · refine ⟨_, rfl, ?_⟩
          rcases hostStore_cases b k (accessTarget w off) v { s with bus := b } with ⟨hbusy, k', -, e⟩ | ⟨f, e⟩ <;>
            rw [e]
          · refine ⟨⟨rfl, rfl, by simp, rfl, rfl⟩, fun c q hq hc => ?_⟩
            rw [State.setBank_get_other]
            · exact hq
            · rintro rfl
              rw [hk] at hq
              cases hq
              rcases hc with hc | ⟨_, _, e⟩
              · simp [hbusy] at hc
              · cases e
          · exact ⟨⟨rfl, rfl, rfl, rfl, rfl⟩, fun _ _ h _ => h⟩

/-- A move of an engine stops at a byte of BUF that holds no value, or steps its own bank and leaves the others. -/
theorem engineStep_moves (c : Nat) (s : State) :
    (∃ i, engineStep c s = .fault (.uninitBuf c i)) ∨
      ∃ t, engineStep c s = .next t ∧ KeepsAround s t ∧ (∀ b, b ≠ c → t.banks[b]? = s.banks[b]?) ∧
        ∀ k, s.banks[c]? = some k → ∃ k', k.engine s.params.pollLimit (s.isLive c) c = .ok k' ∧
          t.banks[c]? = some k' := by
  cases hc : s.banks[c]? with
  | none => exact .inr ⟨s, by simp [engineStep, hc], ⟨rfl, rfl, rfl, rfl, rfl⟩, fun _ _ => rfl, fun _ h => by cases h⟩
  | some k =>
    rw [engineStep_eq hc]
    cases hk : k.engine s.params.pollLimit (s.isLive c) c with
    | error i => exact .inl ⟨i, rfl⟩
    | ok k' =>
      refine .inr ⟨_, rfl, ⟨rfl, rfl, by simp, rfl, rfl⟩, fun b h => State.setBank_get_other _ _ _ _ h, ?_⟩
      intro q hq
      cases hq
      exact ⟨k', hk, State.setBank_get { s with bus := c } c k k' hc⟩

section
variable {b : Nat} {k : Bank}

/-- From bank `k`, bank `b` of `s` has made `n` engine steps and nothing else has happened to it. -/
structure Stepped (b : Nat) (k : Bank) (p : Params) (n : Nat) (s : State) : Prop where
  params : s.params = p
  bank : ∃ k', k.engineRun p.pollLimit (p.live.contains b) b n = .ok k' ∧ s.banks[b]? = some k'

/-- One more engine step of bank `b`. -/
theorem Bank.engineRun_succ {limit : BitVec 16} {live : Bool} {n : Nat} {k₁ k₂ : Bank}
    (h₁ : k.engineRun limit live b n = .ok k₁) (h₂ : k₁.engine limit live b = .ok k₂) :
    k.engineRun limit live b (n + 1) = .ok k₂ := by
  rw [Bank.engineRun_add, h₁]
  simp [Bank.engineRun, h₂]

/-- A move of engine `c` carries `Stepped` on, by one where it is bank `b`'s. -/
theorem Stepped.engineMove {p : Params} {n : Nat} {s : State} (h : Stepped b k p n s) (c : Nat) :
    (∃ i, engineStep c s = .fault (.uninitBuf c i)) ∨
      ∃ t, engineStep c s = .next t ∧ KeepsAround s t ∧ Stepped b k p (if c = b then n + 1 else n) t := by
  rcases engineStep_moves c s with hf | ⟨t, ht, ha, ho, hc⟩
  · exact .inl hf
  · refine .inr ⟨t, ht, ha, ha.params.trans h.params, ?_⟩
    obtain ⟨k₁, h₁, hb⟩ := h.bank
    by_cases hcb : c = b
    · subst hcb
      obtain ⟨k₂, h₂, hb₂⟩ := hc k₁ hb
      rw [if_pos rfl]
      rw [State.isLive, h.params] at h₂
      exact ⟨k₂, Bank.engineRun_succ h₁ h₂, hb₂⟩
    · rw [if_neg hcb]
      exact ⟨k₁, h₁, by rw [ho b (Ne.symm hcb), hb]⟩

/-- A host access carries `Stepped` on where it is a load or finds bank `b` busy. -/
theorem Stepped.hostMove {p : Params} {n : Nat} {s : State} (h : Stepped b k p n s) (a : Access)
    (hq : (∃ x w, a = .load x w) ∨ ∀ q, s.banks[b]? = some q → q.status.busy = true) :
    ∃ t, hostStep a s = .next t ∧ KeepsAround s t ∧ Stepped b k p n t := by
  obtain ⟨t, ht, ha, keep⟩ := hostStep_keeps a s
  obtain ⟨k₁, h₁, hb⟩ := h.bank
  refine ⟨t, ht, ha, ha.params.trans h.params, k₁, h₁, keep b k₁ hb ?_⟩
  rcases hq with hq | hq
  · exact .inr hq
  · exact .inl (hq k₁ hb)

/-- The machine's run over moves of engines and loads of the host: it stops at a byte of BUF that holds no value, or bank
`b` has made as many engine steps as there are moves of its engine. -/
theorem Stepped.run {p : Params} {n : Nat} {s : State} (h : Stepped b k p n s) (l : List Action) (hi : s.inputs = l)
    (hl : ∀ a ∈ l, (∃ c, a = .engine c) ∨ ∃ x w, a = .host (.load x w)) :
    (∃ c i, core.run l.length s = .fault (.uninitBuf c i)) ∨
      ∃ t, core.run l.length s = .next t ∧ t.inputs = [] ∧ Stepped b k p (n + l.count (.engine b)) t := by
  induction l generalizing s n with
  | nil => exact .inr ⟨s, rfl, hi, h⟩
  | cons a l ih =>
    have hs : Stepped b k p n { s with inputs := l } := ⟨h.params, h.bank⟩
    have hl' := fun a ha => hl a (List.mem_cons_of_mem _ ha)
    have hstep : core.step s = act a { s with inputs := l } := by
      show step s = _
      simp [step, move, hi]
    simp only [List.length_cons, Host.Core.run, hstep]
    rcases hl a List.mem_cons_self with ⟨c, rfl⟩ | ⟨x, w, rfl⟩
    · rcases hs.engineMove c with ⟨i, hf⟩ | ⟨t, ht, ha, h'⟩
      · exact .inl ⟨c, i, by simp [act, hf]⟩
      · simp only [act, ht]
        have e : n + (Action.engine c :: l).count (.engine b) =
            (if c = b then n + 1 else n) + l.count (.engine b) := by
          rw [List.count_cons]
          by_cases hcb : c = b
          · subst hcb; simp; omega
          · rw [if_neg hcb, if_neg (by simpa using hcb), Nat.add_zero]
        rw [e]
        exact ih h' ha.inputs hl'
    · obtain ⟨t, ht, ha, h'⟩ := hs.hostMove (.load x w) (.inl ⟨x, w, rfl⟩)
      simp only [act, ht]
      have e : n + (Action.host (.load x w) :: l).count (.engine b) = n + l.count (.engine b) := by
        rw [List.count_cons]
        simp
      rw [e]
      exact ih h' ha.inputs hl'
end

/-! ## The free schedule -/

/-- What a free move does to the schedule: a free one of the moves before a turn, or the turn itself. -/
theorem freeMove_cases (s : State) :
    (s.pad < Config.freeMoves s.turn ∧ (freeMove s).2 = { s with pad := s.pad + 1 }) ∨
      (Config.freeMoves s.turn ≤ s.pad ∧ freeMove s = (s.turn % s.banks.length, { s with turn := s.turn + 1, pad := 0 })) := by
  unfold freeMove
  split
  · next h => exact .inl ⟨h, rfl⟩
  · next h => exact .inr ⟨Nat.le_of_not_lt h, rfl⟩

/-- The turn that comes to bank `b` next. -/
theorem turn_comes {b n : Nat} (hb : b < n) (turn : Nat) : ∃ d, (turn + d) % n = b := by
  refine ⟨n - turn % n + b, ?_⟩
  have h : turn + (n - turn % n + b) = b + n * (turn / n + 1) := by
    have := Nat.div_add_mod turn n
    have := Nat.mod_lt turn (Nat.lt_of_le_of_lt (Nat.zero_le b) hb)
    rw [Nat.mul_add]
    omega
  rw [h, Nat.add_mul_mod_self_left, Nat.mod_eq_of_lt hb]

/-- THE FREE SCHEDULE IS FAIR (93_implementation_defined.md: "a model assumes each bank's engine eventually steps"): with no
move left in the inputs, the machine stops at a byte of BUF that holds no value, or makes another step of bank `b`'s
engine. -/
theorem Stepped.freeSchedule {b : Nat} {k : Bank} {p : Params} {n : Nat} {s : State} (h : Stepped b k p n s)
    (hi : s.inputs = []) :
    ∃ m, (∃ c i, core.run m s = .fault (.uninitBuf c i)) ∨
      ∃ t, core.run m s = .next t ∧ t.inputs = [] ∧ Stepped b k p (n + 1) t := by
  obtain ⟨k₁, -, hb⟩ := h.bank
  obtain ⟨d, hd⟩ := turn_comes (List.getElem?_eq_some_iff.mp hb).1 s.turn
  clear hb k₁
  -- one move, and the rest by the measure: turns to go, then free moves to go
  have one : ∀ (s : State), Stepped b k p n s → s.inputs = [] →
      (∃ m, (∃ c i, core.run m s = .fault (.uninitBuf c i)) ∨
        ∃ t, core.run m s = .next t ∧ t.inputs = [] ∧ Stepped b k p (n + 1) t) ∨
      ((freeMove s).1 ≠ b ∧
        ∃ t, core.step s = .next t ∧ t.inputs = [] ∧ Stepped b k p n t ∧ t.turn = (freeMove s).2.turn ∧
        t.pad = (freeMove s).2.pad ∧ t.banks.length = s.banks.length) := by
    intro s h hi
    have hs : Stepped b k p n (freeMove s).2 ∧ (freeMove s).2.inputs = [] ∧
        (freeMove s).2.banks.length = s.banks.length := by
      rcases freeMove_cases s with ⟨-, e⟩ | ⟨-, e⟩ <;> rw [e] <;> exact ⟨⟨h.params, h.bank⟩, hi, rfl⟩
    have hstep : core.step s = engineStep (freeMove s).1 (freeMove s).2 := by
      show step s = _
      simp [step, move, hi]
    have hrun : core.run 1 s = core.step s := by
      simp only [Host.Core.run]
      split <;> rename_i e <;> exact e.symm
    rcases hs.1.engineMove (freeMove s).1 with ⟨i, hf⟩ | ⟨t, ht, ha, h'⟩
    · exact .inl ⟨1, .inl ⟨_, i, hrun.trans (hstep.trans hf)⟩⟩
    · by_cases hc : (freeMove s).1 = b
      · rw [if_pos hc] at h'
        exact .inl ⟨1, .inr ⟨t, hrun.trans (hstep.trans ht), ha.inputs.trans hs.2.1, h'⟩⟩
      · rw [if_neg hc] at h'
        exact .inr ⟨hc, t, hstep.trans ht, ha.inputs.trans hs.2.1, h', ha.turn, ha.pad, ha.length.trans hs.2.2⟩
  have next : ∀ (s t : State), core.step s = .next t →
      (∃ m, (∃ c i, core.run m t = .fault (.uninitBuf c i)) ∨
        ∃ u, core.run m t = .next u ∧ u.inputs = [] ∧ Stepped b k p (n + 1) u) →
      ∃ m, (∃ c i, core.run m s = .fault (.uninitBuf c i)) ∨
        ∃ u, core.run m s = .next u ∧ u.inputs = [] ∧ Stepped b k p (n + 1) u := by
    intro s t ht ⟨m, hm⟩
    have e : core.run (m + 1) s = core.run m t := by simp only [Host.Core.run, ht]
    exact ⟨m + 1, by rw [e]; exact hm⟩
  induction d generalizing s with
  | zero =>
    generalize hg : Config.freeMoves s.turn - s.pad = g
    induction g generalizing s with
    | zero =>
      rcases one s h hi with hdone | ⟨hc, -⟩
      · exact hdone
      · rcases freeMove_cases s with ⟨hp, -⟩ | ⟨-, e⟩
        · omega
        · rw [e] at hc
          exact absurd hd hc
    | succ g ih =>
      rcases one s h hi with hdone | ⟨hc, t, ht, hti, h', hturn, hpad, hlen⟩
      · exact hdone
      · rcases freeMove_cases s with ⟨hp, e⟩ | ⟨hp, -⟩
        · rw [e] at hturn hpad
          exact next s t ht (ih h' hti (by rw [hturn, hlen]; exact hd) (by rw [hturn, hpad]; simp only; omega))
        · omega
  | succ d ihd =>
    generalize hg : Config.freeMoves s.turn - s.pad = g
    induction g generalizing s with
    | zero =>
      rcases one s h hi with hdone | ⟨hc, t, ht, hti, h', hturn, hpad, hlen⟩
      · exact hdone
      · rcases freeMove_cases s with ⟨hp, -⟩ | ⟨-, e⟩
        · omega
        · rw [e] at hturn
          refine next s t ht (ihd h' hti ?_)
          rw [hturn, hlen, show s.turn + 1 + d = s.turn + (d + 1) by omega]
          exact hd
    | succ g ih =>
      rcases one s h hi with hdone | ⟨hc, t, ht, hti, h', hturn, hpad, hlen⟩
      · exact hdone
      · rcases freeMove_cases s with ⟨hp, e⟩ | ⟨hp, -⟩
        · rw [e] at hturn hpad
          exact next s t ht (ih h' hti (by rw [hturn, hlen]; exact hd) (by rw [hturn, hpad]; simp only; omega))
        · omega

/-! ## A host's wait -/

/-- A step that answers a next state is the first of a run. -/
theorem run_first {n : Nat} {s t : State} (h : core.step s = .next t) : core.run (n + 1) s = core.run n t := by
  simp only [Host.Core.run, h]

/-- Runs add up. -/
theorem run_then {m n : Nat} {s t : State} (h : core.run m s = .next t) : core.run (m + n) s = core.run n t := by
  induction m generalizing s with
  | zero => cases h; simp
  | succ m ih =>
    rw [Nat.add_right_comm]
    simp only [Host.Core.run] at h ⊢
    split at h
    · exact ih h
    · cases h
    · cases h

/-- Under a fair sequence of moves the bank's engine comes to any number of steps, and stays there. -/
theorem FairTo.count {b : Nat} {acts : Nat → Action} (hf : FairTo b acts) (k : Nat) :
    ∃ n, ∀ m, n ≤ m → k ≤ ((List.range m).map acts).count (.engine b) := by
  have mono : ∀ n d, ((List.range n).map acts).count (.engine b) ≤
      ((List.range (n + d)).map acts).count (.engine b) := by
    intro n d
    rw [List.range_add, List.map_append, List.count_append]
    exact Nat.le_add_right _ _
  induction k with
  | zero => exact ⟨0, fun _ _ => Nat.zero_le _⟩
  | succ k ih =>
    obtain ⟨n, hn⟩ := ih
    obtain ⟨m, hm, e⟩ := hf n
    refine ⟨m + 1, fun l hl => ?_⟩
    obtain ⟨d, rfl⟩ := Nat.exists_eq_add_of_le hl
    refine Nat.le_trans ?_ (mono (m + 1) d)
    rw [List.range_succ, List.map_append, List.count_append, List.map_singleton, e, List.count_singleton_self]
    exact Nat.succ_le_succ (hn m hm)

/-- A host's wait is over where the bank is not busy (10_state.md R25). -/
theorem waitOver_of_not_busy {b : Nat} {u : State} {k : Bank} (hb : u.banks[b]? = some k)
    (hk : k.status.busy = false) : WaitOver b (.next u) := by
  refine .inl ⟨u, statusWord k.status, rfl, ?_, ?_⟩
  · rw [step_load (s := { u with inputs := .host (.load (bankAddr b 0x004) 32) :: u.inputs }) (off := 0x004) hb
      (by omega) rfl]
    simp [accessTarget, hostLoad, readableWhileBusy, loadValue, State.answerHost]
  · have h : ∀ f c, (statusWord { busy := false, fail := f, cause := c }).getLsbD 0 = false := by
      intro f c
      cases f <;> cases c <;> decide
    have e : k.status = { busy := false, fail := k.status.fail, cause := k.status.cause } := by rw [← hk]
    rw [e]
    exact h _ _

end Sys2Proof.Machine
end

