-- ==== Sys2Proof/Laws/Stops.lean ====
section
/-! SUPPORT. Which command's engine can stop at a byte of BUF that holds no value, and at which byte: the calls an engine
has left are among those its command's rule gave it, and only a receive into BUF changes BUF. -/

namespace Sys2Proof.Machine

section
variable {limit : BitVec 16} {live : Bool} {b : Nat} {k k' : Bank} {calls₀ : List Call} {buf₀ : List Host.Cell}

/-- The bank runs calls among `calls₀` and holds the bytes `buf₀` in BUF, unless one of those calls receives into BUF. -/
structure Bank.RunsCalls (calls₀ : List Call) (buf₀ : List Host.Cell) (k : Bank) : Prop where
  calls : ∀ todo calls cause, k.seq = .run todo calls cause →
    calls ⊆ calls₀ ∧ (.dly .storeBuf ∈ todo → ∃ i, .recv (.buf i) ∈ calls₀)
  buf : k.buf = buf₀ ∨ ∃ i, .recv (.buf i) ∈ calls₀

/-- Only a receive into BUF has the event that writes BUF. -/
theorem beginCall_storeBuf {c : Call} {e : Events} (h : beginCall k c = .ok (k', e))
    (hs : .dly .storeBuf ∈ e.first :: e.rest) : ∃ i, c = .recv (.buf i) := by
  cases c with
  | send src =>
    have no : ∀ x, .dly .storeBuf ∉ (sendEvents x).first :: (sendEvents x).rest := by
      intro x
      simp [sendEvents, sendClock, sendBit, wait]
    cases src with
    | buf i =>
      simp only [beginCall] at h
      split at h
      · cases h; exact absurd hs (no _)
      · cases h
    | _ => cases h; exact absurd hs (no _)
  | recv dst =>
    cases dst with
    | buf i => exact ⟨i, rfl⟩
    | _ => cases h; exact absurd hs (by decide)
  | stop rx => cases h; cases rx <;> exact absurd hs (by decide)
  | _ => cases h; exact absurd hs (by decide)

/-- An event keeps `RunsCalls`. -/
theorem Bank.perform_runsCalls {m : Micro} {todo : List Micro} {calls : List Call} (cause : Cause)
    (hc : calls ⊆ calls₀) (ht : .dly .storeBuf ∈ m :: todo → ∃ i, .recv (.buf i) ∈ calls₀)
    (hb : k.buf = buf₀ ∨ ∃ i, .recv (.buf i) ∈ calls₀) :
    (k.perform limit live b m todo calls cause).RunsCalls calls₀ buf₀ := by
  have ht' : .dly .storeBuf ∈ todo → ∃ i, .recv (.buf i) ∈ calls₀ := fun h => ht (List.mem_cons_of_mem _ h)
  cases m with
  | scl v => exact ⟨fun _ _ _ h => by cases h; exact ⟨hc, ht'⟩, hb⟩
  | sda v => exact ⟨fun _ _ _ h => by cases h; exact ⟨hc, ht'⟩, hb⟩
  | dly fx =>
    cases fx with
    | storeBuf => exact ⟨fun _ _ _ h => by cases h; exact ⟨hc, ht'⟩, .inr (ht List.mem_cons_self)⟩
    | _ => exact ⟨fun _ _ _ h => by cases h; exact ⟨hc, ht'⟩, hb⟩
  | read u =>
    cases u with
    | sample =>
      simp only [Bank.perform, Bank.drawFor, drawAnswer_bank]
      exact ⟨fun _ _ _ h => by cases h; exact ⟨hc, ht'⟩, hb⟩
    | poll =>
      simp only [Bank.perform, Bank.drawFor, drawAnswer_bank, afterEvent, afterPoll]
      split
      · split
        · exact ⟨fun _ _ _ h => by cases h; exact ⟨List.nil_subset _, fun h => absurd h (by decide)⟩, hb⟩
        · exact ⟨fun _ _ _ h => by cases h; exact ⟨hc, fun h => ht' (by simpa using h)⟩, hb⟩
      · exact ⟨fun _ _ _ h => by cases h; exact ⟨hc, fun h => ht' (by simpa [ackedEvents, wait] using h)⟩, hb⟩

/-- An engine step keeps `RunsCalls`, or stops at the byte of BUF that a call was to send. -/
theorem Bank.engine_runsCalls (h : k.RunsCalls calls₀ buf₀) :
    match k.engine limit live b with
    | .ok k' => k'.RunsCalls calls₀ buf₀
    | .error i => .send (.buf i) ∈ calls₀ ∧ (Memory.read buf₀ i.toNat = none ∨ ∃ j, .recv (.buf j) ∈ calls₀) := by
  unfold Bank.engine
  cases hs : k.seq with
  | idle => exact h
  | run todo calls cause =>
    obtain ⟨hc, ht⟩ := h.calls _ _ _ hs
    cases todo with
    | cons m todo => exact Bank.perform_runsCalls cause hc ht h.buf
    | nil =>
      cases calls with
      | nil => exact ⟨fun _ _ _ e => (by cases e), h.buf⟩
      | cons c calls =>
        have hc0 : c ∈ calls₀ := hc List.mem_cons_self
        simp only [nextOp]
        cases hb : beginCall k c with
        | ok r =>
          obtain ⟨k', e⟩ := r
          obtain ⟨_, _, _, rfl⟩ := beginCall_frame hb
          refine Bank.perform_runsCalls cause (fun _ h => hc (List.mem_cons_of_mem _ h)) (fun hm => ?_) h.buf
          obtain ⟨i, rfl⟩ := beginCall_storeBuf hb hm
          exact ⟨i, hc0⟩
        | error i =>
          cases c with
          | send src =>
            cases src with
            | buf j =>
              simp only [beginCall] at hb
              split at hb
              · cases hb
              · next hr =>
                cases hb
                exact ⟨hc0, h.buf.imp_left (fun e => by rw [← e]; exact hr)⟩
            | _ => cases hb
          | recv dst => cases dst <;> cases hb
          | _ => cases hb

/-- A run of the engine stops only at the byte of BUF that a call was to send. -/
theorem Bank.engineRun_error {n : Nat} {i : Byte} (h : k.RunsCalls calls₀ buf₀)
    (he : k.engineRun limit live b n = .error i) :
    .send (.buf i) ∈ calls₀ ∧ (Memory.read buf₀ i.toNat = none ∨ ∃ j, .recv (.buf j) ∈ calls₀) := by
  induction n generalizing k with
  | zero => cases he
  | succ n ih =>
    have hk := Bank.engine_runsCalls (limit := limit) (live := live) (b := b) h
    simp only [Bank.engineRun] at he
    split at he
    · next k' e => rw [e] at hk; exact ih hk he
    · next j e => rw [e] at hk; cases he; exact hk

/-- What the sending loop calls. -/
theorem mem_sendCalls {c : Call} {j n : Nat} (h : c ∈ sendCalls j n) :
    c = .ackwait ∨ ∃ i, j ≤ i ∧ i < j + n ∧ c = .send (.buf (BitVec.ofNat 8 i)) := by
  induction n generalizing j with
  | zero => cases h
  | succ n ih =>
    simp only [sendCalls, List.mem_cons] at h
    rcases h with rfl | rfl | h
    · exact .inr ⟨j, by omega, by omega, rfl⟩
    · exact .inl rfl
    · rcases ih h with rfl | ⟨i, h1, h2, rfl⟩
      · exact .inl rfl
      · exact .inr ⟨i, by omega, by omega, rfl⟩

/-- The receiving loop sends nothing. -/
theorem recvCalls_noSend {i : Byte} {j n : Nat} : Call.send (.buf i) ∉ recvCalls j n := by
  induction n generalizing j with
  | zero => simp [recvCalls]
  | succ n ih =>
    rw [recvCalls]
    split <;> simp [ih]

/-- A command's engine stops only in WRITE and WRITE_REG_MULTI, at a byte among BUF[0..LEN-1] that held no value when the
command was accepted (20_memory.md R64). -/
theorem Bank.accept_error {op : Op} {f : CmdFields} {n : Nat} {i : Byte} (hlen : lenAccepted k.len.toNat op)
    (he : (k.accept op f (ruleCalls k.len.toNat op)).engineRun limit live b n = .error i) :
    sendsFromBuf op = true ∧ i.toNat < k.len.toNat ∧ Memory.read k.buf i.toNat = none := by
  have h : (k.accept op f (ruleCalls k.len.toNat op)).RunsCalls (ruleCalls k.len.toNat op) k.buf :=
    ⟨fun _ _ _ e => by cases e; exact ⟨List.Subset.refl _, fun h => (by cases h)⟩, .inl rfl⟩
  obtain ⟨hi, hr⟩ := Bank.engineRun_error h he
  have sends : ∀ i : Byte, Call.send (.buf i) ∈ sendCalls 0 k.len.toNat → k.len.toNat ≤ 256 →
      i.toNat < k.len.toNat := by
    intro i h hl
    rcases mem_sendCalls h with h | ⟨j, -, hj, h⟩
    · cases h
    · cases h
      simp only [BitVec.toNat_ofNat]
      omega
  have norecv : ∀ j, Call.recv (.buf j) ∉ sendCalls 0 k.len.toNat := by
    intro j h
    rcases mem_sendCalls h with h | ⟨j, -, hj, h⟩ <;> cases h
  cases op with
  | write =>
    simp [ruleCalls, writeCalls, norecv] at hi hr
    exact ⟨rfl, sends i hi hlen, hr⟩
  | writeRegMulti =>
    simp [ruleCalls, writeRegMultiCalls, norecv] at hi hr
    exact ⟨rfl, sends i hi hlen, hr⟩
  | read => simp [ruleCalls, readCalls, recvCalls_noSend] at hi
  | readRegMulti => simp [ruleCalls, readRegMultiCalls, recvCalls_noSend] at hi
  | writeReg => simp [ruleCalls, writeRegCalls] at hi
  | readReg => simp [ruleCalls, readRegCalls] at hi
  | _ => simp [ruleCalls] at hi
end
end Sys2Proof.Machine
end

