-- ==== Sys2Proof/Tests/Slice0.lean ====
section
/-! SUPPORT. Small tests, each expected result from spec/95_test_vectors.md or worked from the rule named, and for every
obligation with hypotheses a named witness that meets them all, clause by clause at a boundary value. -/

open Sys2Proof Sys2Proof.Machine

namespace Sys2Proof.Tests

/-! ## Helpers -/

/-- Two banks, bank 0 live, the poll limit 3; bank 0 is `k`. -/
def at0 (k : Bank) : State :=
  { State.resetWith { live := [0], pollLimit := 3 } 2 with banks := [k, Bank.reset] }

/-- The same with the step in bank 1, a placeholder, which is `k`. -/
def at1 (k : Bank) : State := { at0 Bank.reset with banks := [Bank.reset, k], bus := 1 }

/-- An idle bank with LEN and BUF set. -/
def idleBank (len : BitVec 16) (buf : List Host.Cell) : Bank := { Bank.reset with len := len, buf := buf }

/-- A bank whose engine is about to make `todo`, then the calls. -/
def busyBank (todo : List Micro) (calls : List Call) : Bank :=
  { Bank.reset with status := Status.running, seq := .run todo calls .none }

/-- Bank 0's engine moves next. -/
def engineNext (k : Bank) : State := { at0 k with inputs := [.engine 0] }

/-- The host accesses bank 0 next. -/
def hostNext (k : Bank) (a : Access) : State := { at0 k with inputs := [.host a] }

/-- The state an outcome holds. -/
def stateOf : Out → Option State
  | .next s => some s
  | .fault _ => none
  | .refused _ => none

/-- Bank `b` after an outcome. -/
def bankAfter (b : Nat) (o : Out) : Option Bank := (stateOf o).bind (fun s => s.banks[b]?)

/-- STATUS, both outputs and the trace's codes of bank `b` after an outcome. -/
def shown (b : Nat) (o : Out) : Option (Word × Word × List Byte) :=
  (bankAfter b o).map (fun k => (statusWord k.status, lineWord k.scl k.sda, k.trace.map Ev.code))

/-- What the host has read and the faults it has raised after an outcome. -/
def hostSaw (o : Out) : Option (List (Option Word) × List (Nat × ModelFault)) :=
  (stateOf o).map (fun s => (s.reads, s.faults))

/-! ## Assembler operands outside their field are refused (30_encoding.md R91) -/

theorem test_asm_refuses_bus : (AsmCmd.pStart 2).wellFormed 2 = false := by decide
theorem test_asm_refuses_address : (AsmCmd.write 0 0x80).wellFormed 2 = false := by decide
theorem test_asm_refuses_register : (AsmCmd.readReg 0 0x23 0x100).wellFormed 2 = false := by decide
theorem test_asm_refuses_byte : (AsmCmd.pSend 0 0x100).wellFormed 2 = false := by decide
theorem test_asm_takes_top_values : (AsmCmd.writeReg 1 0x7F 0xFF 0xFF).wellFormed 2 = true := by decide

/-- 95_test_vectors.md section 4, command words. -/
theorem test_asm_words :
    (AsmCmd.write 0 0x23).assemble 2 = some (0, 0x00002301) ∧
      (AsmCmd.writeReg 0 0x23 0x04 0x7B).assemble 2 = some (0, 0x7B042303) ∧
      (AsmCmd.readRegMulti 0 0x23 0x10).assemble 2 = some (0, 0x00102306) ∧
      (AsmCmd.pSend 0 0xA5).assemble 2 = some (0, 0xA500000D) := by decide

/-- 95_test_vectors.md P1: the accesses of its first lines. -/
theorem test_host_operations :
    (HostOp.wrbuf 0 0 0x10).access 2 = some (.store 0x100 8 0x10) ∧
      (HostOp.setlen 0 1).access 2 = some (.store 0x008 32 1) ∧
      (HostOp.cmd (.write 0 0x23)).access 2 = some (.store 0x000 32 0x00002301) ∧
      (HostOp.rdbuf 0 1).access 2 = some (.load 0x101 8) ∧ (HostOp.rdrx 1).access 2 = some (.load 0x20C 32) ∧
      waitEnds 0x6 = true ∧ waitEnds 0x1 = false ∧ bfailTaken 0x6 = true ∧ bfailTaken 0x0 = false := by decide

/-- 30_encoding.md R93, `probe`. -/
theorem test_probe_expands :
    (Pseudo.probe 0 0x50).expand = [.setlen 0 0, .cmd (.write 0 0x50), .wait 0] := by decide

/-! ## Decoding, from words written out field by field (30_encoding.md R81: DATA REG 0 ADDR 0000 OP) -/

theorem test_decode_write :
    decodeCmd 0b00000000_00000000_0_0100011_0000_0001 = .ok (.write ⟨0x23, 0, 0⟩) := rfl
theorem test_decode_read :
    decodeCmd 0b00000000_00000000_0_1111111_0000_0010 = .ok (.read ⟨0x7F, 0, 0⟩) := rfl
theorem test_decode_writeReg :
    decodeCmd 0b01111011_00000100_0_0100011_0000_0011 = .ok (.writeReg ⟨0x23, 0x04, 0x7B⟩) := rfl
theorem test_decode_readReg :
    decodeCmd 0b00000000_11111111_0_1111111_0000_0100 = .ok (.readReg ⟨0x7F, 0xFF, 0⟩) := rfl
theorem test_decode_writeRegMulti :
    decodeCmd 0b00000000_00000001_0_1010000_0000_0101 = .ok (.writeRegMulti ⟨0x50, 0x01, 0⟩) := rfl
theorem test_decode_readRegMulti :
    decodeCmd 0b00000000_00010000_0_0100011_0000_0110 = .ok (.readRegMulti ⟨0x23, 0x10, 0⟩) := rfl
theorem test_decode_pStart :
    decodeCmd 0b11111111_11111111_0_1111111_0000_1000 = .ok (.pStart ⟨0x7F, 0xFF, 0xFF⟩) := rfl
theorem test_decode_pStop : decodeCmd 0b00000000_00000000_0_0000000_0000_1001 = .ok (.pStop ⟨0, 0, 0⟩) := rfl
theorem test_decode_pAck : decodeCmd 0b00000000_00000000_0_0000000_0000_1010 = .ok (.pAck ⟨0, 0, 0⟩) := rfl
theorem test_decode_pNack : decodeCmd 0b00000000_00000000_0_0000000_0000_1011 = .ok (.pNack ⟨0, 0, 0⟩) := rfl
theorem test_decode_pAckwait :
    decodeCmd 0b00000000_00000000_0_0000000_0000_1100 = .ok (.pAckwait ⟨0, 0, 0⟩) := rfl
theorem test_decode_pSend :
    decodeCmd 0b10100101_00000000_0_0000000_0000_1101 = .ok (.pSend ⟨0, 0, 0xA5⟩) := rfl
theorem test_decode_pRecv : decodeCmd 0b00000000_00000000_0_0000000_0000_1110 = .ok (.pRecv ⟨0, 0, 0⟩) := rfl
theorem test_decode_setScl : decodeEv 0b00000_1_00 = .ok (.setScl true) := rfl
theorem test_decode_setSda : decodeEv 0b00000_0_01 = .ok (.setSda false) := rfl
theorem test_decode_readSda : decodeEv 0b00000_1_10 = .ok (.readSda true) := rfl
theorem test_decode_delay : decodeEv 0b00000_0_11 = .ok .delay := rfl

/-- 30_encoding.md R83, R88: a reserved bit set, whatever the OP; R82: V of DELAY is 0 and RSV is 0. -/
theorem test_decode_rejects :
    decodeCmd 0x00000001 = .ok (.write ⟨0, 0, 0⟩) ∧ decodeCmd 0x00000081 = .error .reservedBits ∧
      decodeCmd 0x00008008 = .error .reservedBits ∧ decodeCmd 0x00000000 = .error .illegalOp ∧
      decodeCmd 0x00000007 = .error .illegalOp ∧ decodeCmd 0x0000000F = .error .illegalOp ∧
      decodeEv 0x07 = .error .noEvent ∧ decodeEv 0x80 = .error .reservedBits :=
  ⟨rfl, rfl, rfl, rfl, rfl, rfl, rfl, rfl⟩

/-! ## Line events (95_test_vectors.md V1 to V8) -/

theorem test_V1_setScl : shown 0 (exec (.setScl true) (at0 { Bank.reset with scl := false })) =
    some (0, 0x3, [0x04]) := by decide
theorem test_V4_setScl_not_a_transition :
    shown 0 (exec (.setScl false) (at0 { Bank.reset with scl := false, sda := false })) = some (0, 0x0, [0x00]) ∧
      transitions false false [.scl false] = 0 := by decide
theorem test_V2_setSda : shown 0 (exec (.setSda false) (at0 Bank.reset)) = some (0, 0x1, [0x01]) := by decide
theorem test_V3_delay : shown 0 (exec .delay (at0 { Bank.reset with sda := false })) = some (0, 0x1, [0x03]) := by decide
theorem test_V5_readSda_low : shown 0 (exec (.readSda false) (at0 Bank.reset)) = some (0, 0x3, [0x02]) := by decide
theorem test_V7_readSda_wiredAnd :
    shown 0 (exec (.readSda true) (at0 { Bank.reset with sda := false })) = some (0, 0x1, [0x02]) := by decide
theorem test_V8_readSda_placeholder :
    shown 1 (exec (.readSda true) (at1 { Bank.reset with sda := false })) = some (0, 0x1, [0x06]) := by decide

/-! ## The CMD write (95_test_vectors.md section 4, "Rejected at the CMD write") -/

theorem test_write_probe_accepted : shown 0 (exec (.write ⟨0x23, 0, 0⟩) (at0 Bank.reset)) = some (0x1, 0x3, []) := by
  decide
theorem test_V45d_write_too_long :
    shown 0 (exec (.write ⟨0x23, 0, 0⟩) (at0 (idleBank 0xFFFF []))) = some (0xA, 0x3, []) := by decide
theorem test_V45_read_zero_length :
    shown 0 (exec (.read ⟨0x23, 0, 0⟩) (at0 Bank.reset)) = some (0xA, 0x3, []) := by decide
theorem test_V45c_read_too_long :
    shown 0 (exec (.read ⟨0x23, 0, 0⟩) (at0 (idleBank 257 []))) = some (0xA, 0x3, []) := by decide
theorem test_V45e_writeReg_ignores_len :
    shown 0 (exec (.writeReg ⟨0x23, 0x04, 0x7B⟩) (at0 (idleBank 300 []))) = some (0x1, 0x3, []) := by decide
theorem test_readReg_latches :
    (bankAfter 0 (exec (.readReg ⟨0x23, 0x04, 0⟩) (at0 (idleBank 5 [])))).map
      (fun k => (k.latOp, k.latAddr, k.latReg, k.latLen)) = some (.readReg, 0x23, 0x04, 5) := by decide
theorem test_writeRegMulti_bound_is_inclusive :
    shown 0 (exec (.writeRegMulti ⟨0x50, 0, 0⟩) (at0 (idleBank 256 []))) = some (0x1, 0x3, []) ∧
      shown 0 (exec (.writeRegMulti ⟨0x50, 0, 0⟩) (at0 (idleBank 257 []))) = some (0xA, 0x3, []) := by decide
theorem test_V45b_readRegMulti_zero_length :
    shown 0 (exec (.readRegMulti ⟨0x23, 0x10, 0⟩) (at0 Bank.reset)) = some (0xA, 0x3, []) := by decide

/-- V55e, V55f: an illegal word is rejected, before any length check. -/
theorem test_V55f_illegal_first :
    shown 0 (step (hostNext Bank.reset (.store 0x000 32 0x000000F2))) = some (0xE, 0x3, []) ∧
      shown 0 (step (hostNext Bank.reset (.store 0x000 32 0x00008001))) = some (0xE, 0x3, []) := by decide

/-- V60: a CMD write of a busy bank is the fault BUSY_ACCESS, the command untouched. -/
theorem test_V60_busy_cmd :
    bankAfter 0 (step (hostNext (busyBank [.scl true] []) (.store 0x000 32 0x00000009))) =
        some (busyBank [.scl true] []) ∧
      hostSaw (step (hostNext (busyBank [.scl true] []) (.store 0x000 32 0x00000009))) =
        some ([], [(0, .busyAccess)]) := by decide

/-! ## Engine steps, from the sequences of 41_signals.md and 42_byte_transfer.md -/

/-- START's first event is `d1`, its second `c1` (R130). -/
theorem test_pStart_first_events :
    (bankAfter 0 (runEngine 0 2 (at0 (busyBank [] [.start])))).map (fun k => k.trace) = some [.sda true, .scl true] := by
  decide
/-- STOP's first event is `c0` (R132). -/
theorem test_pStop_first_event :
    shown 0 (step (engineNext (busyBank [] [.stop false]))) = some (0x1, 0x2, [0x00]) := by decide
/-- ACK's first event is `d0` (R134), NACK's is `c1` (R135). -/
theorem test_pAck_first_event :
    shown 0 (step (engineNext (busyBank [] [.ack]))) = some (0x1, 0x1, [0x01]) := by decide
theorem test_V13c_pNack_keeps_sda :
    shown 0 (step (engineNext { busyBank [] [.nack] with scl := false, sda := false })) = some (0x1, 0x1, [0x04]) := by
  decide
/-- V18: a low read on the last allowed poll is a success: `c0 w` follows. -/
theorem test_V18_low_on_last_poll :
    (bankAfter 0 (step (engineNext { busyBank [.read .poll] [.stop false] with pcnt := 2, answers := [false] }))).map
      (fun k => (k.seq, k.trace)) = some (.run [.scl false, .dly .none] [.stop false] .none, [.rd false]) := by decide
/-- V14: at the third high read of three, STOP follows, the calls left are dropped, the cause is ACK_TIMEOUT. -/
theorem test_V14_timeout_at_limit :
    (bankAfter 0 (step (engineNext { busyBank [.read .poll] [.send .reg] with pcnt := 2, answers := [true] }))).map
      (fun k => (k.seq, k.pcnt)) =
        some (.run [.scl false, .sda false, .dly .none, .scl true, .dly .none, .sda true, .dly .none] [] .ackTimeout, 3) := by
  decide
/-- V22, 0xA5: bit 7 is 1, so SEND's first event is `d1`; V23, 0x46: bit 7 is 0. -/
theorem test_V22_pSend_msb_first :
    shown 0 (step (engineNext { busyBank [] [.send .data] with latData := 0xA5 })) = some (0x1, 0x3, [0x05]) ∧
      shown 0 (step (engineNext { busyBank [] [.send .data] with latData := 0x46 })) = some (0x1, 0x1, [0x01]) := by
  decide
/-- RECV's first event is `c0` (R162); a sample is shifted in from the right. -/
theorem test_pRecv_shifts_left :
    (bankAfter 0 (step (engineNext { busyBank [.read .sample] [] with sr := 0b10110000, answers := [true] }))).map
      (fun k => k.sr) = some 0b01100001 := by decide
/-- V36: on a live bank with SDA driven low a sample reads 0 whatever the environment answers. -/
theorem test_V36_pRecv_sda_low :
    (bankAfter 0 (step (engineNext { busyBank [.read .sample] [] with sda := false, answers := [true] }))).map
      (fun k => (k.sr, k.trace)) = some (0, [.rd false]) := by decide
/-- 95_test_vectors.md section 4, address bytes. -/
theorem test_address_bytes :
    addrByteW 0x23 = 0x46 ∧ addrByteR 0x23 = 0x47 ∧ addrByteW 0x7F = 0xFE ∧ addrByteR 0x7F = 0xFF := by decide
/-- V66: the SEND of a byte nothing has written stops. -/
theorem test_V66_unwritten_byte : (match step (engineNext (busyBank [] [.send (.buf 1)])) with
    | .fault f => decide (f = .uninitBuf 0 1) | _ => false) = true := by decide
/-- R182: the completion step of a failure reads 0x6. -/
theorem test_completion_status :
    shown 0 (step (engineNext { busyBank [] [] with seq := .run [] [] .ackTimeout })) = some (0x6, 0x3, []) := by decide
/-- 70_reset_and_hazards.md R273: DELAY counts. -/
theorem test_delay_counts :
    delayCount startTrace = 3 ∧ delayCount stopTrace = 3 ∧ delayCount ackTrace = 3 ∧ delayCount nackTrace = 2 ∧
      delayCount (ackedTrace 2) = 3 ∧ delayCount (timeoutTrace 3) = 5 ∧ delayCount (sendTrace 0xA5) = 16 ∧
      delayCount (recvTrace 0x7B) = 17 ∧ sclHighCount (sendTrace 0xA5) = 8 := by decide

/-! ## Host accesses (95_test_vectors.md V61 to V68 and "Memory packing") -/

theorem test_V61_status_while_busy :
    hostSaw (step (hostNext (busyBank [wait] []) (.load 0x004 32))) = some ([some 0x1], []) := by decide
theorem test_V62_line_during_start :
    hostSaw (step (hostNext { busyBank [wait] [] with sda := false } (.load 0x010 32))) = some ([some 0x1], []) := by decide
theorem test_V63_narrow_register :
    hostSaw (step (hostNext Bank.reset (.load 0x004 8))) = some ([none], [(0, .badAccess)]) := by decide
theorem test_V64_misaligned :
    hostSaw (step (hostNext Bank.reset (.load 0x102 32))) = some ([none], [(0, .badAccess)]) := by decide
theorem test_V65_unmapped :
    hostSaw (step (hostNext Bank.reset (.store 0x020 32 0))) = some ([], [(0, .badAccess)]) := by decide
theorem test_V67_status_write_ignored :
    stateOf (step (hostNext Bank.reset (.store 0x004 32 0xFFFFFFFF))) = some (at0 Bank.reset) := by decide
theorem test_V68_cmd_reads_zero :
    hostSaw (step (hostNext Bank.reset (.load 0x000 32))) = some ([some 0], []) := by decide
theorem test_word_store_is_little_endian :
    (bankAfter 0 (step (hostNext Bank.reset (.store 0x100 32 0x44332211)))).map (fun k => k.buf) =
      some [(0, 0x11), (1, 0x22), (2, 0x33), (3, 0x44)] := by decide
theorem test_word_load_is_little_endian :
    hostSaw (step (hostNext (idleBank 0 [(4, 0x01), (5, 0xAB), (6, 0x03), (7, 0x04)]) (.load 0x104 32))) =
      some ([some 0x0403AB01], []) := by decide
theorem test_unwritten_byte_has_no_value :
    hostSaw (step (hostNext Bank.reset (.load 0x100 8))) = some ([none], [(0, .uninitBuf)]) := by decide

/-! ## A program comes to run (log 10) -/

/-- A row of each format, as the first instruction after reset. -/
theorem test_first_instruction :
    shown 0 (step (State.reset.withFetchWord 32 0x00000008)) = some (0x1, 0x3, []) ∧
      shown 0 (step (State.reset.withFetchWord 8 0x01)) = some (0x1, 0x1, [0x01]) ∧
      shown 0 (step (State.reset.withFetchWord 8 0x06)) = some (0x1, 0x3, [0x06]) := by decide

/-! ## Witnesses: for each obligation with hypotheses, operands and a state that meet them -/

/-- Whether the environment answers `l` next. -/
def answersB (b : Nat) : Bank → List Bool → Bool
  | _, [] => true
  | k, e :: es => decide ((drawAnswer b k).1 = e) && answersB b (drawAnswer b k).2 es

theorem answers_of {b : Nat} {k : Bank} {l : List Bool} (h : answersB b k l = true) : answersNext b k l := by
  induction l generalizing k with
  | nil => trivial
  | cons e es ih =>
    simp only [answersB, Bool.and_eq_true, decide_eq_true_eq] at h
    exact ⟨h.1, ih h.2⟩

/-- Bank 0 is idle with the answers `l` waiting. -/
def answering (l : List Bool) : Bank := { Bank.reset with answers := l }

theorem witness_EncodeOfDecodedCommand : ∃ w i, decodeCmd w = .ok i := ⟨0x7B042303, _, rfl⟩

theorem witness_SevenEventCodes :
    (0x07 : Byte) ∉ [(0x00 : Byte), 0x04, 0x01, 0x05, 0x02, 0x06, 0x03] ∧
      (0x08 : Byte) ∉ [(0x00 : Byte), 0x04, 0x01, 0x05, 0x02, 0x06, 0x03] := by decide

/-- Clause by clause: the largest operands taken, and each operand just outside its field refused. -/
theorem witness_AssembledWords :
    (∃ nb b addr reg byte : Nat, b < nb ∧ addr ≤ 0x7F ∧ reg ≤ 0xFF ∧ byte ≤ 0xFF ∧ addr = 0x7F ∧ byte = 0xFF) ∧
      (∃ nb b addr : Nat, nb ≤ b ∨ 0x7F < addr) ∧
      (∃ nb b addr reg byte : Nat, nb ≤ b ∨ 0x7F < addr ∨ 0xFF < reg ∨ 0xFF < byte) ∧
      (∃ nb b addr reg : Nat, nb ≤ b ∨ 0x7F < addr ∨ 0xFF < reg) ∧ (∃ nb b : Nat, nb ≤ b) ∧
      ∃ nb b byte : Nat, nb ≤ b ∨ 0xFF < byte :=
  ⟨⟨2, 1, 0x7F, 0xFF, 0xFF, by decide⟩, ⟨2, 1, 0x80, by decide⟩, ⟨2, 1, 0x7F, 0xFF, 0x100, by decide⟩,
    ⟨2, 1, 0x7F, 0x100, by decide⟩, ⟨2, 2, by decide⟩, ⟨2, 1, 0x100, by decide⟩⟩

theorem witness_SetSclDrivesClock : ∃ (s : State) (k : Bank), s.banks[s.bus]? = some k := ⟨at0 Bank.reset, _, rfl⟩
theorem witness_SetSdaDrivesData : ∃ (s : State) (k : Bank), s.banks[s.bus]? = some k := ⟨at0 Bank.reset, _, rfl⟩
theorem witness_DelayIsOnlyAnEvent : ∃ (s : State) (k : Bank), s.banks[s.bus]? = some k := ⟨at1 Bank.reset, _, rfl⟩

/-- A live bank, and a placeholder. -/
theorem witness_ReadSdaRecordsLevel :
    (∃ (s : State) (k : Bank), s.banks[s.bus]? = some k ∧ s.bus ∈ s.params.live) ∧
      ∃ (s : State) (k : Bank), s.banks[s.bus]? = some k ∧ s.bus ∉ s.params.live :=
  ⟨⟨at0 Bank.reset, _, rfl, by decide⟩, ⟨at1 Bank.reset, _, rfl, by decide⟩⟩

/-- An event that is no SET_SCL, and one that is no SET_SDA. -/
theorem witness_LineEventFrame :
    (∃ (s t : State) (v : Bool), exec (.setSda v) s = .next t ∧ ∀ w, Instr.setSda v ≠ .setScl w) ∧
      ∃ (s t : State) (v : Bool), exec (.setScl v) s = .next t ∧ ∀ w, Instr.setScl v ≠ .setSda w :=
  ⟨⟨at0 Bank.reset, _, true, rfl, by decide⟩, ⟨at0 Bank.reset, _, true, rfl, by decide⟩⟩

/-- The four outcomes: a busy bank, an illegal word at LEN 0, a READ at LEN 0 and a WRITE at LEN 257, a WRITE at 256. -/
theorem witness_CmdWriteIsHandledInOneStep :
    (∃ (s : State) (k : Bank), s.inputs = [.host (.store (bankAddr 0 0x000) 32 0x000000F2)] ∧
        s.banks[0]? = some k ∧ k.status.busy = true) ∧
      (∃ (s : State) (k : Bank), s.inputs = [.host (.store (bankAddr 0 0x000) 32 0x000000F2)] ∧
        s.banks[0]? = some k ∧ k.status.busy = false ∧ k.len = 0) ∧
      (∃ (s : State) (k : Bank), s.inputs = [.host (.store (bankAddr 0 0x000) 32 0x00002302)] ∧
        s.banks[0]? = some k ∧ k.status.busy = false ∧ k.len = 0) ∧
      (∃ (s : State) (k : Bank), s.inputs = [.host (.store (bankAddr 0 0x000) 32 0x00002301)] ∧
        s.banks[0]? = some k ∧ k.status.busy = false ∧ k.len = 257) ∧
      ∃ (s : State) (k : Bank), s.inputs = [.host (.store (bankAddr 0 0x000) 32 0x00002301)] ∧
        s.banks[0]? = some k ∧ k.status.busy = false ∧ k.len = 256 :=
  ⟨⟨hostNext (busyBank [wait] []) _, _, rfl, rfl, rfl⟩, ⟨hostNext Bank.reset _, _, rfl, rfl, rfl, rfl⟩,
    ⟨hostNext Bank.reset _, _, rfl, rfl, rfl, rfl⟩, ⟨hostNext (idleBank 257 []) _, _, rfl, rfl, rfl, rfl⟩,
    ⟨hostNext (idleBank 256 []) _, _, rfl, rfl, rfl, rfl⟩⟩

/-- At the ends of the ranges of R183. -/
theorem witness_CommandIsAccepted :
    (∃ (s : State) (k : Bank), s.banks[s.bus]? = some k ∧ k.status.busy = false ∧ lenAccepted k.len.toNat .write ∧
        k.len = 256) ∧
      (∃ (s : State) (k : Bank), s.banks[s.bus]? = some k ∧ k.status.busy = false ∧ lenAccepted k.len.toNat .read ∧
        k.len = 1) ∧
      ∃ (s : State) (k : Bank), s.banks[s.bus]? = some k ∧ k.status.busy = false ∧ lenAccepted k.len.toNat .pSend ∧
        k.len = 0xFFFF :=
  ⟨⟨at0 (idleBank 256 []), _, rfl, rfl, show (256 : Nat) ≤ 256 by decide, rfl⟩,
    ⟨at0 (idleBank 1 []), _, rfl, rfl, show (1 : Nat) ≤ 1 ∧ (1 : Nat) ≤ 256 by decide, rfl⟩,
    ⟨at0 (idleBank 0xFFFF []), _, rfl, rfl, trivial, rfl⟩⟩

theorem witness_BadLengthIsRejected :
    (∃ (s : State) (k : Bank), s.banks[s.bus]? = some k ∧ k.status.busy = false ∧ ¬ lenAccepted k.len.toNat .write) ∧
      ∃ (s : State) (k : Bank), s.banks[s.bus]? = some k ∧ k.status.busy = false ∧ ¬ lenAccepted k.len.toNat .read :=
  ⟨⟨at0 (idleBank 257 []), _, rfl, rfl, show ¬ (257 : Nat) ≤ 256 by decide⟩,
    ⟨at0 Bank.reset, _, rfl, rfl, show ¬ ((1 : Nat) ≤ 0 ∧ (0 : Nat) ≤ 256) by decide⟩⟩

/-- A busy bank and an idle one. -/
theorem witness_CommandFrame :
    (∃ (s t : State) (k : Bank), exec (Instr.ofOp ⟨0x23, 0, 0⟩ .write) s = .next t ∧ s.banks[s.bus]? = some k ∧
        k.status.busy = true) ∧
      ∃ (s t : State) (k : Bank), exec (Instr.ofOp ⟨0x23, 0, 0⟩ .write) s = .next t ∧ s.banks[s.bus]? = some k ∧
        k.status.busy = false :=
  ⟨⟨at0 (busyBank [wait] []), _, _, rfl, rfl, rfl⟩, ⟨at0 Bank.reset, _, _, rfl, rfl, rfl⟩⟩

theorem witness_NoBankStops : ∃ s : State, s.banks.length ≤ s.bus := ⟨{ at0 Bank.reset with bus := 2 }, by decide⟩

/-- An idle bank of the step: all that P_START, P_STOP, P_ACK, P_NACK and P_SEND ask for. -/
theorem witness_PStartRuns : ∃ (s : State) (k : Bank), s.banks[s.bus]? = some k ∧ k.status.busy = false :=
  ⟨at0 Bank.reset, _, rfl, rfl⟩
theorem witness_PStopRuns : ∃ (s : State) (k : Bank), s.banks[s.bus]? = some k ∧ k.status.busy = false :=
  ⟨at0 { Bank.reset with scl := false, sda := false }, _, rfl, rfl⟩
theorem witness_PAckRuns : ∃ (s : State) (k : Bank), s.banks[s.bus]? = some k ∧ k.status.busy = false :=
  ⟨at0 { Bank.reset with scl := false }, _, rfl, rfl⟩
theorem witness_PNackRuns : ∃ (s : State) (k : Bank), s.banks[s.bus]? = some k ∧ k.status.busy = false :=
  ⟨at1 { Bank.reset with scl := false, sda := false }, _, rfl, rfl⟩
theorem witness_PSendShiftsOutMsbFirst : ∃ (s : State) (k : Bank), s.banks[s.bus]? = some k ∧ k.status.busy = false :=
  ⟨at1 Bank.reset, _, rfl, rfl⟩

/-- V18: acknowledged at the last read allowed. -/
theorem witness_PAckwaitSucceedsAtFirstLowRead :
    ∃ (s : State) (k : Bank) (j : Nat), s.banks[s.bus]? = some k ∧ k.status.busy = false ∧
      j < s.params.pollLimit.toNat ∧ answersNext s.bus k (List.replicate j true ++ [false]) ∧ j = 2 :=
  ⟨at0 (answering [true, true, false]), _, 2, rfl, rfl, by decide, answers_of (by decide), rfl⟩

/-- V14. -/
theorem witness_PAckwaitTimesOutAfterAllHighReads :
    ∃ (s : State) (k : Bank), s.banks[s.bus]? = some k ∧ k.status.busy = false ∧ s.params.pollLimit ≠ 0 ∧
      answersNext s.bus k (List.replicate s.params.pollLimit.toNat true) :=
  ⟨at0 (answering [true, true, true]), _, rfl, rfl, by decide, answers_of (by decide)⟩

/-- V30 on a released line, V36 with SDA driven low on a live bank, V36b on a placeholder. -/
theorem witness_PRecvShiftsInMsbFirst :
    (∃ (s : State) (k : Bank) (l : List Bool) (v : Byte), s.banks[s.bus]? = some k ∧ k.status.busy = false ∧
        answersNext s.bus k l ∧
        [7, 6, 5, 4, 3, 2, 1, 0].map (fun i => v.getLsbD i) =
          l.map (readLevel (s.params.live.contains s.bus) k.sda) ∧ v = 0x7B) ∧
      (∃ (s : State) (k : Bank) (l : List Bool) (v : Byte), s.banks[s.bus]? = some k ∧ k.status.busy = false ∧
        answersNext s.bus k l ∧
        [7, 6, 5, 4, 3, 2, 1, 0].map (fun i => v.getLsbD i) =
          l.map (readLevel (s.params.live.contains s.bus) k.sda) ∧ v = 0x00 ∧ l = List.replicate 8 true) ∧
      ∃ (s : State) (k : Bank) (l : List Bool) (v : Byte), s.banks[s.bus]? = some k ∧ k.status.busy = false ∧
        answersNext s.bus k l ∧
        [7, 6, 5, 4, 3, 2, 1, 0].map (fun i => v.getLsbD i) =
          l.map (readLevel (s.params.live.contains s.bus) k.sda) ∧ v = 0x5A ∧ k.sda = false :=
  ⟨⟨at0 (answering (byteBits 0x7B)), _, byteBits 0x7B, 0x7B, rfl, rfl, answers_of (by decide), by decide, rfl⟩,
    ⟨at0 { answering (List.replicate 8 true) with sda := false }, _, List.replicate 8 true, 0x00, rfl, rfl,
      answers_of (by decide), by decide, rfl, rfl⟩,
    ⟨at1 { answering (byteBits 0x5A) with sda := false }, _, byteBits 0x5A, 0x5A, rfl, rfl, answers_of (by decide),
      by decide, rfl, rfl⟩⟩

/-- The SDA levels of some events. -/
def sdaLevels (evs : List Ev) : List Bool := evs.filterMap (fun e => match e with | .sda v => some v | _ => none)

/-- P_SEND's run, then a live bank with SDA released, and a placeholder bank with it low, both answering its levels. -/
theorem witness_SendThenReceiveLoopsBack :
    (∃ (s : State) (k : Bank) (evs : List Ev), s.banks[s.bus]? = some k ∧ k.status.busy = false ∧
        (bankAfter 0 (runEngine 0 41 (acceptedState s k .pSend ⟨0, 0, 0xA5⟩))).map (·.trace) = some (k.trace ++ evs) ∧
        sdaLevels evs = byteBits 0xA5) ∧
      (∃ (s' : State) (k' : Bank), s'.banks[s'.bus]? = some k' ∧ k'.status.busy = false ∧ k'.sda = true ∧
        answersNext s'.bus k' (byteBits 0xA5)) ∧
      ∃ (s' : State) (k' : Bank), s'.banks[s'.bus]? = some k' ∧ k'.status.busy = false ∧ k'.sda = false ∧
        s'.bus ∉ s'.params.live ∧ answersNext s'.bus k' (byteBits 0xA5) :=
  ⟨⟨at0 Bank.reset, _, sendTrace 0xA5, rfl, rfl, by decide, by decide⟩,
    ⟨at0 (answering (byteBits 0xA5)), _, rfl, rfl, rfl, answers_of (by decide)⟩,
    ⟨at1 { answering (byteBits 0xA5) with sda := false }, _, rfl, rfl, rfl, by decide, answers_of (by decide)⟩⟩

/-- A WRITE of one byte, and the probe of LEN 0, acknowledged at the last read allowed. -/
theorem witness_WriteRuns :
    (∃ (s : State) (k : Bank) (j : Nat) (data : List (Byte × Nat)), s.banks[s.bus]? = some k ∧ k.status.busy = false ∧
        k.len.toNat = data.length ∧ data.length ≤ 256 ∧ Memory.holds k.buf 0 (data.map (·.1)) ∧
        (∀ p ∈ ((0x46 : Byte), j) :: data, p.2 < s.params.pollLimit.toNat) ∧
        answersNext s.bus k (sentAnswers (((0x46 : Byte), j) :: data)) ∧ data = [(0x10, 0)]) ∧
      ∃ (s : State) (k : Bank) (j : Nat) (data : List (Byte × Nat)), s.banks[s.bus]? = some k ∧ k.status.busy = false ∧
        k.len.toNat = data.length ∧ data.length ≤ 256 ∧ Memory.holds k.buf 0 (data.map (·.1)) ∧
        (∀ p ∈ ((0x46 : Byte), j) :: data, p.2 < s.params.pollLimit.toNat) ∧
        answersNext s.bus k (sentAnswers (((0x46 : Byte), j) :: data)) ∧ data = [] ∧ j = 2 :=
  ⟨⟨at0 { idleBank 1 [(0, 0x10)] with answers := [false, false] }, _, 0, [(0x10, 0)], rfl, rfl, rfl, by decide,
      by unfold Memory.holds; decide, by decide, answers_of (by decide), rfl⟩,
    ⟨at0 (answering [true, true, false]), _, 2, [], rfl, rfl, rfl, by decide, by unfold Memory.holds; decide, by decide,
      answers_of (by decide), rfl, rfl⟩⟩

/-- V41. -/
theorem witness_ReadRuns :
    ∃ (s : State) (k : Bank) (j : Nat) (bytes : List Byte), s.banks[s.bus]? = some k ∧ k.status.busy = false ∧
      k.len.toNat = bytes.length ∧ 1 ≤ bytes.length ∧ bytes.length ≤ 256 ∧ j < s.params.pollLimit.toNat ∧
      answersNext s.bus k (ackedAnswers j ++ bytes.flatMap byteBits) ∧ bytes = [0x00, 0x10] :=
  ⟨at0 { idleBank 2 [] with answers := false :: ([0x00, 0x10] : List Byte).flatMap byteBits }, _, 0, [0x00, 0x10],
    rfl, rfl, rfl, by decide, by decide, by decide, answers_of (by decide), rfl⟩

/-- V43, with LEN 300 (V45e). -/
theorem witness_WriteRegRuns :
    ∃ (s : State) (k : Bank) (j0 j1 j2 : Nat), s.banks[s.bus]? = some k ∧ k.status.busy = false ∧
      (∀ p ∈ [((0x46 : Byte), j0), (0x04, j1), (0x7B, j2)], p.2 < s.params.pollLimit.toNat) ∧
      answersNext s.bus k (sentAnswers [((0x46 : Byte), j0), (0x04, j1), (0x7B, j2)]) ∧ k.len = 300 :=
  ⟨at0 { idleBank 300 [] with answers := [false, false, false] }, _, 0, 0, 0, rfl, rfl, by decide,
    answers_of (by decide), rfl⟩

/-- V42. -/
theorem witness_ReadRegRuns :
    ∃ (s : State) (k : Bank) (j0 j1 j2 : Nat) (v : Byte), s.banks[s.bus]? = some k ∧ k.status.busy = false ∧
      j0 < s.params.pollLimit.toNat ∧ j1 < s.params.pollLimit.toNat ∧ j2 < s.params.pollLimit.toNat ∧
      answersNext s.bus k (ackedAnswers j0 ++ ackedAnswers j1 ++ ackedAnswers j2 ++ byteBits v) ∧ v = 0x7B :=
  ⟨at0 (answering ([false, false, false] ++ byteBits 0x7B)), _, 0, 0, 0, 0x7B, rfl, rfl, by decide, by decide,
    by decide, answers_of (by decide), rfl⟩

/-- V43b. -/
theorem witness_WriteRegMultiRuns :
    ∃ (s : State) (k : Bank) (j0 j1 : Nat) (data : List (Byte × Nat)), s.banks[s.bus]? = some k ∧
      k.status.busy = false ∧ k.len.toNat = data.length ∧ data.length ≤ 256 ∧
      Memory.holds k.buf 0 (data.map (·.1)) ∧
      (∀ p ∈ ((0xA0 : Byte), j0) :: (0x00, j1) :: data, p.2 < s.params.pollLimit.toNat) ∧
      answersNext s.bus k (sentAnswers (((0xA0 : Byte), j0) :: (0x00, j1) :: data)) ∧
      data = [(0xAA, 0), (0x55, 0)] :=
  ⟨at0 { idleBank 2 [(0, 0xAA), (1, 0x55)] with answers := [false, false, false, false] }, _, 0, 0,
    [(0xAA, 0), (0x55, 0)], rfl, rfl, rfl, by decide, by unfold Memory.holds; decide, by decide,
    answers_of (by decide), rfl⟩

/-- V44b: one byte. -/
theorem witness_ReadRegMultiRuns :
    ∃ (s : State) (k : Bank) (j0 j1 j2 : Nat) (bytes : List Byte), s.banks[s.bus]? = some k ∧ k.status.busy = false ∧
      k.len.toNat = bytes.length ∧ 1 ≤ bytes.length ∧ bytes.length ≤ 256 ∧ j0 < s.params.pollLimit.toNat ∧
      j1 < s.params.pollLimit.toNat ∧ j2 < s.params.pollLimit.toNat ∧
      answersNext s.bus k (ackedAnswers j0 ++ ackedAnswers j1 ++ ackedAnswers j2 ++ bytes.flatMap byteBits) ∧
      bytes = [0x7B] :=
  ⟨at0 { idleBank 1 [] with answers := [false, false, false] ++ byteBits 0x7B }, _, 0, 0, 0, [0x7B], rfl, rfl, rfl,
    by decide, by decide, by decide, by decide, by decide, answers_of (by decide), rfl⟩

/-- V51 (WRITE) and V53's command (READ). -/
theorem witness_UnacknowledgedAddressEndsTransaction :
    (∃ (s : State) (k : Bank), isTransaction .write = true ∧ s.banks[s.bus]? = some k ∧ k.status.busy = false ∧
        lenAccepted k.len.toNat .write ∧ s.params.pollLimit ≠ 0 ∧
        answersNext s.bus k (List.replicate s.params.pollLimit.toNat true)) ∧
      ∃ (s : State) (k : Bank), isTransaction .read = true ∧ s.banks[s.bus]? = some k ∧ k.status.busy = false ∧
        lenAccepted k.len.toNat .read ∧ s.params.pollLimit ≠ 0 ∧
        answersNext s.bus k (List.replicate s.params.pollLimit.toNat true) :=
  ⟨⟨at0 (answering [true, true, true]), _, rfl, rfl, rfl, show (0 : Nat) ≤ 256 by decide, by decide,
      answers_of (by decide)⟩,
    ⟨at0 { idleBank 2 [] with answers := [true, true, true] }, _, rfl, rfl, rfl,
      show (1 : Nat) ≤ 2 ∧ (2 : Nat) ≤ 256 by decide, by decide, answers_of (by decide)⟩⟩

/-- WRITE declined at its last byte (70_reset_and_hazards.md R270), and V50. -/
theorem witness_FirstUnacknowledgedByteEndsWrite :
    (∃ (s : State) (k : Bank) (j0 : Nat) (pre : List (Byte × Nat)) (x : Byte), s.banks[s.bus]? = some k ∧
        k.status.busy = false ∧ k.len.toNat ≤ 256 ∧ pre.length < k.len.toNat ∧
        Memory.holds k.buf 0 (pre.map (·.1) ++ [x]) ∧ s.params.pollLimit ≠ 0 ∧
        (∀ p ∈ ((0x46 : Byte), j0) :: pre, p.2 < s.params.pollLimit.toNat) ∧
        answersNext s.bus k
          (sentAnswers (((0x46 : Byte), j0) :: pre) ++ List.replicate s.params.pollLimit.toNat true) ∧ pre = []) ∧
      ∃ (s : State) (k : Bank) (j0 j1 : Nat) (pre : List (Byte × Nat)) (x : Byte), s.banks[s.bus]? = some k ∧
        k.status.busy = false ∧ k.len.toNat ≤ 256 ∧ pre.length < k.len.toNat ∧
        Memory.holds k.buf 0 (pre.map (·.1) ++ [x]) ∧ s.params.pollLimit ≠ 0 ∧
        (∀ p ∈ ((0xA0 : Byte), j0) :: (0x00, j1) :: pre, p.2 < s.params.pollLimit.toNat) ∧
        answersNext s.bus k (sentAnswers (((0xA0 : Byte), j0) :: (0x00, j1) :: pre) ++
          List.replicate s.params.pollLimit.toNat true) ∧ pre = [(1, 0)] :=
  ⟨⟨at0 { idleBank 1 [(0, 0x10)] with answers := [false, true, true, true] }, _, 0, [], 0x10, rfl, rfl, by decide,
      by decide, by unfold Memory.holds; decide, by decide, by decide, answers_of (by decide), rfl⟩,
    ⟨at0 { idleBank 4 [(0, 1), (1, 2), (2, 3), (3, 4)] with answers := [false, false, false, true, true, true] }, _,
      0, 0, [(1, 0)], 2, rfl, rfl, by decide, by decide, by unfold Memory.holds; decide, by decide, by decide,
      answers_of (by decide), rfl⟩⟩

/-- REG declined, the address byte acknowledged at the last read allowed (WRITE_REG_MULTI, LEN 256); DATA declined, REG at
the last read allowed; the second address byte declined (READ_REG_MULTI, LEN 1). -/
theorem witness_LaterUnacknowledgedByteEndsTransaction :
    (∃ (s : State) (k : Bank) (j0 : Nat), s.banks[s.bus]? = some k ∧ k.status.busy = false ∧ s.params.pollLimit ≠ 0 ∧
        j0 < s.params.pollLimit.toNat ∧ lenAccepted k.len.toNat .writeRegMulti ∧
        answersNext s.bus k (ackedAnswers j0 ++ List.replicate s.params.pollLimit.toNat true) ∧ j0 = 2) ∧
      (∃ (s : State) (k : Bank) (j0 j1 : Nat), s.banks[s.bus]? = some k ∧ k.status.busy = false ∧
        s.params.pollLimit ≠ 0 ∧ j0 < s.params.pollLimit.toNat ∧ j1 < s.params.pollLimit.toNat ∧
        answersNext s.bus k
          (ackedAnswers j0 ++ ackedAnswers j1 ++ List.replicate s.params.pollLimit.toNat true) ∧ j1 = 2) ∧
      ∃ (s : State) (k : Bank) (j0 j1 : Nat), s.banks[s.bus]? = some k ∧ k.status.busy = false ∧
        s.params.pollLimit ≠ 0 ∧ j0 < s.params.pollLimit.toNat ∧ j1 < s.params.pollLimit.toNat ∧
        answersNext s.bus k (ackedAnswers j0 ++ ackedAnswers j1 ++ List.replicate s.params.pollLimit.toNat true) ∧
        lenAccepted k.len.toNat .readRegMulti ∧ k.len = 1 :=
  ⟨⟨at0 { idleBank 256 [] with answers := [true, true, false, true, true, true] }, _, 2, rfl, rfl, by decide, by decide,
      show (256 : Nat) ≤ 256 by decide, answers_of (by decide), rfl⟩,
    ⟨at0 (answering [false, true, true, false, true, true, true]), _, 0, 2, rfl, rfl, by decide, by decide, by decide,
      answers_of (by decide), rfl⟩,
    ⟨at0 { idleBank 1 [] with answers := [false, false, true, true, true] }, _, 0, 0, rfl, rfl, by decide, by decide,
      by decide, answers_of (by decide), show (1 : Nat) ≤ 1 ∧ (1 : Nat) ≤ 256 by decide, rfl⟩⟩

theorem witness_SendingAnUnwrittenByteStops :
    ∃ (s : State) (k : Bank) (b : Nat) (i : Byte) (calls : List Call) (cause : Cause), s.banks[b]? = some k ∧
      k.seq = .run [] (.send (.buf i) :: calls) cause ∧ Memory.read k.buf i.toNat = none :=
  ⟨at0 (busyBank [] [.send (.buf 255)]), _, 0, 255, [], .none, rfl, rfl, rfl⟩

/-- A probe that is not acknowledged (V51): its state at the CMD write, and once accepted. -/
def probeState : State := at0 (answering [true, true, true])
def probeStart : State := acceptedState probeState (answering [true, true, true]) .write ⟨0x23, 0, 0⟩

/-- The bank at the probe's end: 61 events and the completion step. -/
def probeEnd : Bank := (bankAfter 0 (runEngine 0 62 probeStart)).getD Bank.reset

theorem next_of {o : Out} {s : State} (h : stateOf o = some s) : o = .next s := by
  cases o <;> simp [stateOf] at h
  rw [h]

theorem probe_accepted : exec (Instr.ofOp ⟨0x23, 0, 0⟩ .write) probeState = .next probeStart := rfl

set_option maxRecDepth 2000 in
theorem probe_reached : runEngine probeState.bus 62 probeStart = .next (probeState.setBank probeState.bus probeEnd) :=
  next_of (by decide)

/-- V51: STATUS 0x6, LINE 0x3, 61 events. -/
theorem test_V51_probe_ends :
    (statusWord probeEnd.status, lineWord probeEnd.scl probeEnd.sda, probeEnd.trace.length) = (0x6, 0x3, 61) := by
  decide

theorem witness_TransactionsEndIdleAfterStop :
    ∃ (s t : State) (k k' : Bank) (f : CmdFields) (op : Op) (n : Nat), isTransaction op = true ∧
      s.params.pollLimit ≠ 0 ∧ s.banks[s.bus]? = some k ∧ k.status.busy = false ∧ lenAccepted k.len.toNat op ∧
      exec (Instr.ofOp f op) s = .next t ∧ runEngine s.bus n t = .next (s.setBank s.bus k') ∧ k'.status.busy = false :=
  ⟨probeState, probeStart, _, probeEnd, ⟨0x23, 0, 0⟩, .write, 62, rfl, by decide, rfl, rfl,
    show (0 : Nat) ≤ 256 by decide, probe_accepted, probe_reached, by decide⟩

theorem witness_FailedTransactionWritesNoResult :
    ∃ (s t : State) (k k' : Bank) (f : CmdFields) (op : Op) (n : Nat), isTransaction op = true ∧
      s.params.pollLimit ≠ 0 ∧ s.banks[s.bus]? = some k ∧ k.status.busy = false ∧ lenAccepted k.len.toNat op ∧
      exec (Instr.ofOp f op) s = .next t ∧ runEngine s.bus n t = .next (s.setBank s.bus k') ∧
      k'.status.busy = false ∧ k'.status.fail = true :=
  ⟨probeState, probeStart, _, probeEnd, ⟨0x23, 0, 0⟩, .write, 62, rfl, by decide, rfl, rfl,
    show (0 : Nat) ≤ 256 by decide, probe_accepted, probe_reached, by decide, by decide⟩

theorem witness_OnlyStartAndStopConditions :
    ∃ (s t : State) (k k' : Bank) (f : CmdFields) (op : Op) (n : Nat), isTransaction op = true ∧
      s.params.pollLimit ≠ 0 ∧ s.banks[s.bus]? = some k ∧ k.status.busy = false ∧ lenAccepted k.len.toNat op ∧
      k.scl = true ∧ k.sda = true ∧ exec (Instr.ofOp f op) s = .next t ∧
      runEngine s.bus n t = .next (s.setBank s.bus k') ∧ k'.status.busy = false :=
  ⟨probeState, probeStart, _, probeEnd, ⟨0x23, 0, 0⟩, .write, 62, rfl, by decide, rfl, rfl,
    show (0 : Nat) ≤ 256 by decide, rfl, rfl, probe_accepted, probe_reached, by decide⟩

theorem witness_EveryCommandEnds :
    ∃ (s : State) (k : Bank) (op : Op), s.params.pollLimit ≠ 0 ∧ s.banks[s.bus]? = some k ∧ k.status.busy = false ∧
      lenAccepted k.len.toNat op :=
  ⟨at0 (idleBank 256 []), _, .readRegMulti, by decide, rfl, rfl, show (1 : Nat) ≤ 256 ∧ (256 : Nat) ≤ 256 by decide⟩

/-- A host that polls STATUS while every other move is an engine's of bank 0 or 1; and moves with a host store to the busy
bank and an engine of another bank. -/
theorem witness_WaitLoopsEnd :
    ∃ (s : State) (k : Bank) (op : Op) (acts : Nat → Action) (moves : List Action), s.params.pollLimit ≠ 0 ∧
      s.banks[s.bus]? = some k ∧ k.status.busy = false ∧ lenAccepted k.len.toNat op ∧ FairTo s.bus acts ∧
      (∀ n, (∃ c, acts n = .engine c) ∨ ∃ a w, acts n = .host (.load a w)) ∧ .reset ∉ moves := by
  refine ⟨at0 (idleBank 256 []), _, .readRegMulti,
    fun n => if n % 2 = 0 then .host (.load 0x004 32) else .engine (n / 2 % 2),
    [.host (.store 0x000 32 0x00000009), .engine 1], by decide, rfl, rfl,
    show (1 : Nat) ≤ 256 ∧ (256 : Nat) ≤ 256 by decide, fun n => ⟨4 * n + 1, by omega, ?_⟩, fun n => ?_, by decide⟩
  · have h : (4 * n + 1) % 2 = 1 ∧ (4 * n + 1) / 2 % 2 = 0 := by omega
    simp only [h]
    rfl
  · by_cases h : n % 2 = 0
    · exact .inr ⟨0x004, 32, by simp [h]⟩
    · exact .inl ⟨n / 2 % 2, by simp [h]⟩

/-- 30_encoding.md R92: `wait` loads STATUS until bit 0 is 0, so it is over on an idle bank and not on a busy one. -/
theorem test_waitOver : WaitOver 0 (.next (at0 Bank.reset)) ∧ ¬ WaitOver 0 (.next (at0 (busyBank [wait] []))) := by
  refine ⟨.inl ⟨_, 0, rfl, rfl, rfl⟩, ?_⟩
  rintro (⟨u, v, hu, h, hv⟩ | ⟨c, i, h⟩)
  · cases hu
    have e : some ([some (1 : Word)], ([] : List (Nat × ModelFault))) = some ([some v], []) := congrArg hostSaw h
    cases e
    exact absurd hv (by decide)
  · cases h

/-- A state that is not reset's: bank 0 polling. -/
theorem witness_StepKeepsInvariant : ∃ s t : State, s.Ok ∧ step s = .next t := by
  refine ⟨engineNext { busyBank [.read .poll] [.stop false] with answers := [true] }, _, ?_, rfl⟩
  refine ⟨by decide, by decide, fun k hk => ?_⟩
  have hk' : k = { busyBank [.read .poll] [.stop false] with answers := [true] } ∨ k = Bank.reset := by
    simpa [engineNext, at0] using hk
  rcases hk' with rfl | rfl <;> exact ⟨by decide, by decide, by decide, by decide⟩

theorem witness_StepKeepsParameters : ∃ s t : State, step s = .next t := ⟨engineNext Bank.reset, _, rfl⟩

/-- Two states that share bank 0 and nothing else. -/
theorem witness_BanksAreIndependent :
    ∃ (b : Nat) (s₁ s₂ t₁ : State), engineStep b s₁ = .next t₁ ∧ s₂.params = s₁.params ∧
      s₂.banks[b]? = s₁.banks[b]? ∧ s₂.banks ≠ s₁.banks :=
  ⟨0, at0 (busyBank [.scl true] []), { at0 Bank.reset with banks := [busyBank [.scl true] []] }, _, rfl, rfl, rfl,
    by decide⟩

theorem witness_StepRunsDecodedCommand :
    ∃ (s : State) (rest : List Action) (b : Nat) (w : Word) (i : Instr), b < s.banks.length ∧
      s.inputs = .host (.store (bankAddr b 0x000) 32 w) :: rest ∧ decodeCmd w = .ok i :=
  ⟨{ at0 Bank.reset with inputs := [.host (.store (bankAddr 1 0x000) 32 0x00000009)] }, [], 1, 0x00000009, _,
    by decide, rfl, rfl⟩

/-- A read, and an event that is none. -/
theorem witness_StepRunsLineEvent :
    (∃ (s : State) (b : Nat) (k k' : Bank) (todo' : List Micro) (calls' : List Call) (m : Micro),
        s.inputs = [.engine b] ∧ s.banks[b]? = some k ∧ k.seq = .run [.read .poll] [] .none ∧
        nextOp k [.read .poll] [] = .perform k' m todo' calls' ∧ m = .read .poll) ∧
      ∃ (s : State) (b : Nat) (k k' : Bank) (todo' : List Micro) (calls' : List Call) (m : Micro),
        s.inputs = [.engine b] ∧ s.banks[b]? = some k ∧ k.seq = .run [] [.start] .none ∧
        nextOp k [] [.start] = .perform k' m todo' calls' ∧ ∀ use, m ≠ .read use :=
  ⟨⟨engineNext (busyBank [.read .poll] []), 0, _, _, _, _, _, rfl, rfl, rfl, rfl, rfl⟩,
    ⟨engineNext (busyBank [] [.start]), 0, _, _, _, _, .sda true, rfl, rfl, rfl, rfl, fun _ h => by cases h⟩⟩

theorem witness_CompletionStepEndsCommand :
    ∃ (s : State) (b : Nat) (k : Bank) (cause : Cause), s.inputs = [.engine b] ∧ s.banks[b]? = some k ∧
      k.seq = .run [] [] cause ∧ cause = .ackTimeout :=
  ⟨engineNext { busyBank [] [] with seq := .run [] [] .ackTimeout }, 0, _, .ackTimeout, rfl, rfl, rfl, rfl⟩

theorem witness_IdleEngineChangesNothing :
    ∃ (s : State) (b : Nat) (k : Bank), s.inputs = [.engine b] ∧ s.banks[b]? = some k ∧ k.seq = .idle :=
  ⟨engineNext Bank.reset, 0, _, rfl, rfl, rfl⟩

theorem witness_EngineRunIsMachineRun :
    ∃ (s : State) (b n : Nat) (rest : List Action) (t : State), runEngine b n { s with inputs := rest } = .next t ∧
      n = 2 :=
  ⟨at0 (busyBank [] [.start]), 0, 2, [.reset], _, rfl, rfl⟩

/-- The first and the last byte of the last of two banks, the first address after it, and one below BANK_BASE where
BANK_BASE is not 0 (its value is OPEN). -/
theorem witness_AddressMap :
    (∃ n b off : Nat, b < n ∧ off < 0x200 ∧ off = 0x1FF ∧ b + 1 = n) ∧
      (∃ n a : Nat, Config.bankBase + 0x200 * n ≤ a) ∧ (Config.bankBase ≠ 0 → ∃ a : Nat, a < Config.bankBase) :=
  ⟨⟨2, 1, 0x1FF, by decide⟩, ⟨2, _, Nat.le_refl _⟩, fun h => ⟨0, Nat.pos_of_ne_zero h⟩⟩

/-- The first address after the last bank. -/
theorem witness_AccessOutsideEveryBankIsIgnored :
    (∃ (s : State) (a w : Nat), 0x200 * s.banks.length ≤ a ∧ s.inputs = [.host (.load a w)] ∧ a = 0x400) ∧
      ∃ (s : State) (a w : Nat) (v : Word), 0x200 * s.banks.length ≤ a ∧ s.inputs = [.host (.store a w v)] ∧
        a = 0x400 :=
  ⟨⟨hostNext Bank.reset (.load 0x400 32), 0x400, 32, by decide, rfl, rfl⟩,
    ⟨hostNext Bank.reset (.store 0x400 8 0), 0x400, 8, 0, by decide, rfl, rfl⟩⟩

/-- STATUS and LINE of a busy bank; the other registers of an idle one. -/
theorem witness_RegisterLoadsAnswer :
    (∃ (s : State) (k : Bank), s.banks[0]? = some k ∧ s.inputs = [.host (.load (bankAddr 0 0x004) 32)] ∧
        k.status.busy = true) ∧
      (∃ (s : State) (k : Bank), s.banks[0]? = some k ∧ s.inputs = [.host (.load (bankAddr 0 0x010) 32)] ∧
        k.status.busy = true) ∧
      (∃ (s : State) (k : Bank), s.banks[0]? = some k ∧ s.inputs = [.host (.load (bankAddr 0 0x000) 32)] ∧
        k.status.busy = false) ∧
      (∃ (s : State) (k : Bank), s.banks[0]? = some k ∧ s.inputs = [.host (.load (bankAddr 0 0x008) 32)] ∧
        k.status.busy = false ∧ k.len = 0xFFFF) ∧
      ∃ (s : State) (k : Bank), s.banks[0]? = some k ∧ s.inputs = [.host (.load (bankAddr 0 0x00C) 32)] ∧
        k.status.busy = false ∧ k.rxdata = 0xFF :=
  ⟨⟨hostNext (busyBank [wait] []) _, _, rfl, rfl, rfl⟩, ⟨hostNext (busyBank [wait] []) _, _, rfl, rfl, rfl⟩,
    ⟨hostNext Bank.reset _, _, rfl, rfl, rfl⟩, ⟨hostNext (idleBank 0xFFFF []) _, _, rfl, rfl, rfl, rfl⟩,
    ⟨hostNext { Bank.reset with rxdata := 0xFF } _, _, rfl, rfl, rfl, rfl⟩⟩

/-- A narrow load of STATUS, and a store to LEN, of a busy bank. -/
theorem witness_BusyAccessIsRecorded :
    (∃ (s : State) (off w : Nat) (k : Bank), s.banks[0]? = some k ∧ off < 0x200 ∧ k.status.busy = true ∧
        s.inputs = [.host (.load (bankAddr 0 off) w)] ∧ ¬ (w = 32 ∧ (off = 0x004 ∨ off = 0x010)) ∧ off = 0x004) ∧
      ∃ (s : State) (off w : Nat) (k : Bank) (v : Word), s.banks[0]? = some k ∧ off < 0x200 ∧ k.status.busy = true ∧
        s.inputs = [.host (.store (bankAddr 0 off) w v)] ∧ off = 0x1FF :=
  ⟨⟨hostNext (busyBank [wait] []) _, 0x004, 8, _, rfl, by decide, rfl, rfl, by decide, rfl⟩,
    ⟨hostNext (busyBank [wait] []) _, 0x1FF, 8, _, 0, rfl, by decide, rfl, rfl, rfl⟩⟩

/-- A misaligned access, a narrow one just below BUF, an odd width, and both ends of the unmapped range. -/
theorem witness_BadAccessIsRecorded :
    (∃ (s : State) (k : Bank), s.banks[0]? = some k ∧ k.status.busy = false ∧
        s.inputs = [.host (.load (bankAddr 0 0x1FD) 32)] ∧ 0x1FD % 4 ≠ 0) ∧
      (∃ (s : State) (k : Bank), s.banks[0]? = some k ∧ k.status.busy = false ∧
        s.inputs = [.host (.store (bankAddr 0 0x0FF) 8 0)] ∧ 0x0FF < 0x100) ∧
      (∃ (s : State) (k : Bank), s.banks[0]? = some k ∧ k.status.busy = false ∧
        s.inputs = [.host (.load (bankAddr 0 0x100) 16)] ∧ (16 ≠ 8 ∧ 16 ≠ 32)) ∧
      (∃ (s : State) (k : Bank), s.banks[0]? = some k ∧ k.status.busy = false ∧
        s.inputs = [.host (.store (bankAddr 0 0x014) 32 0)] ∧ 0x014 ≤ 0x014 ∧ 0x014 ≤ 0x0FF) ∧
      ∃ (s : State) (k : Bank), s.banks[0]? = some k ∧ k.status.busy = false ∧
        s.inputs = [.host (.load (bankAddr 0 0x0FC) 32)] ∧ 0x014 ≤ 0x0FC ∧ 0x0FC ≤ 0x0FF :=
  ⟨⟨hostNext Bank.reset _, _, rfl, rfl, rfl, by decide⟩, ⟨hostNext Bank.reset _, _, rfl, rfl, rfl, by decide⟩,
    ⟨hostNext Bank.reset _, _, rfl, rfl, rfl, by decide⟩, ⟨hostNext Bank.reset _, _, rfl, rfl, rfl, by decide⟩,
    ⟨hostNext Bank.reset _, _, rfl, rfl, rfl, by decide⟩⟩

theorem witness_LenStoreKeepsLowBits :
    ∃ (s : State) (k : Bank) (v : Word), s.banks[0]? = some k ∧ k.status.busy = false ∧
      s.inputs = [.host (.store (bankAddr 0 0x008) 32 v)] ∧ v = 0xFFFF0100 :=
  ⟨hostNext Bank.reset _, _, 0xFFFF0100, rfl, rfl, rfl, rfl⟩

/-- V67, and the other two. -/
theorem witness_ReadOnlyStoresAreIgnored :
    (∃ (s : State) (k : Bank) (v : Word), s.banks[0]? = some k ∧ k.status.busy = false ∧
        s.inputs = [.host (.store (bankAddr 0 0x004) 32 v)]) ∧
      (∃ (s : State) (k : Bank) (v : Word), s.banks[0]? = some k ∧ k.status.busy = false ∧
        s.inputs = [.host (.store (bankAddr 0 0x00C) 32 v)]) ∧
      ∃ (s : State) (k : Bank) (v : Word), s.banks[0]? = some k ∧ k.status.busy = false ∧
        s.inputs = [.host (.store (bankAddr 0 0x010) 32 v)] :=
  ⟨⟨hostNext Bank.reset _, _, 0xFFFFFFFF, rfl, rfl, rfl⟩, ⟨hostNext Bank.reset _, _, 0xFF, rfl, rfl, rfl⟩,
    ⟨hostNext Bank.reset _, _, 0x3, rfl, rfl, rfl⟩⟩

/-- The last byte and the last word of BUF. -/
theorem witness_BufStoresReplaceBytes :
    (∃ (s : State) (i : Nat) (k : Bank) (v : Word), s.banks[0]? = some k ∧ k.status.busy = false ∧ i < 256 ∧
        s.inputs = [.host (.store (bankAddr 0 (0x100 + i)) 8 v)] ∧ i = 255) ∧
      ∃ (s : State) (i : Nat) (k : Bank) (v : Word), s.banks[0]? = some k ∧ k.status.busy = false ∧ i < 256 ∧
        i % 4 = 0 ∧ s.inputs = [.host (.store (bankAddr 0 (0x100 + i)) 32 v)] ∧ i = 252 :=
  ⟨⟨hostNext Bank.reset _, 255, _, 0xAB, rfl, rfl, by decide, rfl, rfl⟩,
    ⟨hostNext Bank.reset _, 252, _, 0x44332211, rfl, rfl, by decide, by decide, rfl, rfl⟩⟩

/-- A written byte, an unwritten one, a written word, and a word whose last byte is not written. -/
theorem witness_BufLoadsAnswerBytes :
    (∃ (s : State) (i : Nat) (k : Bank) (x : Byte), s.banks[0]? = some k ∧ k.status.busy = false ∧ i < 256 ∧
        s.inputs = [.host (.load (bankAddr 0 (0x100 + i)) 8)] ∧ Memory.read k.buf i = some x ∧ i = 255) ∧
      (∃ (s : State) (i : Nat) (k : Bank), s.banks[0]? = some k ∧ k.status.busy = false ∧ i < 256 ∧
        s.inputs = [.host (.load (bankAddr 0 (0x100 + i)) 8)] ∧ Memory.read k.buf i = none ∧ i = 0) ∧
      (∃ (s : State) (i : Nat) (k : Bank) (x0 x1 x2 x3 : Byte), s.banks[0]? = some k ∧ k.status.busy = false ∧
        i < 256 ∧ i % 4 = 0 ∧ s.inputs = [.host (.load (bankAddr 0 (0x100 + i)) 32)] ∧
        Memory.read k.buf i = some x0 ∧ Memory.read k.buf (i + 1) = some x1 ∧ Memory.read k.buf (i + 2) = some x2 ∧
        Memory.read k.buf (i + 3) = some x3 ∧ i = 252) ∧
      ∃ (s : State) (i : Nat) (k : Bank), s.banks[0]? = some k ∧ k.status.busy = false ∧ i < 256 ∧ i % 4 = 0 ∧
        s.inputs = [.host (.load (bankAddr 0 (0x100 + i)) 32)] ∧
        (∃ a, i ≤ a ∧ a < i + 4 ∧ Memory.read k.buf a = none) ∧ i = 0 :=
  ⟨⟨hostNext (idleBank 0 [(255, 7)]) _, 255, _, 7, rfl, rfl, by decide, rfl, rfl, rfl⟩,
    ⟨hostNext Bank.reset _, 0, _, rfl, rfl, by decide, rfl, rfl, rfl⟩,
    ⟨hostNext (idleBank 0 [(252, 1), (253, 2), (254, 3), (255, 4)]) _, 252, _, 1, 2, 3, 4, rfl, rfl, by decide,
      by decide, rfl, rfl, rfl, rfl, rfl, rfl⟩,
    ⟨hostNext (idleBank 0 [(0, 1), (1, 2), (2, 3)]) _, 0, _, rfl, rfl, by decide, by decide, rfl,
      ⟨3, by decide, by decide, rfl⟩, rfl⟩⟩

/-- A reset in the middle of a command, with a byte of BUF written and an answer waiting. -/
theorem witness_ResetInputResetsEveryBank :
    ∃ (s : State) (k : Bank), s.inputs = [.reset] ∧ s.banks[0]? = some k ∧ k.status.busy = true ∧ k.answers = [true] :=
  ⟨{ at0 { busyBank [.scl true] [] with answers := [true], buf := [(0, 1)] } with inputs := [.reset] }, _, rfl, rfl,
    rfl, rfl⟩

end Sys2Proof.Tests
end

section
/-! PROOFS. The host port (20_memory.md): the address map, and a store that a register of an idle bank takes. -/

namespace Sys2Proof.Machine

/-- The host address `a` above BANK_BASE (20_memory.md R51). -/
@[simp] theorem blockAddr_bankBase_add (a : Nat) : blockAddr (Config.bankBase + a) = some a := by
  simp [blockAddr]

theorem blockAddr_below {a : Nat} (h : a < Config.bankBase) : blockAddr a = none :=
  if_neg (Nat.not_le_of_lt h)

/-- BANK_BASE is a multiple of the stride of the banks (20_memory.md R51). -/
theorem bankBase_mod_stride : Config.bankBase % Config.bankStride = 0 := Nat.mul_mod_right _ _

/-- Settles O48: above BANK_BASE the map is `selectBank` of the distance to it, whatever BANK_BASE is. -/
theorem addressMap : Obligations.AddressMap := by
  refine ⟨bankBase_mod_stride, fun n b off hb ho => ?inside, fun n a ha => ?above, fun _ => blockAddr_below⟩
  case inside =>
    rw [Nat.add_assoc, blockAddr_bankBase_add]
    exact selectBank_bankAddr hb ho
  case above =>
    obtain ⟨d, rfl⟩ := Nat.exists_eq_add_of_le ha
    rw [Nat.add_assoc, blockAddr_bankBase_add]
    exact selectBank_outside (Nat.le_add_right _ d)

/-- A store an idle bank takes is the bank `storeEffect` gives, and records no fault (20_memory.md R61, R62). -/
theorem hostStore_of_ok {k k' : Bank} {t : Target} {v : Word} (b : Nat) (s : State) (hk : k.status.busy = false)
    (he : storeEffect k v t = .ok k') : hostStore b k t v s = s.setBank b k' := by
  simp [hostStore, hk, he]

/-- The step at a store an idle bank takes, where it is no CMD write (20_memory.md R61, R62). -/
theorem step_store_of_ok {s : State} {rest : List Action} {b off w : Nat} {k k' : Bank} {v : Word} {t : Target}
    (hb : s.banks[b]? = some k) (hk : k.status.busy = false) (ho : off < 0x200)
    (hi : s.inputs = .host (.store (bankAddr b off) w v) :: rest) (ht : accessTarget w off = t) (hc : t ≠ .cmd)
    (he : storeEffect k v t = .ok k') :
    step s = .next ({ s with inputs := rest, bus := b }.setBank b k') := by
  rw [step_store hb ho hi, ht, if_neg hc, hostStore_of_ok b _ hk he]

/-- The registers a host store does not change (20_memory.md R62). -/
theorem accessTarget_readOnly {off : Nat} (h : off = 0x004 ∨ off = 0x00C ∨ off = 0x010) :
    accessTarget 32 off = .status ∨ accessTarget 32 off = .rxdata ∨ accessTarget 32 off = .line := by
  rcases h with rfl | rfl | rfl
  · exact .inl rfl
  · exact .inr (.inl rfl)
  · exact .inr (.inr rfl)

/-- A store to STATUS, RXDATA or LINE gives the bank back as it was (20_memory.md R62). -/
theorem storeEffect_readOnly (k : Bank) (v : Word) {t : Target} (h : t = .status ∨ t = .rxdata ∨ t = .line) :
    storeEffect k v t = .ok k := by
  rcases h with rfl | rfl | rfl <;> rfl

/-- Settles O54: the store takes the bank to itself, so putting it back changes nothing. -/
theorem readOnlyStoresAreIgnored : Obligations.ReadOnlyStoresAreIgnored := by
  intro s rest b off k v hb hk hoff hi
  have ht := accessTarget_readOnly hoff
  have hc : accessTarget 32 off ≠ .cmd := by rcases ht with h | h | h <;> simp [h]
  rw [step_store_of_ok hb hk (by omega) hi rfl hc (storeEffect_readOnly k v ht)]
  exact congrArg _ (State.setBank_self _ _ _ hb)

end Sys2Proof.Machine
end

section
/-! PROOFS. The encodings (30_encoding.md): which command words are illegal, which codes are events, and the word of a
line of assembler text. -/

namespace Sys2Proof

/-! ## Illegal command words (R83, R87, R88) -/

/-- The OP values that name no operation (30_encoding.md R88). -/
theorem Op.ofCode_eq_none_iff (c : BitVec 4) : Op.ofCode c = none ↔ c = 0x0 ∨ c = 0x7 ∨ c = 0xF := by
  revert c
  decide

/-- A word is rejected for its OP or for either reserved field (30_encoding.md R83, R88). -/
theorem decodeCmd_error_iff (w : Word) :
    (∃ r, decodeCmd w = .error r) ↔ Op.ofCode (cmdOp w) = none ∨ cmdRsv0 w ≠ 0 ∨ cmdRsv1 w ≠ 0 := by
  unfold decodeCmd
  by_cases hrsv : cmdRsv0 w = 0 ∧ cmdRsv1 w = 0
  · rw [if_pos hrsv]
    cases hop : Op.ofCode (cmdOp w) <;> simp [hrsv]
  · rw [if_neg hrsv]
    exact iff_of_true ⟨_, rfl⟩ (.inr (Decidable.not_and_iff_not_or_not.mp hrsv))

/-- The word under the mask of `n` bits from bit `s` holds the value `v` there where the field of these bits is `v`. -/
theorem and_fieldMask_eq_iff (w : Word) {s n : Nat} (h : s + n ≤ 32) (v : BitVec n) :
    w &&& (BitVec.allOnes n).setWidth 32 <<< s = v.setWidth 32 <<< s ↔ w.extractLsb' s n = v := by
  constructor
  · intro hw
    apply BitVec.eq_of_getLsbD_eq
    intro i hi
    have hbit := congrArg (BitVec.getLsbD · (s + i)) hw
    have hlt : s + i < 32 := by omega
    have hi32 : i < 32 := by omega
    have hge : ¬ s + i < s := by omega
    simpa only [BitVec.getLsbD_extractLsb', BitVec.getLsbD_and, BitVec.getLsbD_shiftLeft, BitVec.getLsbD_setWidth,
      BitVec.getLsbD_allOnes, Nat.add_sub_cancel_left, hi, hlt, hi32, hge, decide_true, decide_false, Bool.not_false,
      Bool.true_and, Bool.and_true] using hbit
  · rintro rfl
    apply BitVec.eq_of_getLsbD_eq
    intro j hj
    by_cases hs : j < s
    · simp [hs]
    · have hadd : s + (j - s) = j := by omega
      by_cases hn : j - s < n <;> simp [hj, hs, hn, hadd]

theorem and_opMask_eq_iff (w : Word) (v : BitVec 4) : w &&& 0xF = v.setWidth 32 ↔ cmdOp w = v := by
  simpa [cmdOp] using and_fieldMask_eq_iff w (s := 0) (by decide) v

theorem and_rsv0Mask_eq_zero_iff (w : Word) : w &&& 0xF0 = 0 ↔ cmdRsv0 w = 0 :=
  and_fieldMask_eq_iff w (s := 4) (n := 4) (by decide) 0

theorem and_rsv1Mask_eq_zero_iff (w : Word) : w &&& 0x8000 = 0 ↔ cmdRsv1 w = 0 :=
  and_fieldMask_eq_iff w (s := 15) (n := 1) (by decide) 0

/-- Settles O4: the decoder rejects by the three fields OP, RSV0 and RSV1, and each mask reads one of them. -/
theorem illegalWordsAreExactlyTheseWords : Obligations.IllegalWordsAreExactlyTheseWords := by
  intro w
  rw [decodeCmd_error_iff, Op.ofCode_eq_none_iff, Ne, Ne, ← and_opMask_eq_iff, ← and_opMask_eq_iff,
    ← and_opMask_eq_iff, ← and_rsv0Mask_eq_zero_iff, ← and_rsv1Mask_eq_zero_iff]
  rfl

/-! ## Line-event codes (R82, R90) -/

/-- The seven codes of 30_encoding.md R82, in the order of its rows. -/
def eventCodes : List Byte := [0x00, 0x04, 0x01, 0x05, 0x02, 0x06, 0x03]

/-- A code whose RSV is 0 is its V and its KIND (30_encoding.md R90). -/
theorem eq_evCode_of_rsv_eq_zero {c : Byte} (h : c.extractLsb' 3 5 = 0) :
    c = evCode (c.extractLsb' 0 2) (c.getLsbD 2) := by
  have hv : BitVec.ofBool (c.getLsbD 2) = c.extractLsb' 2 1 := by
    apply BitVec.eq_of_getLsbD_eq
    intro i hi
    simp [Nat.lt_one_iff.mp hi]
  have hhigh : c.extractLsb' 3 5 ++ c.extractLsb' 2 1 = c.extractLsb' 2 6 :=
    BitVec.extractLsb'_append_extractLsb'_eq_extractLsb' rfl
  have hall : c.extractLsb' 2 6 ++ c.extractLsb' 0 2 = c := BitVec.extractLsb'_append_extractLsb'
  rw [evCode, hv, ← h, hhigh, hall]

/-- Of the codes with RSV 0 only DELAY with V = 1 is no event (30_encoding.md R82). -/
theorem evCode_mem_eventCodes_iff (kind : BitVec 2) (v : Bool) :
    evCode kind v ∈ eventCodes ↔ ¬ (kind = 3 ∧ v = true) := by
  revert kind v
  decide

theorem decodeEv_error_of_rsv_ne_zero {c : Byte} (h : c.extractLsb' 3 5 ≠ 0) : decodeEv c = .error .reservedBits :=
  if_pos h

/-- A code that is none of the seven has a nonzero RSV or is 0x07. -/
theorem decodeEv_error_of_notMem {c : Byte} (h : c ∉ eventCodes) : ∃ r, decodeEv c = .error r := by
  by_cases hrsv : c.extractLsb' 3 5 = 0
  · rw [eq_evCode_of_rsv_eq_zero hrsv, evCode_mem_eventCodes_iff, Decidable.not_not] at h
    obtain ⟨hkind, hv⟩ := h
    rw [eq_evCode_of_rsv_eq_zero hrsv, hkind, hv]
    exact ⟨.noEvent, rfl⟩
  · exact ⟨.reservedBits, decodeEv_error_of_rsv_ne_zero hrsv⟩

/-- No trace entry is a DELAY with V = 1 (30_encoding.md R90). -/
theorem Ev.code_mem_eventCodes (e : Ev) : e.code ∈ eventCodes := by
  cases e <;> simp [Ev.code, evCode_mem_eventCodes_iff]

/-- Settles O5: the seven codes by evaluation, every other code by its RSV or as 0x07, and the events case by case. -/
theorem sevenEventCodes : Obligations.SevenEventCodes :=
  ⟨rfl, rfl, rfl, rfl, rfl, rfl, rfl, fun _ => decodeEv_error_of_notMem, Ev.code_mem_eventCodes⟩

/-! ## The assembler (R91) -/

/-- The operation a line names. -/
@[simp] def AsmCmd.op : AsmCmd → Op
  | .write .. => .write
  | .read .. => .read
  | .writeReg .. => .writeReg
  | .readReg .. => .readReg
  | .writeRegMulti .. => .writeRegMulti
  | .readRegMulti .. => .readRegMulti
  | .pStart _ => .pStart
  | .pStop _ => .pStop
  | .pAck _ => .pAck
  | .pNack _ => .pNack
  | .pAckwait _ => .pAckwait
  | .pSend .. => .pSend
  | .pRecv _ => .pRecv

/-- The device address a line writes, 0 where it has none. -/
@[simp] def AsmCmd.addr : AsmCmd → Nat
  | .write _ a | .read _ a | .writeReg _ a _ _ | .readReg _ a _ | .writeRegMulti _ a _ | .readRegMulti _ a _ => a
  | _ => 0

/-- The register address a line writes, 0 where it has none. -/
@[simp] def AsmCmd.reg : AsmCmd → Nat
  | .writeReg _ _ r _ | .readReg _ _ r | .writeRegMulti _ _ r | .readRegMulti _ _ r => r
  | _ => 0

/-- The data byte a line writes, 0 where it has none. -/
@[simp] def AsmCmd.byte : AsmCmd → Nat
  | .writeReg _ _ _ v | .pSend _ v => v
  | _ => 0

/-- Every operand of a line lies in its field (30_encoding.md R91). -/
def AsmCmd.Fits (nb : Nat) (c : AsmCmd) : Prop :=
  c.bus < nb ∧ c.addr ≤ 0x7F ∧ c.reg ≤ 0xFF ∧ c.byte ≤ 0xFF

theorem AsmCmd.wellFormed_iff_fits (nb : Nat) (c : AsmCmd) : c.wellFormed nb = true ↔ c.Fits nb := by
  cases c <;> simp [AsmCmd.wellFormed, busFits, addrFits, byteFits, AsmCmd.Fits, AsmCmd.bus, and_assoc]

theorem AsmCmd.instr_eq_ofOp (c : AsmCmd) : c.instr = Instr.ofOp (asmFields c.addr c.reg c.byte) c.op := by
  cases c <;> rfl

theorem encode_ofOp (f : CmdFields) (o : Op) : encode (Instr.ofOp f o) = (cmdWord o f).toNat := by
  cases o <;> rfl

/-- An appended word by arithmetic: its high part is shifted left by the width of its low part. -/
theorem toNat_append_eq_add {m n : Nat} (x : BitVec m) (y : BitVec n) :
    (x ++ y).toNat = x.toNat * 2 ^ n + y.toNat := by
  rw [BitVec.toNat_append, ← Nat.shiftLeft_add_eq_or_of_lt y.isLt, Nat.shiftLeft_eq]

/-- The word of fields that fit, by arithmetic (30_encoding.md R81). A word keeps 8 bits of a byte in its top field
whatever its size, so `v` needs no bound. -/
theorem cmdWord_asmFields (o : Op) {a r v : Nat} (ha : a ≤ 0x7F) (hr : r ≤ 0xFF) :
    cmdWord o (asmFields a r v) = BitVec.ofNat 32 (v * 2 ^ 24 + r * 2 ^ 16 + a * 2 ^ 8 + o.code.toNat) := by
  have ho := o.code.isLt
  apply BitVec.eq_of_toNat_eq
  simp only [cmdWord, asmFields, toNat_append_eq_add, BitVec.toNat_ofNat, BitVec.ofNat_eq_ofNat]
  omega

/-- What the assembler makes of a line that fits. -/
theorem AsmCmd.assemble_of_fits {nb : Nat} {c : AsmCmd} (h : c.Fits nb) :
    c.assemble nb =
      some (c.bus, BitVec.ofNat 32 (c.byte * 2 ^ 24 + c.reg * 2 ^ 16 + c.addr * 2 ^ 8 + c.op.code.toNat)) := by
  have hw := (c.wellFormed_iff_fits nb).mpr h
  obtain ⟨-, haddr, hreg, -⟩ := h
  rw [AsmCmd.assemble, if_pos hw, c.instr_eq_ofOp, encode_ofOp, BitVec.ofNat_toNat,
    BitVec.setWidth_eq, cmdWord_asmFields _ haddr hreg]

/-- A line with an operand outside its field is refused. -/
theorem AsmCmd.assemble_eq_none {nb : Nat} {c : AsmCmd}
    (h : nb ≤ c.bus ∨ 0x7F < c.addr ∨ 0xFF < c.reg ∨ 0xFF < c.byte) : c.assemble nb = none := by
  refine if_neg fun hw => ?_
  obtain ⟨hbus, haddr, hreg, hbyte⟩ := (c.wellFormed_iff_fits nb).mp hw
  omega

/-- Settles O6: each line by `AsmCmd.assemble_of_fits` where its operands fit, by `AsmCmd.assemble_eq_none` where one
does not. -/
theorem assembledWords : Obligations.AssembledWords := by
  intro nb b addr reg byte
  refine ⟨fun hb ha hr hv => ?fit, fun h => ?_, fun h => ?_, fun h => ?_, fun h => ?_, fun h => ?_⟩
  case fit =>
    and_intros <;>
      rw [AsmCmd.assemble_of_fits (by simp [AsmCmd.Fits, AsmCmd.bus, hb, ha, hr, hv])] <;>
      simp [AsmCmd.bus, Op.code]
  all_goals
    and_intros <;> exact AsmCmd.assemble_eq_none (by simpa [AsmCmd.bus] using h)

end Sys2Proof
end

section
/-! PROOFS. The Line Driver (40_line_driver.md): what SET_SCL, SET_SDA and DELAY make of the step's bank, the two bits of
LINE, and the codes of their events. -/

namespace Sys2Proof

/-! ## Codes of events that carry a level (R82) -/

theorem Ev.code_scl (v : Bool) : (Ev.scl v).code = if v = true then 0x04 else 0x00 := by
  cases v <;> rfl

theorem Ev.code_sda (v : Bool) : (Ev.sda v).code = if v = true then 0x05 else 0x01 := by
  cases v <;> rfl

end Sys2Proof

namespace Sys2Proof.Machine

/-! ## LINE (R30) -/

theorem lineWord_getLsbD_zero (scl sda : Bool) : (lineWord scl sda).getLsbD 0 = scl := by
  cases scl <;> cases sda <;> rfl

theorem lineWord_getLsbD_one (scl sda : Bool) : (lineWord scl sda).getLsbD 1 = sda := by
  cases scl <;> cases sda <;> rfl

/-! ## The events on the step's bank (R111, R112, R116) -/

section
variable {s : State} {k : Bank} (hb : s.banks[s.bus]? = some k)
include hb

theorem exec_setScl (v : Bool) :
    exec (.setScl v) s = .next (s.setBank s.bus ({ k with scl := v }.emit (.scl v))) :=
  onBank_eq _ hb

theorem exec_setSda (v : Bool) :
    exec (.setSda v) s = .next (s.setBank s.bus ({ k with sda := v }.emit (.sda v))) :=
  onBank_eq _ hb

theorem exec_delay : exec .delay s = .next (s.setBank s.bus (k.emit .dly)) :=
  onBank_eq _ hb

end

/-- Settles O7: the step is `exec_setScl`, and bit 0 of LINE is `scl_out`. -/
theorem setSclDrivesClock : Obligations.SetSclDrivesClock :=
  fun _ k v hb => ⟨exec_setScl hb v, lineWord_getLsbD_zero v k.sda, Ev.code_scl v⟩

/-- Settles O8: the step is `exec_setSda`, and bit 1 of LINE is `sda_out`. -/
theorem setSdaDrivesData : Obligations.SetSdaDrivesData :=
  fun _ k v hb => ⟨exec_setSda hb v, lineWord_getLsbD_one k.scl v, Ev.code_sda v⟩

/-- Settles O10: the step is `exec_delay`. -/
theorem delayIsOnlyAnEvent : Obligations.DelayIsOnlyAnEvent :=
  fun _ _ hb => ⟨exec_delay hb, rfl⟩

end Sys2Proof.Machine
end

section
/-! PROOFS. The signal commands (41_signals.md): P_START, P_STOP, P_ACK and P_NACK, each one procedure call and the
completion step. -/

namespace Sys2Proof.Machine

/-- An accepted command whose engine comes to the end of its calls completes with STATUS 0 at the next step
(43_transactions.md R182). Of what acceptance changes in `k` the view shows only STATUS, which completion sets. -/
theorem commandRuns_of_reaches {s : State} {k : Bank} {op : Op} {f : CmdFields} {n r : Nat} {evs : List Ev}
    {scl sda : Bool} (hb : s.banks[s.bus]? = some k) (hbusy : k.status.busy = false)
    (hl : lenAccepted k.len.toNat op)
    (h : ∃ k', Reaches s.params.pollLimit (s.isLive s.bus) s.bus (k.accept op f (ruleCalls k.len.toNat op)) n r evs
      scl sda [] k') :
    CommandRuns s k (Instr.ofOp f op) (n + 1) r
      { k.view with
        scl := scl, sda := sda, status := { busy := false, fail := false, cause := .none }
        trace := k.trace ++ evs } := by
  obtain ⟨k₁, hcalls⟩ := h
  obtain ⟨k₂, hend⟩ := hcalls.completes
  exact commandRuns_of_endsAs hb hbusy hl hend

/-- Settles O17: the call of START (`reaches_start`) and the completion step. -/
theorem pStartRuns : Obligations.PStartRuns :=
  fun _ _ _ hb hbusy => commandRuns_of_reaches (op := .pStart) hb hbusy trivial (reaches_start rfl)

/-- Settles O18: the call of STOP (`reaches_stop`) and the completion step. -/
theorem pStopRuns : Obligations.PStopRuns :=
  fun _ _ _ hb hbusy => commandRuns_of_reaches (op := .pStop) hb hbusy trivial (reaches_stop rfl)

/-- Settles O19: the call of ACK (`reaches_ack`) and the completion step. -/
theorem pAckRuns : Obligations.PAckRuns :=
  fun _ _ _ hb hbusy => commandRuns_of_reaches (op := .pAck) hb hbusy trivial (reaches_ack rfl)

/-- Settles O20: the call of NACK (`reaches_nack`), which leaves `sda_out` alone, and the completion step. -/
theorem pNackRuns : Obligations.PNackRuns :=
  fun _ _ _ hb hbusy => commandRuns_of_reaches (op := .pNack) hb hbusy trivial (reaches_nack rfl)

end Sys2Proof.Machine
end

section
/-! PROOFS. The two ends of a command (43_transactions.md R180 to R183): the host's CMD write and the completion step. -/

namespace Sys2Proof

/-! ## Command words by their fields (R81, R83, R88) -/

theorem cmdRsv1_ne_zero_iff (w : Word) : cmdRsv1 w ≠ 0 ↔ w.getLsbD 15 = true := by
  have hbit : cmdRsv1 w = BitVec.ofBool (w.getLsbD 15) := by
    apply BitVec.eq_of_getLsbD_eq
    intro i hi
    simp [cmdRsv1, Nat.lt_one_iff.mp hi]
  rw [hbit]
  cases w.getLsbD 15 <;> decide

/-- The words `decodeCmd` rejects, by the bits of their fields (30_encoding.md R88). -/
theorem decodeCmd_error_iff_bits (w : Word) :
    (∃ r, decodeCmd w = .error r) ↔
      w.extractLsb' 0 4 = 0x0 ∨ w.extractLsb' 0 4 = 0x7 ∨ w.extractLsb' 0 4 = 0xF ∨ w.extractLsb' 4 4 ≠ 0 ∨
        w.getLsbD 15 = true := by
  rw [decodeCmd_error_iff, Op.ofCode_eq_none_iff, cmdRsv1_ne_zero_iff, or_assoc, or_assoc]
  rfl

/-- `Op.ofCode` answers an operation of the given code (30_encoding.md R87). -/
theorem Op.code_of_ofCode {c : BitVec 4} {op : Op} (h : Op.ofCode c = some op) : op.code = c :=
  eq_of_beq (List.find?_some (p := fun o : Op => o.code == c) h)

/-- A word that is not rejected decodes to the operation of its OP field, with its other fields (30_encoding.md R81). -/
theorem decodeCmd_ok_of_not_error {w : Word} (h : ¬ ∃ r, decodeCmd w = .error r) :
    ∃ op, op.code = cmdOp w ∧ decodeCmd w = .ok (Instr.ofOp (cmdFields w) op) := by
  rw [decodeCmd_error_iff, not_or, not_or, Decidable.not_not, Decidable.not_not] at h
  obtain ⟨hop, hrsv0, hrsv1⟩ := h
  obtain ⟨op, hop⟩ := Option.ne_none_iff_exists'.mp hop
  exact ⟨op, Op.code_of_ofCode hop, by simp [decodeCmd, hrsv0, hrsv1, hop]⟩

end Sys2Proof

namespace Sys2Proof.Machine

/-- The length check by OP code (43_transactions.md R183). -/
theorem badLen_eq_true_iff (op : Op) (n : BitVec 16) :
    badLen op n = true ↔
      ((op.code = 0x2 ∨ op.code = 0x6) ∧ n = 0) ∨
        ((op.code = 0x1 ∨ op.code = 0x2 ∨ op.code = 0x5 ∨ op.code = 0x6) ∧ 256 < n.toNat) := by
  simp only [badLen, Bool.or_eq_true, Bool.and_eq_true, decide_eq_true_eq]
  cases op <;> simp [readsIntoBuf, sendsFromBuf, Op.code, Config.bufSize]

/-- STATUS of an ended command: FAIL is set exactly where there is a cause (10_state.md R27). -/
theorem Status.ended_eq (c : Cause) :
    Status.ended c = { busy := false, fail := if c = .none then false else true, cause := c } := by
  cases c <;> rfl

/-! ## The CMD write on the step's bank (R180) -/

section
variable {s : State} {k : Bank} {w : Word} (hb : s.banks[s.bus]? = some k)
include hb

/-- A busy bank records the fault whatever the word is. -/
theorem cmdWrite_of_busy (hbusy : k.status.busy = true) :
    cmdWrite w s = .next (s.recordFault s.bus .busyAccess) := by
  unfold cmdWrite
  cases hd : decodeCmd w with
  | ok i =>
    obtain ⟨f, op, rfl⟩ := decodeCmd_ofOp hd
    simp [exec_ofOp, acceptCommand, hb, hbusy]
  | error r => simp [rejectIllegal, hb, hbusy]

variable (hidle : k.status.busy = false)
include hidle

theorem cmdWrite_of_illegal (hd : ∃ r, decodeCmd w = .error r) :
    cmdWrite w s = .next (s.setBank s.bus (k.reject .illegal)) := by
  obtain ⟨r, hd⟩ := hd
  simp [cmdWrite, hd, rejectIllegal, hb, hidle]

variable {op : Op} {f : CmdFields} (hd : decodeCmd w = .ok (Instr.ofOp f op))
include hd

theorem cmdWrite_of_badLen (hl : badLen op k.len = true) :
    cmdWrite w s = .next (s.setBank s.bus (k.reject .badLen)) := by
  simp [cmdWrite, hd, exec_ofOp, acceptCommand, hb, hidle, hl]

theorem cmdWrite_of_accepted (hl : badLen op k.len = false) :
    cmdWrite w s = .next (s.setBank s.bus (k.accept op f (ruleCalls k.len.toNat op))) := by
  rw [cmdWrite, hd]
  exact exec_accepted hb hidle ((badLen_eq_false_iff op k.len).mp hl)

end

/-- Settles O12: the step is the CMD write on bank b, and the four lemmas above are its outcomes in R180's order. -/
theorem cmdWriteIsHandledInOneStep : Obligations.CmdWriteIsHandledInOneStep := by
  intro s rest b k w hi hb op4 illegal badLength
  have hstep : step s = cmdWrite w { s with inputs := rest, bus := b } := step_store hb (by decide) hi
  rw [hstep]
  split
  case isTrue hbusy => exact cmdWrite_of_busy hb hbusy
  case isFalse hbusy =>
    have hidle := (Bool.not_eq_true _).mp hbusy
    split
    case isTrue hill => exact cmdWrite_of_illegal hb hidle ((decodeCmd_error_iff_bits w).mpr hill)
    case isFalse hill =>
      obtain ⟨op, hop, hd⟩ := decodeCmd_ok_of_not_error (mt (decodeCmd_error_iff_bits w).mp hill)
      have hlen : badLen op k.len = true ↔ badLength := by
        rw [badLen_eq_true_iff, hop]
        rfl
      split
      case isTrue hbad => exact cmdWrite_of_badLen hb hidle hd (hlen.mpr hbad)
      case isFalse hbad =>
        exact ⟨op, hop, cmdWrite_of_accepted hb hidle hd ((Bool.not_eq_true _).mp (mt hlen.mp hbad))⟩

/-! ## The completion step (R182) -/

/-- An engine with no event and no call left completes its command. -/
theorem Bank.engine_complete {k : Bank} {cause : Cause} (limit : BitVec 16) (live : Bool) (b : Nat)
    (h : k.seq = .run [] [] cause) : k.engine limit live b = .ok (k.complete cause) := by
  simp [Bank.engine, h, nextOp]

/-- Settles O45: the engine's step is `Bank.complete` on the bank. -/
theorem completionStepEndsCommand : Obligations.CompletionStepEndsCommand := by
  intro s rest b k cause hi hb hseq
  have hbank : ({ s with inputs := rest } : State).banks[b]? = some k := hb
  rw [step_engine hi, engineStep_eq hbank, Bank.engine_complete _ _ _ hseq, ← Status.ended_eq]
  rfl

end Sys2Proof.Machine
end

section
/-! PROOFS. Decoding and encoding are inverse (30_encoding.md R81, R82, R87, R89): the fields of an encoded command
word, a word put together again from its fields, and one word of every row. -/

namespace Sys2Proof

/-! ## The fields of an encoded command word (R81) -/

section
variable (o : Op) (f : CmdFields)

@[simp] theorem cmdOp_cmdWord : cmdOp (cmdWord o f) = o.code :=
  BitVec.extractLsb'_append_eq_right

@[simp] theorem cmdRsv0_cmdWord : cmdRsv0 (cmdWord o f) = 0 :=
  (BitVec.extractLsb'_append_eq_of_le (by decide)).trans BitVec.extractLsb'_append_eq_right

@[simp] theorem cmdRsv1_cmdWord : cmdRsv1 (cmdWord o f) = 0 := by
  simp (disch := decide) only [cmdRsv1, cmdWord, BitVec.extractLsb'_append_eq_of_le]
  exact BitVec.extractLsb'_append_eq_right

@[simp] theorem cmdFields_cmdWord : cmdFields (cmdWord o f) = f := by
  have haddr : (cmdWord o f).extractLsb' 8 7 = f.addr := by
    simp (disch := decide) only [cmdWord, BitVec.extractLsb'_append_eq_of_le]
    exact BitVec.extractLsb'_append_eq_right
  have hreg : (cmdWord o f).extractLsb' 16 8 = f.reg := by
    simp (disch := decide) only [cmdWord, BitVec.extractLsb'_append_eq_of_le]
    exact BitVec.extractLsb'_append_eq_right
  have hdata : (cmdWord o f).extractLsb' 24 8 = f.data := by
    simp (disch := decide) only [cmdWord, BitVec.extractLsb'_append_eq_of_le]
    exact BitVec.extractLsb'_eq_self
  simp [cmdFields, haddr, hreg, hdata]

end

@[simp] theorem Op.ofCode_code (o : Op) : Op.ofCode o.code = some o := by
  cases o <;> rfl

@[simp] theorem decodeCmd_cmdWord (o : Op) (f : CmdFields) : decodeCmd (cmdWord o f) = .ok (Instr.ofOp f o) := by
  simp [decodeCmd]

/-! ## Decode after encode (R81, R82) -/

@[simp] theorem Instr.nbits_ofOp (f : CmdFields) (o : Op) : (Instr.ofOp f o).nbits = 32 := by
  cases o <;> rfl

/-- A table row of 32 bits is a command word. -/
theorem decodeTableWord_toNat (w : Word) : decodeTableWord 32 w.toNat = (decodeCmd w).toOption := by
  simp [decodeTableWord, Nat.mod_eq_of_lt w.isLt]

theorem decodeTableWord_encode_ofOp (f : CmdFields) (o : Op) :
    decodeTableWord (Instr.ofOp f o).nbits (encode (Instr.ofOp f o)) = some (Instr.ofOp f o) := by
  rw [Instr.nbits_ofOp, encode_ofOp, decodeTableWord_toNat, decodeCmd_cmdWord]
  rfl

/-- Settles O2: a command by the fields of its word, whatever they hold, a line event by evaluation at each level. -/
theorem decodeOfEncode : Obligations.DecodeOfEncode
  | .write f => decodeTableWord_encode_ofOp f .write
  | .read f => decodeTableWord_encode_ofOp f .read
  | .writeReg f => decodeTableWord_encode_ofOp f .writeReg
  | .readReg f => decodeTableWord_encode_ofOp f .readReg
  | .writeRegMulti f => decodeTableWord_encode_ofOp f .writeRegMulti
  | .readRegMulti f => decodeTableWord_encode_ofOp f .readRegMulti
  | .pStart f => decodeTableWord_encode_ofOp f .pStart
  | .pStop f => decodeTableWord_encode_ofOp f .pStop
  | .pAck f => decodeTableWord_encode_ofOp f .pAck
  | .pNack f => decodeTableWord_encode_ofOp f .pNack
  | .pAckwait f => decodeTableWord_encode_ofOp f .pAckwait
  | .pSend f => decodeTableWord_encode_ofOp f .pSend
  | .pRecv f => decodeTableWord_encode_ofOp f .pRecv
  | .setScl v => by cases v <;> decide
  | .setSda v => by cases v <;> decide
  | .readSda v => by cases v <;> decide
  | .delay => by decide

/-! ## Encode after decode (R81, R89) -/

/-- A word is its six fields side by side (30_encoding.md R81). -/
theorem fields_append (w : Word) :
    w.extractLsb' 24 8 ++ w.extractLsb' 16 8 ++ cmdRsv1 w ++ w.extractLsb' 8 7 ++ cmdRsv0 w ++ cmdOp w = w := by
  have h24 : w.extractLsb' 24 8 ++ w.extractLsb' 16 8 = w.extractLsb' 16 16 :=
    BitVec.extractLsb'_append_extractLsb'_eq_extractLsb' rfl
  have h16 : w.extractLsb' 16 16 ++ cmdRsv1 w = w.extractLsb' 15 17 :=
    BitVec.extractLsb'_append_extractLsb'_eq_extractLsb' rfl
  have h15 : w.extractLsb' 15 17 ++ w.extractLsb' 8 7 = w.extractLsb' 8 24 :=
    BitVec.extractLsb'_append_extractLsb'_eq_extractLsb' rfl
  have h8 : w.extractLsb' 8 24 ++ cmdRsv0 w = w.extractLsb' 4 28 :=
    BitVec.extractLsb'_append_extractLsb'_eq_extractLsb' rfl
  have h4 : w.extractLsb' 4 28 ++ cmdOp w = w := BitVec.extractLsb'_append_extractLsb'
  rw [h24, h16, h15, h8, h4]

/-- What a word that decodes holds: reserved bits 0 and the code of an operation (30_encoding.md R83, R87). -/
theorem decodeCmd_ok {w : Word} {i : Instr} (h : decodeCmd w = .ok i) :
    ∃ o : Op, cmdRsv0 w = 0 ∧ cmdRsv1 w = 0 ∧ o.code = cmdOp w ∧ i = Instr.ofOp (cmdFields w) o := by
  unfold decodeCmd at h
  split at h
  case isFalse => cases h
  case isTrue hrsv =>
    cases hop : Op.ofCode (cmdOp w) with
    | none => rw [hop] at h; cases h
    | some o =>
      rw [hop] at h
      cases h
      exact ⟨o, hrsv.1, hrsv.2, Op.code_of_ofCode hop, rfl⟩

/-- Settles O3: the word that decodes is put together again from its fields. -/
theorem encodeOfDecodedCommand : Obligations.EncodeOfDecodedCommand := by
  intro w i h
  obtain ⟨o, hrsv0, hrsv1, hop, rfl⟩ := decodeCmd_ok h
  have hw : cmdWord o (cmdFields w) = w := by
    rw [cmdWord, hop, ← hrsv0, ← hrsv1]
    exact fields_append w
  rw [encode_ofOp, hw]
  exact ⟨rfl, Instr.nbits_ofOp _ _⟩

/-- Settles O1: every word by evaluation. -/
theorem specWordsDecode : Obligations.SpecWordsDecode := by
  unfold Obligations.SpecWordsDecode
  decide

end Sys2Proof
end

section
/-! PROOFS. What every step keeps: the invariant `State.Ok` (10_state.md R24 to R27, R32, R38), the parameters and the
number of banks (00_scope.md R15). -/

namespace Sys2Proof.Machine

/-! ## What a step can be -/

/-- A step that answers a next state is a host access, the reset input, or a move of an engine, its own or the free
schedule's, on a state with the same parameters and banks (00_scope.md R14). -/
theorem step_cases {s t : State} (h : step s = .next t) :
    (∃ a rest, s.inputs = .host a :: rest ∧ hostStep a { s with inputs := rest } = .next t) ∨
      (∃ rest, s.inputs = .reset :: rest ∧ t = ({ s with inputs := rest } : State).resetInput) ∨
      ∃ (c : Nat) (u : State), u.params = s.params ∧ u.banks = s.banks ∧ engineStep c u = .next t := by
  unfold step move at h
  split at h
  · next a rest hi =>
    cases a with
    | host a => exact .inl ⟨a, rest, hi, h⟩
    | engine c => exact .inr (.inr ⟨c, { s with inputs := rest }, rfl, rfl, h⟩)
    | reset => cases h; exact .inr (.inl ⟨rest, hi, rfl⟩)
  · refine .inr (.inr ⟨_, (freeMove s).2, ?_, ?_, h⟩) <;>
      rcases freeMove_cases s with ⟨-, e⟩ | ⟨-, e⟩ <;> rw [e]

/-- Settles O41: neither a host access, nor an engine's step, nor the reset input changes them. -/
theorem stepKeepsParameters : Obligations.StepKeepsParameters := by
  intro s t h
  rcases step_cases h with ⟨a, rest, -, ht⟩ | ⟨rest, -, rfl⟩ | ⟨c, u, hp, hb, ht⟩
  case inl =>
    obtain ⟨t', ht', keep, -⟩ := hostStep_keeps a { s with inputs := rest }
    cases ht'.symm.trans ht
    exact ⟨keep.params, keep.length⟩
  case inr.inl => exact ⟨rfl, by simp⟩
  case inr.inr =>
    rcases engineStep_moves c u with ⟨i, hf⟩ | ⟨t', ht', keep, -⟩
    · rw [hf] at ht
      cases ht
    · cases ht'.symm.trans ht
      exact ⟨keep.params.trans hp, by rw [keep.length, hb]⟩

/-! ## The pieces of a step keep `Bank.Ok` -/

section
variable {k : Bank}

/-- A bank that is not busy is idle (10_state.md R25, R38). -/
theorem Bank.Ok.idle (h : k.Ok) (hk : k.status.busy = false) : k.seq = .idle := by
  simpa [hk] using h.busyIffRunning

theorem Bank.reset_ok : Bank.reset.Ok := by
  refine ⟨Memory.wf_nil, ?_, ?_, ?_⟩ <;> simp [Bank.reset]

theorem Bank.afterReset_ok (k : Bank) : k.afterReset.Ok := by
  obtain ⟨hbuf, hbusy, hcause, hfail⟩ := Bank.reset_ok
  exact ⟨hbuf, hbusy, hcause, hfail⟩

theorem Bank.Ok.reject (h : k.Ok) (hk : k.status.busy = false) (c : Cause) : (k.reject c).Ok where
  bufCanonical := h.bufCanonical
  busyIffRunning := by simp [h.idle hk]
  causeIffFail := (Status.ended_fail c).symm
  busyNoFail := by simp

theorem Bank.Ok.accept (h : k.Ok) (op : Op) (f : CmdFields) (calls : List Call) : (k.accept op f calls).Ok where
  bufCanonical := h.bufCanonical
  busyIffRunning := by simp
  causeIffFail := by simp [Status.running]
  busyNoFail := by simp [Status.running]

/-- A store changes BUF and LEN only, and BUF inside its 256 bytes (20_memory.md R61, R62). -/
theorem Bank.Ok.storeEffect {k' : Bank} {w off : Nat} {v : Word} (h : k.Ok) (ho : off < 0x200)
    (he : storeEffect k v (accessTarget w off) = .ok k') : k'.Ok := by
  obtain ⟨hbuf, hbusy, hcause, hfail⟩ := h
  cases ht : accessTarget w off <;> rw [ht] at he <;> cases he
  case buf8 i =>
    exact ⟨Memory.write_wf _ ((accessTarget_buf ho).1 ht) hbuf, hbusy, hcause, hfail⟩
  case buf32 i =>
    exact ⟨Memory.write32_wf v ((accessTarget_buf ho).2 ht) hbuf, hbusy, hcause, hfail⟩
  all_goals exact ⟨hbuf, hbusy, hcause, hfail⟩

end

/-! ## The pieces of a step keep `State.Ok` -/

/-- The invariant speaks of the parameters and the banks only. -/
theorem State.Ok.congr {s t : State} (h : s.Ok) (hp : t.params = s.params) (hb : t.banks = s.banks) : t.Ok :=
  ⟨hb ▸ h.someBank, hp ▸ h.pollLimitPos, hb ▸ h.banksOk⟩

theorem State.Ok.resetInput {s : State} (h : s.Ok) : s.resetInput.Ok where
  someBank := by simpa using h.someBank
  pollLimitPos := h.pollLimitPos
  banksOk := by
    intro k hk
    obtain ⟨q, -, rfl⟩ := List.mem_map.mp hk
    exact q.afterReset_ok

theorem acceptCommand_ok {op : Op} {f : CmdFields} {calls : Nat → List Call} {s t : State} (hs : s.Ok)
    (h : acceptCommand op f calls s = .next t) : t.Ok := by
  obtain ⟨k, hb, ⟨-, rfl⟩ | ⟨hk, -, rfl⟩ | ⟨-, -, rfl⟩⟩ := acceptCommand_cases h
  · exact hs.congr rfl rfl
  · exact hs.setBank ((hs.bank hb).reject hk _)
  · exact hs.setBank ((hs.bank hb).accept _ _ _)

theorem cmdWrite_ok {w : Word} {s t : State} (hs : s.Ok) (h : cmdWrite w s = .next t) : t.Ok := by
  unfold cmdWrite at h
  split at h
  · next i hd =>
    obtain ⟨f, op, rfl⟩ := decodeCmd_ofOp hd
    rw [exec_ofOp] at h
    exact acceptCommand_ok hs h
  · obtain ⟨k, hb, ⟨-, rfl⟩ | ⟨hk, rfl⟩⟩ := rejectIllegal_cases h
    · exact hs.congr rfl rfl
    · exact hs.setBank ((hs.bank hb).reject hk _)

theorem hostLoad_ok {s : State} (hs : s.Ok) (b : Nat) (k : Bank) (t : Target) : (hostLoad b k t s).Ok := by
  rcases hostLoad_cases b k t s with ⟨v, -, e⟩ | ⟨f, e⟩ <;> rw [e] <;> exact hs.congr rfl rfl

theorem hostStore_ok {s : State} {b off : Nat} {k : Bank} (hs : s.Ok) (hb : s.banks[b]? = some k) (ho : off < 0x200)
    (w : Nat) (v : Word) : (hostStore b k (accessTarget w off) v s).Ok := by
  rcases hostStore_cases b k (accessTarget w off) v s with ⟨-, k', hk', e⟩ | ⟨f, e⟩ <;> rw [e]
  · exact hs.setBank ((hs.bank hb).storeEffect ho hk')
  · exact hs.congr rfl rfl

/-- An offset lies inside a bank (20_memory.md R51). -/
theorem selectBank_offset {n a b off : Nat} (h : selectBank n a = some (b, off)) : off < 0x200 := by
  unfold selectBank at h
  split at h <;> cases h
  exact Nat.mod_lt _ (by decide)

theorem hostStep_ok {a : Access} {s t : State} (hs : s.Ok) (h : hostStep a s = .next t) : t.Ok := by
  have onBus : ∀ b, ({ s with bus := b } : State).Ok := fun b => hs.congr rfl rfl
  cases a with
  | load x w =>
    simp only [hostStep] at h
    split at h
    · cases h; exact hs
    · split at h <;> cases h
      · exact hs
      · exact hostLoad_ok (onBus _) _ _ _
  | store x w v =>
    simp only [hostStep] at h
    split at h
    · cases h; exact hs
    · next b off hsel =>
      split at h
      · cases h; exact hs
      · next k hb =>
        split at h
        · exact cmdWrite_ok (onBus b) h
        · cases h
          exact hostStore_ok (onBus b) hb (selectBank_offset hsel) w v

/-- Settles O39: a host access, the reset input and an engine's step each keep the invariant. -/
theorem stepKeepsInvariant : Obligations.StepKeepsInvariant := by
  intro s t hs h
  rcases step_cases h with ⟨a, rest, -, ht⟩ | ⟨rest, -, rfl⟩ | ⟨c, u, hp, hb, ht⟩
  · exact hostStep_ok (s := { s with inputs := rest }) (hs.congr rfl rfl) ht
  · exact State.Ok.resetInput (hs.congr rfl rfl)
  · exact (engineStep_keeps (hs.congr hp hb) ht).1

/-- Settles O40: every bank after reset is `Bank.reset`. -/
theorem resetMeetsInvariant : Obligations.ResetMeetsInvariant where
  someBank := by decide
  pollLimitPos := by decide
  banksOk := by
    intro k hk
    obtain ⟨-, rfl⟩ := List.mem_replicate.mp hk
    exact Bank.reset_ok

end Sys2Proof.Machine
end

section
/-! PROOFS. What an instruction does to the step's bank and what it leaves alone: the line events (40_line_driver.md
R110 to R117) and the CMD write (43_transactions.md R180 to R183), on a bank that exists and
on none (30_encoding.md R86). -/

namespace Sys2Proof.Machine

/-! ## On the step's bank, or on none -/

theorem onBank_cases {s t : State} {g : Bank → Bank} (h : onBank s g = .next t) :
    ∃ k, s.banks[s.bus]? = some k ∧ t = s.setBank s.bus (g k) := by
  unfold onBank at h
  split at h <;> cases h
  exact ⟨_, ‹_›, rfl⟩

/-- A line event is `Bank.event` on the step's bank (40_line_driver.md R110). -/
theorem exec_eventInstr (e : Bool) (m : Micro) (s : State) :
    exec (eventInstr e m) s = onBank s (fun k => k.event (s.isLive s.bus) e m) := by
  cases m <;> rfl

/-- Every instruction is a command or a line event. -/
theorem Instr.ofOp_or_eventInstr : ∀ i : Instr, (∃ f op, i = Instr.ofOp f op) ∨ ∃ e m, i = eventInstr e m
  | .write f => .inl ⟨f, .write, rfl⟩
  | .read f => .inl ⟨f, .read, rfl⟩
  | .writeReg f => .inl ⟨f, .writeReg, rfl⟩
  | .readReg f => .inl ⟨f, .readReg, rfl⟩
  | .writeRegMulti f => .inl ⟨f, .writeRegMulti, rfl⟩
  | .readRegMulti f => .inl ⟨f, .readRegMulti, rfl⟩
  | .pStart f => .inl ⟨f, .pStart, rfl⟩
  | .pStop f => .inl ⟨f, .pStop, rfl⟩
  | .pAck f => .inl ⟨f, .pAck, rfl⟩
  | .pNack f => .inl ⟨f, .pNack, rfl⟩
  | .pAckwait f => .inl ⟨f, .pAckwait, rfl⟩
  | .pSend f => .inl ⟨f, .pSend, rfl⟩
  | .pRecv f => .inl ⟨f, .pRecv, rfl⟩
  | .setScl v => .inr ⟨true, .scl v, rfl⟩
  | .setSda v => .inr ⟨true, .sda v, rfl⟩
  | .readSda v => .inr ⟨v, .read .poll, rfl⟩
  | .delay => .inr ⟨true, wait, rfl⟩

/-- Settles O16: a command finds no bank at its CMD write, a line event none to change. -/
theorem noBankStops : Obligations.NoBankStops := by
  intro s i h
  have hb : s.banks[s.bus]? = none := List.getElem?_eq_none h
  obtain ⟨f, op, rfl⟩ | ⟨e, m, rfl⟩ := Instr.ofOp_or_eventInstr i
  · simp [exec_ofOp, acceptCommand, hb]
  · simp [exec_eventInstr, onBank, hb]

/-! ## The line events (R110 to R117) -/

theorem readLevel_live (sda e : Bool) : readLevel true sda e = (sda && e) := rfl

theorem readLevel_placeholder (sda e : Bool) : readLevel false sda e = e := rfl

theorem State.isLive_iff (s : State) (b : Nat) : s.isLive b = true ↔ b ∈ s.params.live := by
  simp [State.isLive]

theorem exec_readSda {s : State} {k : Bank} (hb : s.banks[s.bus]? = some k) (e : Bool) :
    exec (.readSda e) s = .next (s.setBank s.bus (k.emit (.rd (readLevel (s.isLive s.bus) k.sda e)))) :=
  onBank_eq _ hb

theorem Ev.code_rd (r : Bool) : (Ev.rd r).code = if r = true then 0x06 else 0x02 := by
  cases r <;> rfl

/-- Settles O9: the step is `exec_readSda`, and LIVE decides which level is read. -/
theorem readSdaRecordsLevel : Obligations.ReadSdaRecordsLevel := by
  intro s k e hb
  refine ⟨fun hlive => ?_, fun hlive => ?_, Ev.code_rd⟩ <;> rw [exec_readSda hb]
  · rw [(s.isLive_iff _).mpr hlive, readLevel_live]
    rfl
  · rw [(Bool.not_eq_true _).mp (mt (s.isLive_iff _).mp hlive), readLevel_placeholder]
    rfl

/-- An event appends itself to the trace and sets at most the output it names. -/
theorem Bank.event_frame (live e : Bool) (k : Bank) (m : Micro) :
    ∃ scl sda ev, k.event live e m = { k with scl := scl, sda := sda, trace := k.trace ++ [ev] } ∧
      ((∀ v, m ≠ .scl v) → scl = k.scl) ∧ ((∀ v, m ≠ .sda v) → sda = k.sda) := by
  cases m with
  | scl v => exact ⟨v, k.sda, .scl v, rfl, fun h => absurd rfl (h v), fun _ => rfl⟩
  | sda v => exact ⟨k.scl, v, .sda v, rfl, fun _ => rfl, fun h => absurd rfl (h v)⟩
  | dly fx => exact ⟨k.scl, k.sda, .dly, rfl, fun _ => rfl, fun _ => rfl⟩
  | read u => exact ⟨k.scl, k.sda, _, rfl, fun _ => rfl, fun _ => rfl⟩

/-- Settles O11: the step's bank takes `Bank.event`, whose frame is `Bank.event_frame`. -/
theorem lineEventFrame : Obligations.LineEventFrame := by
  intro s t i hi h
  obtain ⟨e, m, rfl⟩ : ∃ e m, i = eventInstr e m := by
    obtain ⟨v, rfl | rfl | rfl | rfl⟩ := hi
    · exact ⟨true, .scl v, rfl⟩
    · exact ⟨true, .sda v, rfl⟩
    · exact ⟨v, .read .poll, rfl⟩
    · exact ⟨true, wait, rfl⟩
  rw [exec_eventInstr] at h
  obtain ⟨k, hb, rfl⟩ := onBank_cases h
  obtain ⟨scl, sda, ev, hev, hscl, hsda⟩ := k.event_frame (s.isLive s.bus) e m
  simp only [hev]
  refine ⟨⟨rfl, rfl, rfl, rfl, rfl, rfl, rfl, by simp⟩, fun c hc => State.setBank_get_other _ _ _ _ hc,
    k, _, ev, hb, State.setBank_get _ _ _ _ hb, rfl, fun hne => hscl fun v hm => ?_, fun hne => hsda fun v hm => ?_,
    rfl, rfl, rfl, fun _ => rfl, rfl, rfl, rfl, rfl, rfl, rfl, rfl, rfl, rfl, rfl, rfl, rfl⟩
  · exact hne v (by rw [hm]; rfl)
  · exact hne v (by rw [hm]; rfl)

/-! ## The CMD write (R180 to R183) -/

/-- Settles O13: `exec_accepted`, with the bank written out. -/
theorem commandIsAccepted : Obligations.CommandIsAccepted :=
  fun _ _ _ _ hb hbusy hl => exec_accepted hb hbusy hl

/-- Settles O14: `badLen` is the length check, so the CMD write answers `Bank.reject`. -/
theorem badLengthIsRejected : Obligations.BadLengthIsRejected := by
  intro s k op f hb hbusy hl
  have hbad : badLen op k.len = true := (Bool.not_eq_false _).mp (mt (badLen_eq_false_iff op k.len).mp hl)
  have hreject : exec (Instr.ofOp f op) s = .next (s.setBank s.bus (k.reject .badLen)) := by
    simp [exec_ofOp, acceptCommand, hb, hbusy, hbad]
  exact hreject

/-- A CMD write leaves a busy bank alone and records a fault; of an idle one it writes at most the latch, STATUS and
the sequencer. -/
theorem acceptCommand_frame {op : Op} {f : CmdFields} {calls : Nat → List Call} {s t : State}
    (h : acceptCommand op f calls s = .next t) :
    ∃ k k', s.banks[s.bus]? = some k ∧
      (∃ o a r d l st sq, k' = { k with
        latOp := o, latAddr := a, latReg := r, latData := d, latLen := l, status := st, seq := sq }) ∧
      (k.status.busy = true ∧ k' = k ∧ t = s.recordFault s.bus .busyAccess ∨
        k.status.busy = false ∧ t = s.setBank s.bus k') := by
  obtain ⟨k, hb, ⟨hbusy, rfl⟩ | ⟨hbusy, -, rfl⟩ | ⟨hbusy, -, rfl⟩⟩ := acceptCommand_cases h
  · exact ⟨k, k, hb, ⟨_, _, _, _, _, _, _, rfl⟩, .inl ⟨hbusy, rfl, rfl⟩⟩
  · exact ⟨k, _, hb, ⟨_, _, _, _, _, _, _, rfl⟩, .inr ⟨hbusy, rfl⟩⟩
  · exact ⟨k, _, hb, ⟨_, _, _, _, _, _, _, rfl⟩, .inr ⟨hbusy, rfl⟩⟩

/-- Settles O15: the state around the bank by the two outcomes of `acceptCommand_frame`, the bank by its frame. -/
theorem commandFrame : Obligations.CommandFrame := by
  intro s t op f h
  rw [exec_ofOp] at h
  obtain ⟨k, k', hb, ⟨o, a, r, d, l, st, sq, hk'⟩, ⟨hbusy, heq, rfl⟩ | ⟨hbusy, rfl⟩⟩ := acceptCommand_frame h
  case inl =>
    refine ⟨⟨rfl, rfl, rfl, rfl, rfl, rfl, rfl⟩, fun _ _ => rfl, k, k, hb, hb, rfl, rfl, rfl, rfl, fun _ => rfl, rfl,
      rfl, rfl, rfl, rfl, rfl, rfl, fun _ => ⟨rfl, rfl⟩, fun hidle => ?_⟩
    cases hbusy.symm.trans hidle
  case inr =>
    subst hk'
    refine ⟨⟨rfl, rfl, rfl, rfl, rfl, rfl, by simp⟩, fun c hc => State.setBank_get_other _ _ _ _ hc, k, _, hb,
      State.setBank_get _ _ _ _ hb, rfl, rfl, rfl, rfl, fun _ => rfl, rfl, rfl, rfl, rfl, rfl, rfl, rfl,
      fun hb' => ?_, fun _ => rfl⟩
    cases hbusy.symm.trans hb'

end Sys2Proof.Machine
end

section
/-! PROOFS. The step (00_scope.md R14): what it runs for each move of an agent, what an engine's step depends on, and
the state after a reset. -/

namespace Sys2Proof.Machine

/-! ## What an engine's step is -/

theorem engineStep_of_ok {s : State} {b : Nat} {k k' : Bank} (hb : s.banks[b]? = some k)
    (hk : k.engine s.params.pollLimit (s.isLive b) b = .ok k') :
    engineStep b s = .next ({ s with bus := b }.setBank b k') := by
  rw [engineStep_eq hb, hk]

/-- The engine of no bank changes nothing (00_scope.md R14). -/
theorem engineStep_of_none {s : State} {b : Nat} (hb : s.banks[b]? = none) : engineStep b s = .next s := by
  simp [engineStep, hb]

/-- An engine's step that answers a next state changes nothing, having no bank, or is `Bank.engine` on its bank. -/
theorem engineStep_cases {s t : State} {b : Nat} (h : engineStep b s = .next t) :
    (s.banks[b]? = none ∧ t = s) ∨
      ∃ k k', s.banks[b]? = some k ∧ k.engine s.params.pollLimit (s.isLive b) b = .ok k' ∧
        t = ({ s with bus := b } : State).setBank b k' := by
  cases hb : s.banks[b]? with
  | none =>
    cases (engineStep_of_none hb).symm.trans h
    exact .inl ⟨rfl, rfl⟩
  | some k =>
    rw [engineStep_eq hb] at h
    split at h <;> cases h
    exact .inr ⟨k, _, rfl, ‹_›, rfl⟩

/-! ## A command's step, an engine's step -/

/-- Settles O43: the store reaches CMD, and `cmdWrite` executes what the word decodes to. -/
theorem stepRunsDecodedCommand : Obligations.StepRunsDecodedCommand := by
  intro s rest b w i hb hi hd
  have hcmd : step s = cmdWrite w { s with inputs := rest, bus := b } :=
    step_store (List.getElem?_eq_getElem hb) (by decide) hi
  rw [hcmd, cmdWrite, hd]

/-- Settles O46: an idle engine puts its bank back as it was. -/
theorem idleEngineChangesNothing : Obligations.IdleEngineChangesNothing := by
  intro s rest b k hi hb hseq
  rw [step_engine hi]
  simp [engineStep, hb, hseq]

/-- Settles O34: `engine_sendBuf_uninit` on the bank. -/
theorem sendingAnUnwrittenByteStops : Obligations.SendingAnUnwrittenByteStops := by
  intro s k b i calls cause hb hseq hread
  rw [engineStep_eq hb, engine_sendBuf_uninit hseq hread]

theorem Bank.engine_perform {k k' : Bank} {todo todo' : List Micro} {calls calls' : List Call} {cause : Cause}
    {m : Micro} (limit : BitVec 16) (live : Bool) (b : Nat) (hseq : k.seq = .run todo calls cause)
    (hnext : nextOp k todo calls = .perform k' m todo' calls') :
    k.engine limit live b = .ok (k'.perform limit live b m todo' calls' cause) := by
  simp [Bank.engine, hseq, hnext]

/-- Settles O44: `Bank.perform` is the draw, then the event, which is `exec` of its instruction, then `afterEvent`. -/
theorem stepRunsLineEvent : Obligations.StepRunsLineEvent := by
  intro s rest b k k' todo todo' calls calls' cause m hi hb hseq hnext
  have hb' : ∀ q, (({ s with inputs := rest, bus := b } : State).setBank b q).banks[b]? = some q :=
    fun q => State.setBank_get _ b k q hb
  obtain ⟨e, k₁, hdraw⟩ : ∃ e k₁, k'.drawFor b m = (e, k₁) := ⟨_, _, rfl⟩
  refine ⟨e, k₁, ({ s with inputs := rest, bus := b } : State).setBank b (k₁.event (s.isLive b) e m),
    k₁.event (s.isLive b) e m, ?read, ?noRead, ?exec, hb' _, ?step⟩
  case read =>
    rintro use rfl
    exact hdraw.symm
  case noRead =>
    intro hne
    cases m with
    | read use => exact absurd rfl (hne use)
    | _ => cases hdraw; rfl
  case exec =>
    rw [exec_eventInstr]
    exact (onBank_eq _ (hb' k₁)).trans (congrArg _ (State.setBank_setBank _ _ _ _))
  case step =>
    have hperform := Bank.engine_perform s.params.pollLimit (s.isLive b) b hseq hnext
    rw [Bank.perform, hdraw] at hperform
    rw [step_engine hi, State.setBank_setBank]
    exact engineStep_of_ok (s := { s with inputs := rest }) hb hperform

/-! ## What an engine's step depends on (20_memory.md R67) -/

/-- An engine's step leaves the moves to come alone, and does the same whatever they are. -/
theorem engineStep_inputs {b : Nat} {s u : State} {l : List Action} (h : engineStep b { s with inputs := l } = .next u)
    (l' : List Action) : u.inputs = l ∧ engineStep b { s with inputs := l' } = .next { u with inputs := l' } := by
  obtain ⟨hb, rfl⟩ | ⟨k, k', hb, hk, rfl⟩ := engineStep_cases h
  · exact ⟨rfl, engineStep_of_none hb⟩
  · exact ⟨rfl, engineStep_of_ok (s := { s with inputs := l' }) hb hk⟩

/-- Settles O47: each step of the engine takes its own move from the inputs and leaves the rest. -/
theorem engineRunIsMachineRun : Obligations.EngineRunIsMachineRun := by
  intro s b n rest t h
  induction n generalizing s with
  | zero => exact h
  | succ n ih =>
    simp only [runEngine] at h
    split at h
    case h_1 u hu =>
      obtain ⟨hinputs, hstep⟩ := engineStep_inputs hu (List.replicate n (.engine b) ++ rest)
      subst hinputs
      let s' : State := { s with inputs := .engine b :: (List.replicate n (.engine b) ++ u.inputs) }
      have hfirst : core.step s' = _ := (step_engine (s := s') rfl).trans hstep
      exact (run_first hfirst).trans (ih u h)
    all_goals cases h

/-- Settles O42: the step is `Bank.engine` of bank b, with the limit and the liveness of the parameters. -/
theorem banksAreIndependent : Obligations.BanksAreIndependent := by
  intro b s₁ s₂ t₁ h
  obtain ⟨hb, rfl⟩ | ⟨k, k', hb, hk, rfl⟩ := engineStep_cases h
  · exact ⟨fun _ _ => rfl, rfl, rfl, fun _ hs => ⟨s₂, engineStep_of_none (hs.trans hb), hs⟩⟩
  · refine ⟨fun c hc => State.setBank_get_other _ _ _ _ hc, rfl, rfl, fun hp hs => ?_⟩
    have hk₂ : k.engine s₂.params.pollLimit (s₂.isLive b) b = .ok k' := by
      rw [State.isLive, hp]
      exact hk
    exact ⟨_, engineStep_of_ok (hs.trans hb) hk₂,
      (State.setBank_get _ _ _ _ (hs.trans hb)).trans (State.setBank_get _ _ _ _ hb).symm⟩

/-! ## Reset (10_state.md R44, 70_reset_and_hazards.md R260, R262) -/

/-- Settles O57: every bank after reset is `Bank.reset`. -/
theorem resetValues : Obligations.ResetValues := by
  refine ⟨rfl, rfl, rfl, fun k hk => ?_⟩
  obtain ⟨-, rfl⟩ := List.mem_replicate.mp hk
  exact ⟨rfl, rfl, rfl, rfl, rfl, rfl, fun _ => rfl, rfl, rfl⟩

/-- Settles O58: every bank is `Bank.afterReset` of what it was, which keeps the environment alone. -/
theorem resetInputResetsEveryBank : Obligations.ResetInputResetsEveryBank := by
  intro s rest hi
  refine ⟨({ s with inputs := rest } : State).resetInput, by simp [step, move, hi, act], by simp, rfl, rfl, rfl, rfl,
    fun k hk => ?_, fun b k k' hb hb' => ?_⟩
  · obtain ⟨q, -, rfl⟩ := List.mem_map.mp hk
    exact ⟨rfl, rfl, rfl, rfl, rfl, fun _ => rfl, rfl, rfl⟩
  · rw [State.resetInput_banks, List.getElem?_map, hb] at hb'
    cases hb'
    exact ⟨rfl, rfl⟩

end Sys2Proof.Machine
end

section
/-! PROOFS. The host port (20_memory.md R51 to R65): what a load answers, what a store changes, and which accesses
only record a fault. -/

namespace Sys2Proof.Machine

/-! ## The step at an access that faults, at a load that answers -/

section
variable {s : State} {rest : List Action} {b off w : Nat} {k : Bank} {t : Target}

/-- A load that is answered changes nothing but the host's reads (20_memory.md R60). -/
theorem step_load_of_ok {v : Word} (hb : s.banks[b]? = some k) (ho : off < 0x200)
    (hi : s.inputs = .host (.load (bankAddr b off) w) :: rest) (ht : accessTarget w off = t)
    (hk : k.status.busy = false ∨ readableWhileBusy t = true) (hv : loadValue k t = .ok v) :
    step s = .next { s with inputs := rest, bus := b, reads := s.reads ++ [some v] } := by
  have hload : hostLoad b k t { s with inputs := rest, bus := b } =
      ({ s with inputs := rest, bus := b } : State).answerHost (some v) := by
    rcases hk with hk | hk <;> simp [hostLoad, hk, hv]
  rw [step_load hb ho hi, ht, hload]
  rfl

/-- A load of an idle bank that has no value records why (20_memory.md R54, R55, R64). -/
theorem step_load_of_error {f : ModelFault} (hb : s.banks[b]? = some k) (ho : off < 0x200)
    (hi : s.inputs = .host (.load (bankAddr b off) w) :: rest) (ht : accessTarget w off = t)
    (hk : k.status.busy = false) (hv : loadValue k t = .error f) :
    step s = .next { s with
      inputs := rest, bus := b, reads := s.reads ++ [none], faults := s.faults ++ [(b, f)] } := by
  have hload : hostLoad b k t { s with inputs := rest, bus := b } =
      (({ s with inputs := rest, bus := b } : State).recordFault b f).answerHost none := by
    simp [hostLoad, hk, hv]
  rw [step_load hb ho hi, ht, hload]
  rfl

/-- A store an idle bank refuses records why (20_memory.md R54, R55). -/
theorem step_store_of_error {v : Word} {f : ModelFault} (hb : s.banks[b]? = some k) (ho : off < 0x200)
    (hi : s.inputs = .host (.store (bankAddr b off) w v) :: rest) (ht : accessTarget w off = t) (hc : t ≠ .cmd)
    (hk : k.status.busy = false) (he : storeEffect k v t = .error f) :
    step s = .next { s with inputs := rest, bus := b, faults := s.faults ++ [(b, f)] } := by
  have hstore : hostStore b k t v { s with inputs := rest, bus := b } =
      ({ s with inputs := rest, bus := b } : State).recordFault b f := by
    simp [hostStore, hk, he]
  rw [step_store hb ho hi, ht, if_neg hc, hstore]
  rfl

end

/-- Settles O49: the address selects no bank. -/
theorem accessOutsideEveryBankIsIgnored : Obligations.AccessOutsideEveryBankIsIgnored := by
  intro s rest a w v ha
  have hsel : selectBank s.banks.length a = none := selectBank_outside ha
  constructor <;> intro hi <;> simp [step, move, hi, act, hostStep, hsel]

/-! ## Registers (10_state.md R24 to R31) -/

/-- STATUS by arithmetic on its fields (10_state.md R24, R27). -/
theorem statusWord_eq_ofNat (st : Status) :
    statusWord st = BitVec.ofNat 32 (st.busy.toNat + 2 * st.fail.toNat + 4 * st.cause.code.toNat) := by
  obtain ⟨busy, fail, cause⟩ := st
  cases busy <;> cases fail <;> cases cause <;> rfl

/-- LINE by arithmetic on its fields (10_state.md R30). -/
theorem lineWord_eq_ofNat (scl sda : Bool) : lineWord scl sda = BitVec.ofNat 32 (scl.toNat + 2 * sda.toNat) := by
  cases scl <;> cases sda <;> rfl

/-- Settles O50: each register is a target whose `loadValue` is its value. -/
theorem registerLoadsAnswer : Obligations.RegisterLoadsAnswer := by
  intro s rest b k hb
  refine ⟨fun hi => ?status, fun hi => ?line, fun hk => ⟨fun hi => ?cmd, fun hi => ?len, fun hi => ?rxdata⟩⟩
  case status =>
    rw [step_load_of_ok (t := .status) hb (by decide) hi rfl (.inr rfl) rfl, statusWord_eq_ofNat]
    cases k.status.cause <;> rfl
  case line =>
    rw [step_load_of_ok (t := .line) hb (by decide) hi rfl (.inr rfl) rfl, lineWord_eq_ofNat]
  case cmd => exact step_load_of_ok (t := .cmd) hb (by decide) hi rfl (.inl hk) rfl
  case len => exact step_load_of_ok (t := .len) hb (by decide) hi rfl (.inl hk) (by simp [loadValue])
  case rxdata => exact step_load_of_ok (t := .rxdata) hb (by decide) hi rfl (.inl hk) (by simp [loadValue])

/-- Settles O53: LEN is the target, and `storeEffect` keeps the low 16 bits. -/
theorem lenStoreKeepsLowBits : Obligations.LenStoreKeepsLowBits := by
  intro s rest b k v hb hk hi
  exact step_store_of_ok (t := .len) hb hk (by decide) hi rfl (by decide) rfl

/-! ## Accesses that only record a fault (R54, R55, R63) -/

/-- A host may load STATUS and LINE of a busy bank, and only by 32-bit loads (20_memory.md R63). -/
theorem readableWhileBusy_accessTarget {w off : Nat} (h : readableWhileBusy (accessTarget w off) = true) :
    w = 32 ∧ (off = 0x004 ∨ off = 0x010) := by
  unfold accessTarget at h
  split at h
  case isTrue hw =>
    refine ⟨hw.1, ?_⟩
    repeat' split at h
    case isFalse.isTrue => exact .inl ‹_›
    case isFalse.isFalse.isFalse.isFalse.isTrue => exact .inr ‹_›
    all_goals cases h
  case isFalse => split at h <;> cases h

/-- Settles O51: a load of the bank is not readable, a store is turned away whether it reaches CMD or not. -/
theorem busyAccessIsRecorded : Obligations.BusyAccessIsRecorded := by
  intro s rest b off w k v hb ho hbusy
  refine ⟨fun hi hw => ?load, fun hi => ?store⟩
  case load =>
    have hr : readableWhileBusy (accessTarget w off) = false :=
      (Bool.not_eq_true _).mp (mt readableWhileBusy_accessTarget hw)
    rw [step_load hb ho hi, hostLoad, hbusy, hr]
    rfl
  case store =>
    rw [step_store hb ho hi]
    split
    · exact cmdWrite_of_busy (s := { s with inputs := rest, bus := b }) hb hbusy
    · rw [hostStore, if_pos hbusy]
      rfl

/-- The accesses that reach nothing (20_memory.md R53, R54, R55). -/
theorem accessTarget_bad {w off : Nat}
    (h : (w = 32 ∧ off % 4 ≠ 0) ∨ (w = 8 ∧ off < 0x100) ∨ (w ≠ 8 ∧ w ≠ 32) ∨ (0x014 ≤ off ∧ off ≤ 0x0FF)) :
    accessTarget w off = .bad := by
  unfold accessTarget
  split
  case isTrue hw =>
    have hoff : 0x014 ≤ off ∧ off ≤ 0x0FF := by omega
    iterate 6 rw [if_neg (by omega)]
  case isFalse hw => rw [if_neg (by omega)]

/-- Settles O52: the access reaches nothing, which no load reads and no store changes. -/
theorem badAccessIsRecorded : Obligations.BadAccessIsRecorded := by
  intro s rest b off w k v hb ho hk h
  have ht := accessTarget_bad h
  exact ⟨fun hi => step_load_of_error hb ho hi ht hk rfl,
    fun hi => step_store_of_error hb ho hi ht (by decide) hk rfl⟩

/-! ## BUF (R56, R57, R61, R64) -/

/-- A byte after a 32-bit write, by its distance from the first byte written (20_memory.md R57). -/
theorem Memory.read_write32_eq (m : List Host.Cell) (i a : Nat) (v : Word) :
    Memory.read (Memory.write32 m i v) a =
      if i ≤ a ∧ a < i + 4 then some (v.extractLsb' (8 * (a - i)) 8) else Memory.read m a := by
  rw [Memory.read_write32]
  by_cases h : i ≤ a ∧ a < i + 4
  · rw [if_pos h]
    obtain rfl | rfl | rfl | rfl : a = i ∨ a = i + 1 ∨ a = i + 2 ∨ a = i + 3 := by omega
    all_goals simp
  · rw [if_neg h]
    iterate 4 rw [if_neg (by omega)]

/-- Settles O55: the target is the byte or the word of BUF, and `Memory.write` or `Memory.write32` replaces it. -/
theorem bufStoresReplaceBytes : Obligations.BufStoresReplaceBytes := by
  intro s rest b i k v hb hk hi256
  refine ⟨fun hi => ?byte, fun hi4 hi => ?word⟩
  case byte =>
    refine ⟨_, step_store_of_ok hb hk (by omega) hi (accessTarget_buf8 i) (by simp) rfl, fun a => ?_⟩
    rw [Memory.read_write, BitVec.setWidth_eq_extractLsb' (by decide)]
  case word =>
    exact ⟨_, step_store_of_ok hb hk (by omega) hi (accessTarget_buf32 hi4) (by simp) rfl,
      fun a => Memory.read_write32_eq _ _ _ _⟩

/-- Four bytes little-endian, by arithmetic (20_memory.md R57). -/
theorem word_eq_ofNat (x0 x1 x2 x3 : Byte) :
    (x3 ++ x2 ++ x1 ++ x0 : Word) =
      BitVec.ofNat 32 (x0.toNat + 2 ^ 8 * x1.toNat + 2 ^ 16 * x2.toNat + 2 ^ 24 * x3.toNat) := by
  apply BitVec.eq_of_toNat_eq
  simp only [toNat_append_eq_add, BitVec.toNat_ofNat]
  omega

theorem loadValue_buf8_some {k : Bank} {i : Nat} {x : Byte} (h : Memory.read k.buf i = some x) :
    loadValue k (.buf8 i) = .ok (BitVec.ofNat 32 x.toNat) := by
  simp [loadValue, h]

theorem loadValue_buf8_none {k : Bank} {i : Nat} (h : Memory.read k.buf i = none) :
    loadValue k (.buf8 i) = .error .uninitBuf := by
  simp [loadValue, h]

theorem loadValue_buf32_some {k : Bank} {i : Nat} {x0 x1 x2 x3 : Byte} (h0 : Memory.read k.buf i = some x0)
    (h1 : Memory.read k.buf (i + 1) = some x1) (h2 : Memory.read k.buf (i + 2) = some x2)
    (h3 : Memory.read k.buf (i + 3) = some x3) :
    loadValue k (.buf32 i) =
      .ok (BitVec.ofNat 32 (x0.toNat + 2 ^ 8 * x1.toNat + 2 ^ 16 * x2.toNat + 2 ^ 24 * x3.toNat)) := by
  rw [← word_eq_ofNat]
  simp only [loadValue, Memory.read32, h0, h1, h2, h3]

/-- A word of which a byte holds no value has none (20_memory.md R64). -/
theorem loadValue_buf32_none {k : Bank} {i : Nat} (h : ∃ a, i ≤ a ∧ a < i + 4 ∧ Memory.read k.buf a = none) :
    loadValue k (.buf32 i) = .error .uninitBuf := by
  obtain ⟨a, hle, hlt, ha⟩ := h
  have hnone : Memory.read32 k.buf i = none := by
    unfold Memory.read32
    split
    next h0 h1 h2 h3 =>
      obtain rfl | rfl | rfl | rfl : a = i ∨ a = i + 1 ∨ a = i + 2 ∨ a = i + 3 := by omega
      all_goals simp [h0, h1, h2, h3] at ha
    next => rfl
  simp only [loadValue, hnone]

/-- Settles O56: the target is the byte or the word of BUF, and `loadValue` answers it or has no value. -/
theorem bufLoadsAnswerBytes : Obligations.BufLoadsAnswerBytes := by
  intro s rest b i k hb hk hi256
  refine ⟨fun hi => ?byte, fun hi4 hi => ?word⟩
  case byte =>
    have ht := accessTarget_buf8 i
    exact ⟨fun x hx => step_load_of_ok hb (by omega) hi ht (.inl hk) (loadValue_buf8_some hx),
      fun hx => step_load_of_error hb (by omega) hi ht hk (loadValue_buf8_none hx)⟩
  case word =>
    have ht := accessTarget_buf32 hi4
    exact ⟨fun _ _ _ _ h0 h1 h2 h3 =>
        step_load_of_ok hb (by omega) hi ht (.inl hk) (loadValue_buf32_some h0 h1 h2 h3),
      fun hnone => step_load_of_error hb (by omega) hi ht hk (loadValue_buf32_none hnone)⟩

end Sys2Proof.Machine
end

section
/-! PROOFS. P_ACKWAIT, P_SEND and P_RECV (41_signals.md section 3, 42_byte_transfer.md): each its one procedure call,
with the environment's answers given, and the completion step. -/

namespace Sys2Proof.Machine

/-! ## From a bank's run to a command's -/

/-- The same run under other names for its numbers and its view. -/
theorem CommandRuns.of_eq {s : State} {k : Bank} {i : Instr} {n n' r r' : Nat} {v v' : BankView}
    (h : CommandRuns s k i n r v) (hn : n = n') (hr : r = r') (hv : v = v') : CommandRuns s k i n' r' v' := by
  subst hn hr hv
  exact h

section
variable {limit : BitVec 16} {live : Bool} {b : Nat} {k k₁ k₂ : Bank} {calls : List Call} {n m r : Nat} {evs : List Ev}
  {scl sda : Bool}

theorem Bank.engineRun_trans (h₁ : k.engineRun limit live b n = .ok k₁) (h₂ : k₁.engineRun limit live b m = .ok k₂) :
    k.engineRun limit live b (n + m) = .ok k₂ := by
  rw [Bank.engineRun_add, h₁]
  exact h₂

/-- Where a run begins. -/
theorem Reaches.refl (h : k.seq = .run [] calls .none) : Reaches limit live b k 0 0 [] k.scl k.sda calls k :=
  ⟨rfl, h, rfl, rfl, (List.append_nil _).symm, rfl, rfl, rfl, rfl, rfl, rfl, rfl, rfl, rfl⟩

/-- A byte sent whose ACKWAIT times out: the command ends with ACK_TIMEOUT (43_transactions.md R185). -/
theorem Reaches.declined {src : Src} {x : Byte}
    (h : Reaches limit live b k n r evs scl sda (.send src :: .ackwait :: calls) k₁) (hx : sendByte k₁ src = some x)
    (hl : limit ≠ 0) (ha : answersNext b (k.drawn b r) (List.replicate limit.toNat true)) :
    ∃ k', EndsAs limit live b k (n + 40 + (limit.toNat + 11) + 1) (r + limit.toNat)
      { k.view with
        scl := true, sda := true, status := { busy := false, fail := true, cause := .ackTimeout }
        trace := k.trace ++ (evs ++ sendTrace x ++ timeoutTrace limit.toNat) } k' := by
  obtain ⟨k₂, hsend⟩ := reaches_send (limit := limit) (live := live) (b := b) h.seq hx
  exact (h.trans hsend).timesOut hl ha

/-- A bank about to receive a byte for RXDATA alone: `v` is the byte (42_byte_transfer.md R162). -/
theorem endsAs_recvRx {l : List Bool} {v : Byte} (h : k.seq = .run [] [.recv .rx] .none) (ha : answersNext b k l)
    (hv : byteBits v = l.map (readLevel live k.sda)) :
    ∃ k', EndsAs limit live b k 43 8
      { k.view with
        scl := false, rxdata := v, status := { busy := false, fail := false, cause := .none }
        trace := k.trace ++ recvTrace v } k' :=
  ⟨_, engineRun_thenComplete (engineRun_recvRx h ha hv) rfl, rfl, rfl, rfl, rfl⟩

end

/-! ## P_ACKWAIT (41_signals.md R140, R141) -/

/-- Settles O21: the call of ACKWAIT that succeeds (`reaches_acked`) and the completion step. -/
theorem pAckwaitSucceedsAtFirstLowRead : Obligations.PAckwaitSucceedsAtFirstLowRead := by
  intro s k f j hb hbusy hj ha
  refine (commandRuns_of_reaches (op := .pAckwait) (f := f) hb hbusy trivial
    (reaches_acked j rfl (answersNext_of ha rfl rfl) hj)).of_eq rfl rfl ?_
  simp [ackedTrace]

/-- Settles O22: the call of ACKWAIT that times out, and the completion step that reports it. -/
theorem pAckwaitTimesOutAfterAllHighReads : Obligations.PAckwaitTimesOutAfterAllHighReads := by
  intro s k f hb hbusy hl ha
  obtain ⟨k', hend⟩ := (Reaches.refl (limit := s.params.pollLimit) (live := s.isLive s.bus) (b := s.bus)
    (k := k.accept .pAckwait f (ruleCalls k.len.toNat .pAckwait)) rfl).timesOut hl (answersNext_of ha rfl rfl)
  refine (commandRuns_of_endsAs (op := .pAckwait) hb hbusy trivial hend).of_eq (by omega) (by omega) ?_
  simp [timeoutTrace, stopTrace, Bank.view, Bank.accept]

/-! ## P_SEND and P_RECV (42_byte_transfer.md R160 to R164) -/

/-- Settles O23: the call of SEND on the latched DATA and the completion step. -/
theorem pSendShiftsOutMsbFirst : Obligations.PSendShiftsOutMsbFirst :=
  fun _ _ _ hb hbusy => commandRuns_of_reaches (op := .pSend) hb hbusy trivial (reaches_send (src := .data) rfl rfl)

/-- Settles O24: the call of RECV, whose byte goes to RXDATA, and the completion step. -/
theorem pRecvShiftsInMsbFirst : Obligations.PRecvShiftsInMsbFirst := by
  intro s k f l v hb hbusy ha hv
  obtain ⟨k', hend⟩ := endsAs_recvRx (limit := s.params.pollLimit) (live := s.isLive s.bus)
    (k := k.accept .pRecv f (ruleCalls k.len.toNat .pRecv)) rfl (answersNext_of ha rfl rfl) hv
  refine (commandRuns_of_endsAs (op := .pRecv) hb hbusy trivial hend).of_eq rfl rfl ?_
  simp [recvTrace, byteBits, Bank.view, Bank.accept]

/-- On a released line or a placeholder bank the level read is the answer (40_line_driver.md R114, R115). -/
theorem map_readLevel_eq_self {s : State} {k : Bank} (h : k.sda = true ∨ s.bus ∉ s.params.live) (l : List Bool) :
    l.map (readLevel (s.params.live.contains s.bus) k.sda) = l := by
  rcases h with h | h
  · rw [h, map_readLevel_released]
  · have hlive : s.params.live.contains s.bus = false := by simpa using h
    rw [hlive]
    exact List.map_id l

/-- Settles O25: the SDA levels of SEND's events are the bits of DATA, and RECV makes their byte of them. -/
theorem sendThenReceiveLoopsBack : Obligations.SendThenReceiveLoopsBack := by
  intro s k f hb hbusy
  obtain ⟨t, k₁, hexec, hrun, -, hview, -⟩ := pSendShiftsOutMsbFirst s k f hb hbusy
  refine ⟨t, k₁, sendTrace f.data, hexec, hrun, congrArg (·.status.busy) hview, congrArg (·.trace) hview, ?_⟩
  intro s' k' g hb' hbusy' hline ha
  have hbits : answersNext s'.bus k' (byteBits f.data) := ha
  obtain ⟨t', k₂, hexec', hrun', -, hview', -⟩ := pRecvShiftsInMsbFirst s' k' g (byteBits f.data) f.data hb' hbusy'
    hbits (map_readLevel_eq_self hline _).symm
  exact ⟨t', k₂, hexec', hrun', congrArg (·.status.busy) hview', congrArg (·.rxdata) hview'⟩

end Sys2Proof.Machine
end

section
/-! PROOFS. The six transactions with the environment's answers given (43_transactions.md R185 to R191, R193, R199):
the parts their rules share, each transaction with every byte acknowledged, and each ended by a byte that is not. -/

namespace Sys2Proof.Machine

section
variable {limit : BitVec 16} {live : Bool} {b : Nat} {k k₁ : Bank} {calls : List Call} {n r j : Nat} {evs : List Ev}
  {scl sda : Bool} {l : List Bool} {src : Src} {x : Byte}

/-! ## The parts the rules share -/

/-- The same calls under other names for their numbers and events. -/
theorem Reaches.of_eq {n' r' : Nat} {evs' : List Ev} (h : Reaches limit live b k n r evs scl sda calls k₁) (hn : n = n')
    (hr : r = r') (he : evs = evs') : Reaches limit live b k n' r' evs' scl sda calls k₁ := by
  subst hn hr he
  exact h

/-- What a SEND takes does not change over calls that write no result (20_memory.md R71). -/
theorem Reaches.sendByte_eq (h : Reaches limit live b k n r evs scl sda calls k₁) (src : Src) :
    sendByte k₁ src = sendByte k src := by
  cases src <;> simp [sendByte, h.latAddr, h.latReg, h.latData, h.buf]

/-- A byte sent and acknowledged, in the terms of `sentTrace`. -/
theorem Reaches.sentOne (h : Reaches limit live b k n r evs scl sda (.send src :: .ackwait :: calls) k₁)
    (hx : sendByte k src = some x) (hj : j < limit.toNat) (ha : answersNext b (k.drawn b r) (ackedAnswers j ++ l)) :
    ∃ k₂, Reaches limit live b k (n + (47 + j)) (r + (j + 1)) (evs ++ sentTrace [(x, j)]) false true calls k₂ ∧
      answersNext b (k.drawn b (r + (j + 1))) l := by
  simpa [sentTrace] using h.sent ((h.sendByte_eq src).trans hx) hj ha

/-- A START after other calls: the repeated START (R193). -/
theorem Reaches.restart (h : Reaches limit live b k n r evs scl sda (.start :: calls) k₁) :
    ∃ k₂, Reaches limit live b k (n + 7) r (evs ++ startTrace) false false calls k₂ := by
  obtain ⟨k₂, hstart⟩ := reaches_start (limit := limit) (live := live) (b := b) h.seq
  exact ⟨k₂, h.trans hstart⟩

/-- The STOP that ends a rule. -/
theorem Reaches.stop (h : Reaches limit live b k n r evs scl sda (.stop false :: calls) k₁) :
    ∃ k₂, Reaches limit live b k (n + 7) r (evs ++ stopTrace) true true calls k₂ := by
  obtain ⟨k₂, hstop⟩ := reaches_stop (limit := limit) (live := live) (b := b) h.seq
  exact ⟨k₂, h.trans hstop⟩

/-- READ_REG's last calls: one byte, which RXDATA takes, NACK and STOP, and the completion step (R189). -/
theorem Reaches.receivesRxAndEnds {v : Byte}
    (h : Reaches limit live b k n r evs scl true [.recv .keep, .nack, .stop true] k₁)
    (ha : answersNext b (k.drawn b r) (byteBits v)) :
    ∃ k', EndsAs limit live b k (n + 42 + 4 + 7 + 1) (r + 8)
      { k.view with
        scl := true, sda := true, status := { busy := false, fail := false, cause := .none }, rxdata := v
        trace := k.trace ++ (evs ++ recvTrace v ++ nackTrace ++ stopTrace) } k' := by
  have hrecv := engineRun_recvKeep (limit := limit) (live := live) h.seq (answersNext_after ha h.answers h.draws)
    (by rw [h.sda_eq, map_readLevel_released])
  have hnack := Bank.engineRun_trans (Bank.engineRun_trans h.run hrecv) (engineRun_nack rfl)
  have hstop := Bank.engineRun_trans hnack (engineRun_stopRx rfl)
  obtain ⟨ha', hd'⟩ := drawn_after h.answers h.draws 8
  refine ⟨_, engineRun_thenComplete hstop rfl, rfl, ?_, ha', hd'⟩
  simp [Bank.view, Bank.complete, Status.ended, Bank.drawn, h.trace, h.len, h.buf]

/-- A read's receptions, its STOP and its completion step, BUF taking the bytes answered (R187, R191). -/
theorem Reaches.readsAndEnds {bytes : List Byte}
    (h : Reaches limit live b k n r evs scl true (recvCalls 0 bytes.length ++ [.stop false]) k₁)
    (hne : 1 ≤ bytes.length) (hle : bytes.length ≤ 256)
    (ha : answersNext b (k.drawn b r) (bytes.flatMap byteBits)) :
    ∃ m k', Memory.tookBytes k.buf m bytes ∧
      EndsAs limit live b k (n + (49 * bytes.length - 3) + 7 + 1) (r + 8 * bytes.length)
        { k.view with
          scl := true, sda := true, status := { busy := false, fail := false, cause := .none }, buf := m
          trace := k.trace ++ (evs ++ (receivedTrace bytes ++ stopTrace)) } k' := by
  obtain ⟨k₂, hrecv⟩ := receives (limit := limit) (live := live) bytes 0 (by rintro rfl; cases hne) (by omega) h.seq
    h.sda_eq (answersNext_after ha h.answers h.draws)
  exact h.receivesAndEnds hrecv

end

/-! ## The beginnings of the rules, and the numbers of R199 -/

/-- The bank once it has accepted the command of operation `op` with the fields `f` (R180). -/
abbrev Bank.accepted (k : Bank) (op : Op) (f : CmdFields) : Bank := k.accept op f (ruleCalls k.len.toNat op)

section
variable {limit : BitVec 16} {live : Bool} {b : Nat} {k : Bank} {op : Op} {f : CmdFields} {calls : List Call}
  {j₀ j₁ : Nat} {l : List Bool}

theorem accepted_seq (hc : ruleCalls k.len.toNat op = calls) : (k.accepted op f).seq = .run [] calls .none :=
  congrArg (Seq.run [] · .none) hc

theorem sendByte_accepted_addrW : sendByte (k.accepted op f) .addrW = some (BitVec.ofNat 8 (2 * f.addr.toNat)) :=
  congrArg some (addrByteW_eq f.addr)

theorem sendByte_accepted_addrR : sendByte (k.accepted op f) .addrR = some (BitVec.ofNat 8 (2 * f.addr.toNat + 1)) :=
  congrArg some (addrByteR_eq f.addr)

/-- The first START and the address byte, acknowledged (R186 to R191). -/
theorem reaches_address {src : Src} {x : Byte}
    (hc : ruleCalls k.len.toNat op = .start :: .send src :: .ackwait :: calls)
    (hx : sendByte (k.accepted op f) src = some x) (hj : j₀ < limit.toNat)
    (ha : answersNext b k (ackedAnswers j₀ ++ l)) :
    ∃ k₁, Reaches limit live b (k.accepted op f) (54 + j₀) (j₀ + 1) (startTrace ++ sentTrace [(x, j₀)]) false true
        calls k₁ ∧
      answersNext b ((k.accepted op f).drawn b (j₀ + 1)) l := by
  obtain ⟨k₁, hstart⟩ := reaches_start (limit := limit) (live := live) (b := b) (accepted_seq (f := f) hc)
  obtain ⟨k₂, hsent, ha₂⟩ := hstart.sentOne hx hj (answersNext_of ha rfl rfl)
  rw [Nat.zero_add] at ha₂
  exact ⟨k₂, hsent.of_eq (by omega) (by omega) rfl, ha₂⟩

/-- The first START, the address byte for writing and REG, both acknowledged (R188 to R191). -/
theorem reaches_addressReg
    (hc : ruleCalls k.len.toNat op = .start :: .send .addrW :: .ackwait :: .send .reg :: .ackwait :: calls)
    (hj₀ : j₀ < limit.toNat) (hj₁ : j₁ < limit.toNat)
    (ha : answersNext b k (ackedAnswers j₀ ++ (ackedAnswers j₁ ++ l))) :
    ∃ k₁, Reaches limit live b (k.accepted op f) (101 + (j₀ + j₁)) (j₀ + j₁ + 2)
        (startTrace ++ sentTrace [(BitVec.ofNat 8 (2 * f.addr.toNat), j₀), (f.reg, j₁)]) false true calls k₁ ∧
      answersNext b ((k.accepted op f).drawn b (j₀ + j₁ + 2)) l := by
  obtain ⟨k₁, haddr, ha₁⟩ := reaches_address (live := live) hc sendByte_accepted_addrW hj₀ ha
  obtain ⟨k₂, hreg, ha₂⟩ := haddr.sentOne (x := f.reg) rfl hj₁ ha₁
  rw [show j₀ + 1 + (j₁ + 1) = j₀ + j₁ + 2 by omega] at ha₂
  exact ⟨k₂, hreg.of_eq (by omega) (by omega) (by simp [sentTrace]), ha₂⟩

/-- The environment's answers to bytes sent: one low read for each, and the high reads. -/
theorem length_sentAnswers (l : List (Byte × Nat)) : (sentAnswers l).length = l.length + (l.map (·.2)).sum := by
  induction l with
  | nil => rfl
  | cons p l ih =>
    have hp : (ackedAnswers p.2).length = p.2 + 1 := by simp [ackedAnswers]
    rw [sentAnswers, List.flatMap_cons, List.length_append, hp, ← sentAnswers, ih, List.length_cons, List.map_cons,
      List.sum_cons]
    omega

end

/-! ## Every byte acknowledged -/

/-- Settles O26: the address byte, the loop over BUF (`Reaches.sends`), STOP. -/
theorem writeRuns : Obligations.WriteRuns := by
  intro s k f j data hb hbusy hlen hle hholds
  dsimp only
  intro hj ha
  obtain ⟨hj₀, hdata⟩ := List.forall_mem_cons.mp hj
  have hop : lenAccepted k.len.toNat .write := Nat.le_trans (Nat.le_of_eq hlen) hle
  have hcalls : ruleCalls k.len.toNat .write = _ := congrArg writeCalls hlen
  obtain ⟨k₁, haddr, ha₁⟩ := reaches_address (live := s.isLive s.bus) (l := sentAnswers data ++ []) hcalls
    sendByte_accepted_addrW hj₀ (by simpa [sentAnswers] using ha)
  obtain ⟨k₂, hsends, -⟩ := haddr.sends data 0 (by omega) hholds hdata ha₁
  refine (commandRuns_of_reaches hb hbusy hop hsends.stop).of_eq ?_ ?_ ?_
  · simp only [List.map_cons, List.sum_cons]
    omega
  · simp only [length_sentAnswers, List.length_cons, List.map_cons, List.sum_cons]
    omega
  · simp [sentTrace]

/-- Settles O27: the address byte, the receptions (`receives`), STOP. -/
theorem readRuns : Obligations.ReadRuns := by
  intro s k f j bytes hb hbusy hlen hne hle hj ha
  have hop : lenAccepted k.len.toNat .read := by rw [hlen]; exact ⟨hne, hle⟩
  have hcalls : ruleCalls k.len.toNat .read = _ := congrArg readCalls hlen
  obtain ⟨k₁, haddr, ha₁⟩ := reaches_address (live := s.isLive s.bus) hcalls sendByte_accepted_addrR hj ha
  obtain ⟨m, k₂, hm, hend⟩ := haddr.readsAndEnds hne hle ha₁
  refine ⟨m, hm, (commandRuns_of_endsAs hb hbusy hop hend).of_eq (by omega) rfl ?_⟩
  simp [Bank.view, Bank.accept]

/-- Settles O28: the address byte and REG, DATA, STOP. -/
theorem writeRegRuns : Obligations.WriteRegRuns := by
  intro s k f j₀ j₁ j₂ hb hbusy
  dsimp only
  intro hj ha
  simp only [List.forall_mem_cons] at hj
  obtain ⟨hj₀, hj₁, hj₂, -⟩ := hj
  obtain ⟨k₁, hreg, ha₁⟩ := reaches_addressReg (live := s.isLive s.bus) (op := .writeReg) (l := ackedAnswers j₂ ++ [])
    rfl hj₀ hj₁ (by simpa [sentAnswers] using ha)
  obtain ⟨k₂, hdata, -⟩ := hreg.sentOne (x := f.data) rfl hj₂ ha₁
  refine (commandRuns_of_reaches (op := .writeReg) hb hbusy trivial hdata.stop).of_eq (by omega) ?_ ?_
  · simp only [length_sentAnswers, List.length_cons, List.length_nil, List.map_cons, List.map_nil, List.sum_cons,
      List.sum_nil]
    omega
  · simp [sentTrace]

/-- Settles O29: the address byte and REG, the repeated START and the address byte for reading, the reception. -/
theorem readRegRuns : Obligations.ReadRegRuns := by
  intro s k f j₀ j₁ j₂ v hb hbusy hj₀ hj₁ hj₂ ha
  obtain ⟨k₁, hreg, ha₁⟩ := reaches_addressReg (live := s.isLive s.bus) (op := .readReg) rfl hj₀ hj₁
    (by simpa using ha)
  obtain ⟨k₂, hstart⟩ := hreg.restart
  obtain ⟨k₃, haddr, ha₃⟩ := hstart.sentOne sendByte_accepted_addrR hj₂ ha₁
  obtain ⟨k₄, hend⟩ := haddr.receivesRxAndEnds ha₃
  refine (commandRuns_of_endsAs (op := .readReg) hb hbusy trivial hend).of_eq (by omega) (by omega) ?_
  simp [Bank.view, Bank.accept]

/-- Settles O30: the address byte and REG, the loop over BUF (`Reaches.sends`), STOP. -/
theorem writeRegMultiRuns : Obligations.WriteRegMultiRuns := by
  intro s k f j₀ j₁ data hb hbusy hlen hle hholds
  dsimp only
  intro hj ha
  simp only [List.forall_mem_cons] at hj
  obtain ⟨hj₀, hj₁, hdata⟩ := hj
  have hop : lenAccepted k.len.toNat .writeRegMulti := Nat.le_trans (Nat.le_of_eq hlen) hle
  have hcalls : ruleCalls k.len.toNat .writeRegMulti = _ := congrArg writeRegMultiCalls hlen
  obtain ⟨k₁, hreg, ha₁⟩ := reaches_addressReg (live := s.isLive s.bus) (l := sentAnswers data ++ []) hcalls hj₀ hj₁
    (by simpa [sentAnswers] using ha)
  obtain ⟨k₂, hsends, -⟩ := hreg.sends data 0 (by omega) hholds hdata ha₁
  refine (commandRuns_of_reaches hb hbusy hop hsends.stop).of_eq ?_ ?_ ?_
  · simp only [List.map_cons, List.sum_cons]
    omega
  · simp only [length_sentAnswers, List.length_cons, List.map_cons, List.sum_cons]
    omega
  · simp [sentTrace]

/-- Settles O31: the address byte and REG, the repeated START and the address byte for reading, the receptions, STOP.
-/ theorem readRegMultiRuns : Obligations.ReadRegMultiRuns := by
  intro s k f j₀ j₁ j₂ bytes hb hbusy hlen hne hle hj₀ hj₁ hj₂ ha
  have hop : lenAccepted k.len.toNat .readRegMulti := by rw [hlen]; exact ⟨hne, hle⟩
  have hcalls : ruleCalls k.len.toNat .readRegMulti = _ := congrArg readRegMultiCalls hlen
  obtain ⟨k₁, hreg, ha₁⟩ := reaches_addressReg (live := s.isLive s.bus) hcalls hj₀ hj₁ (by simpa using ha)
  obtain ⟨k₂, hstart⟩ := hreg.restart
  obtain ⟨k₃, haddr, ha₃⟩ := hstart.sentOne sendByte_accepted_addrR hj₂ ha₁
  obtain ⟨m, k₄, hm, hend⟩ := haddr.readsAndEnds hne hle ha₃
  refine ⟨m, hm, (commandRuns_of_endsAs hb hbusy hop hend).of_eq (by omega) (by omega) ?_⟩
  simp [Bank.view, Bank.accept]

end Sys2Proof.Machine
end

section
/-! PROOFS. The transactions that end at a byte not acknowledged (43_transactions.md R185): the address byte, REG,
DATA, the second address byte, a byte of BUF. -/

namespace Sys2Proof.Machine

/-! ## The calls before the byte -/

/-- Every transaction begins with START and its address byte (R186 to R191). -/
theorem ruleCalls_transaction {op : Op} (h : isTransaction op = true) (n : Nat) :
    ∃ rest, ruleCalls n op = .start :: .send (if op = .read then .addrR else .addrW) :: .ackwait :: rest := by
  cases op
  case write | read | writeReg | readReg | writeRegMulti | readRegMulti => exact ⟨_, rfl⟩
  all_goals cases h

/-- The four commands that send REG send it after the address byte (R188 to R191). -/
theorem ruleCalls_reg {op : Op} (h : op = .writeReg ∨ op = .readReg ∨ op = .writeRegMulti ∨ op = .readRegMulti)
    (n : Nat) :
    ∃ rest, ruleCalls n op = .start :: .send .addrW :: .ackwait :: .send .reg :: .ackwait :: rest := by
  rcases h with rfl | rfl | rfl | rfl <;> exact ⟨_, rfl⟩

/-- READ_REG and READ_REG_MULTI send their second address byte after a repeated START (R189, R191, R193). -/
theorem ruleCalls_restart {op : Op} (h : op = .readReg ∨ op = .readRegMulti) (n : Nat) :
    ∃ rest, ruleCalls n op =
      .start :: .send .addrW :: .ackwait :: .send .reg :: .ackwait :: .start :: .send .addrR :: .ackwait :: rest := by
  rcases h with rfl | rfl <;> exact ⟨_, rfl⟩

/-- The loop over BUF up to the byte at `i`, and that byte. -/
theorem sendCalls_split {i n : Nat} (h : i < n) :
    ∃ rest, sendCalls 0 n = sendCalls 0 i ++ .send (.buf (BitVec.ofNat 8 i)) :: .ackwait :: rest := by
  obtain ⟨d, rfl⟩ := Nat.exists_eq_add_of_lt h
  rw [Nat.add_assoc, sendCalls_add, Nat.zero_add]
  exact ⟨_, rfl⟩

/-- BUF holds a list and the byte after it. -/
theorem Memory.holds_append_singleton {m : List Host.Cell} {l : List Byte} {x : Byte}
    (h : Memory.holds m 0 (l ++ [x])) : Memory.holds m 0 l ∧ Memory.read m l.length = some x := by
  refine ⟨fun j hj => ?_, ?_⟩
  · rw [h j (by simp; omega), List.getElem_append_left hj]
  · simpa using h l.length (by simp)

section
variable {s : State} {k k₁ : Bank} {op : Op} {f : CmdFields} {calls : List Call} {n r : Nat} {evs : List Ev}
  {scl sda : Bool} (hb : s.banks[s.bus]? = some k) (hbusy : k.status.busy = false)
  (hop : lenAccepted k.len.toNat op) (hl : s.params.pollLimit ≠ 0)
include hb hbusy hop hl

/-- A command with a byte that is not acknowledged, from the calls before the byte. -/
theorem commandRuns_of_declined {src : Src} {x : Byte}
    (h : Reaches s.params.pollLimit (s.isLive s.bus) s.bus (k.accepted op f) n r evs scl sda
      (.send src :: .ackwait :: calls) k₁)
    (hx : sendByte (k.accepted op f) src = some x)
    (ha : answersNext s.bus ((k.accepted op f).drawn s.bus r) (List.replicate s.params.pollLimit.toNat true)) :
    CommandRuns s k (Instr.ofOp f op) (n + 40 + (s.params.pollLimit.toNat + 11) + 1) (r + s.params.pollLimit.toNat)
      { k.view with
        scl := true, sda := true, status := { busy := false, fail := true, cause := .ackTimeout }
        trace := k.trace ++ (evs ++ sendTrace x ++ timeoutTrace s.params.pollLimit.toNat) } := by
  obtain ⟨k', hend⟩ := h.declined ((h.sendByte_eq src).trans hx) hl ha
  exact commandRuns_of_endsAs hb hbusy hop hend

/-- WRITE and WRITE_REG_MULTI with a byte of BUF that is not acknowledged, from the calls before the loop. -/
theorem commandRuns_of_declined_buf {pre : List (Byte × Nat)} {x : Byte}
    (h : Reaches s.params.pollLimit (s.isLive s.bus) s.bus (k.accepted op f) n r evs false true
      (sendCalls 0 k.len.toNat ++ calls) k₁)
    (hle : k.len.toNat ≤ 256) (hpre : pre.length < k.len.toNat)
    (hholds : Memory.holds k.buf 0 (pre.map (·.1) ++ [x])) (hj : ∀ p ∈ pre, p.2 < s.params.pollLimit.toNat)
    (ha : answersNext s.bus ((k.accepted op f).drawn s.bus r)
      (sentAnswers pre ++ List.replicate s.params.pollLimit.toNat true)) :
    CommandRuns s k (Instr.ofOp f op)
      (n + (47 * pre.length + (pre.map (·.2)).sum) + 40 + (s.params.pollLimit.toNat + 11) + 1)
      (r + (sentAnswers pre).length + s.params.pollLimit.toNat)
      { k.view with
        scl := true, sda := true, status := { busy := false, fail := true, cause := .ackTimeout }
        trace := k.trace ++ (evs ++ sentTrace pre ++ sendTrace x ++ timeoutTrace s.params.pollLimit.toNat) } := by
  obtain ⟨rest, hsplit⟩ := sendCalls_split hpre
  obtain ⟨hheld, hx⟩ := Memory.holds_append_singleton hholds
  rw [hsplit, List.append_assoc] at h
  obtain ⟨k₂, hsends, ha₂⟩ := h.sends pre 0 (by omega) hheld hj ha
  refine commandRuns_of_declined hb hbusy hop hl hsends ?_ ha₂
  have hi : (BitVec.ofNat 8 pre.length).toNat = pre.length := by rw [BitVec.toNat_ofNat]; omega
  rw [List.length_map] at hx
  rw [sendByte, hi]
  exact hx

end

/-! ## The byte that is not acknowledged -/

/-- Settles O32: START, then the address byte is declined. -/
theorem unacknowledgedAddressEndsTransaction : Obligations.UnacknowledgedAddressEndsTransaction := by
  intro s k f op htrans hb hbusy hop hl ha
  obtain ⟨rest, hcalls⟩ := ruleCalls_transaction htrans k.len.toNat
  obtain ⟨k₁, hstart⟩ := reaches_start (limit := s.params.pollLimit) (live := s.isLive s.bus) (b := s.bus)
    (accepted_seq (f := f) hcalls)
  have hx : sendByte (k.accepted op f) (if op = .read then .addrR else .addrW) =
      some (BitVec.ofNat 8 (if op = .read then 2 * f.addr.toNat + 1 else 2 * f.addr.toNat)) := by
    split
    · exact sendByte_accepted_addrR
    · exact sendByte_accepted_addrW
  refine (commandRuns_of_declined hb hbusy hop hl hstart hx (answersNext_of ha rfl rfl)).of_eq (by omega) (by omega) ?_
  simp

/-- Settles O33: the address byte, in WRITE_REG_MULTI REG too, then `commandRuns_of_declined_buf`. -/
theorem firstUnacknowledgedByteEndsWrite : Obligations.FirstUnacknowledgedByteEndsWrite := by
  intro s k f j₀ j₁ pre x hb hbusy hle hpre hholds hl
  dsimp only
  refine ⟨fun hj ha => ?write, fun hj ha => ?writeRegMulti⟩
  case write =>
    obtain ⟨hj₀, hj⟩ := List.forall_mem_cons.mp hj
    obtain ⟨k₁, haddr, ha₁⟩ := reaches_address (live := s.isLive s.bus) (op := .write) rfl sendByte_accepted_addrW hj₀
      (by simpa [sentAnswers] using ha)
    refine (commandRuns_of_declined_buf (op := .write) hb hbusy hle hl haddr hle hpre hholds hj
      (by simpa [sentAnswers] using ha₁)).of_eq ?_ ?_ ?_
    · simp only [List.length_cons, List.map_cons, List.sum_cons]
      omega
    · simp only [length_sentAnswers, List.length_cons, List.map_cons, List.sum_cons]
      omega
    · simp [sentTrace]
  case writeRegMulti =>
    simp only [List.forall_mem_cons] at hj
    obtain ⟨hj₀, hj₁, hj⟩ := hj
    obtain ⟨k₁, hreg, ha₁⟩ := reaches_addressReg (live := s.isLive s.bus) (op := .writeRegMulti) rfl hj₀ hj₁
      (by simpa [sentAnswers] using ha)
    refine (commandRuns_of_declined_buf (op := .writeRegMulti) hb hbusy hle hl hreg hle hpre hholds hj
      (by simpa [sentAnswers] using ha₁)).of_eq ?_ ?_ ?_
    · simp only [List.length_cons, List.map_cons, List.sum_cons]
      omega
    · simp only [length_sentAnswers, List.length_cons, List.map_cons, List.sum_cons]
      omega
    · simp [sentTrace]

/-- Settles O59: the address byte, REG and the repeated START as far as they come, then the byte is declined. -/
theorem laterUnacknowledgedByteEndsTransaction : Obligations.LaterUnacknowledgedByteEndsTransaction := by
  intro s k f j₀ j₁ hb hbusy hl hj₀
  dsimp only
  refine ⟨fun op hreg hop ha => ?reg, fun hj₁ ha => ⟨?data, fun op hread hop => ?addrR⟩⟩
  case reg =>
    obtain ⟨rest, hcalls⟩ := ruleCalls_reg hreg k.len.toNat
    obtain ⟨k₁, haddr, ha₁⟩ := reaches_address (live := s.isLive s.bus) hcalls sendByte_accepted_addrW hj₀ ha
    refine (commandRuns_of_declined hb hbusy hop hl haddr (x := f.reg) rfl ha₁).of_eq (by omega) rfl ?_
    simp
  case data =>
    obtain ⟨k₁, hreg, ha₁⟩ := reaches_addressReg (live := s.isLive s.bus) (op := .writeReg) rfl hj₀ hj₁
      (by simpa using ha)
    refine (commandRuns_of_declined (op := .writeReg) hb hbusy trivial hl hreg (x := f.data) rfl ha₁).of_eq (by omega)
      rfl ?_
    simp
  case addrR =>
    obtain ⟨rest, hcalls⟩ := ruleCalls_restart hread k.len.toNat
    obtain ⟨k₁, hreg, ha₁⟩ := reaches_addressReg (live := s.isLive s.bus) hcalls hj₀ hj₁ (by simpa using ha)
    obtain ⟨k₂, hstart⟩ := hreg.restart
    refine (commandRuns_of_declined hb hbusy hop hl hstart sendByte_accepted_addrR ha₁).of_eq (by omega) rfl ?_
    simp

end Sys2Proof.Machine
end

section
/-! PROOFS. How a command ends whatever the environment answers (43_transactions.md R194 to R199, 41_signals.md R144):
within its bound, a transaction idle after STOP's events, a failed one with no result written; and a host's wait on it
(70_reset_and_hazards.md R271). -/

namespace Sys2Proof.Machine

section
variable {limit : BitVec 16} {live : Bool} {b : Nat} {k : Bank} {bound : Nat}

/-! ## The ends of the rules, whatever is answered -/

/-- The rest of a write from its loop over BUF on. -/
theorem endsWithin_writeTail (hl : limit ≠ 0) {n : Nat} (h : k.seq = .run [] (sendCalls 0 n ++ [.stop false]) .none)
    (hscl : k.scl = false) : EndsWithin limit live b k ((46 + limit.toNat) * n + 8) True [[true]] true :=
  endsWithin_sends hl n 0 h hscl (Nat.le_refl 8) List.mem_cons_self fun _ hseq hscl =>
    (endsWithin_stop false hseq hscl).mono (Nat.le_refl 8) fun _ hc => hc

/-- The rest of a read from its loop over BUF on. -/
theorem endsWithin_readTail {n : Nat} (hn : 1 ≤ n) (h : k.seq = .run [] (recvCalls 0 n ++ [.stop false]) .none)
    (hscl : k.scl = false) (hsda : k.sda = true) : EndsWithin limit live b k (49 * n + 5) True [[true]] true := by
  obtain ⟨m, rfl⟩ := Nat.exists_eq_add_of_le' hn
  exact (endsWithin_recvs m 0 h hscl hsda).mono (Nat.le_refl _) fun _ hc => hc

/-- The rest of READ_REG from its reception on. -/
theorem endsWithin_readRegTail (h : k.seq = .run [] [.recv .keep, .nack, .stop true] .none) (hscl : k.scl = false)
    (hsda : k.sda = true) : EndsWithin limit live b k 54 True [[true]] true := by
  obtain ⟨k₁, hrecv⟩ := passes_recv (limit := limit) (live := live) (b := b) h hsda
  obtain ⟨-, -, hseq₁, hscl₁, -⟩ := id hrecv
  obtain ⟨k₂, hnack⟩ := passes_nack (limit := limit) (live := live) (b := b) hseq₁
  obtain ⟨-, -, hseq₂, hscl₂, -⟩ := id hnack
  exact (hrecv.endsWithin hscl (hnack.endsWithin hscl₁ (endsWithin_stop true hseq₂ hscl₂))).mono (by omega)
    fun _ hc => hc

/-- The repeated START and the second address byte (R193), before an end with the STOP as its one condition. -/
theorem endsWithin_restartAddress (hl : limit ≠ 0) {calls : List Call}
    (h : k.seq = .run [] (.start :: .send .addrR :: .ackwait :: calls) .none) (hscl : k.scl = false) (hb : 8 ≤ bound)
    (rest : ∀ k₁ : Bank, k₁.seq = .run [] calls .none → k₁.scl = false → k₁.sda = true →
      EndsWithin limit live b k₁ bound True [[true]] true) :
    EndsWithin limit live b k (53 + limit.toNat + bound) True [[true], [false, true]] true :=
  (endsWithin_restart (conds' := [[true], [false, true]]) h hscl (by simp) fun _ hseq hscl =>
    endsWithin_sendAckwait hl hseq hscl hb List.mem_cons_self rest).mono (by omega) fun _ hc => hc

/-- The conditions on the wire of a transaction from the idle bus (41_signals.md R144). -/
def transactionConditions (op : Op) : List (List Bool) :=
  if op = .readReg ∨ op = .readRegMulti then [[false, true], [false, false, true]] else [[false, true]]

/-- An accepted transaction, from its START and first address byte on: the conditions `conds` of the rest come after
START's. -/
theorem accepted_endsWithin {op : Op} {f : CmdFields} {src : Src} {calls : List Call} {conds : List (List Bool)}
    (hl : limit ≠ 0) (hcalls : ruleCalls k.len.toNat op = .start :: .send src :: .ackwait :: calls) (hb : 8 ≤ bound)
    (hstop : [true] ∈ conds) (hconds : ∀ c ∈ conds, false :: c ∈ transactionConditions op)
    (rest : ∀ k₁ : Bank, k₁.seq = .run [] calls .none → k₁.scl = false → k₁.sda = true →
      EndsWithin limit live b k₁ bound True conds true) :
    EndsWithin limit live b (k.accepted op f) (53 + limit.toNat + bound) (k.scl = true ∧ k.sda = true)
      (transactionConditions op) true :=
  (endsWithin_start (accepted_seq hcalls) hconds fun _ hseq hscl =>
    endsWithin_sendAckwait hl hseq hscl hb hstop rest).mono (by omega) fun _ hc => hc

/-- Every accepted transaction ends within its bound of R199 and the completion step, as `EndsWithin` says. -/
theorem transaction_endsWithin {op : Op} {f : CmdFields} (htrans : isTransaction op = true) (hl : limit ≠ 0)
    (hop : lenAccepted k.len.toNat op) :
    EndsWithin limit live b (k.accepted op f) (eventBound limit.toNat k.len.toNat op + 1)
      (k.scl = true ∧ k.sda = true) (transactionConditions op) true := by
  have one : [true] ∈ [[true]] := List.mem_cons_self
  have two : [true] ∈ [[true], [false, true]] := List.mem_cons_self
  cases op
  case write =>
    refine (accepted_endsWithin hl rfl (by omega) one (by decide) fun _ hseq hscl _ =>
      endsWithin_writeTail hl hseq hscl).mono ?_ fun _ hc => hc
    simp only [eventBound, Nat.mul_add]
    omega
  case read =>
    obtain ⟨hlen, -⟩ : 1 ≤ k.len.toNat ∧ k.len.toNat ≤ 256 := hop
    refine (accepted_endsWithin hl rfl (by omega) one (by decide) fun _ hseq hscl hsda =>
      endsWithin_readTail hlen hseq hscl hsda).mono ?_ fun _ hc => hc
    simp only [eventBound]
    omega
  case writeReg =>
    refine (accepted_endsWithin hl rfl (by omega) one (by decide) fun _ hseq hscl _ =>
      endsWithin_sendAckwait hl hseq hscl (by omega) one fun _ hseq hscl _ =>
        endsWithin_sendAckwait hl hseq hscl (by omega) one fun _ hseq hscl _ =>
          endsWithin_writeTail (n := 0) hl hseq hscl).mono ?_ fun _ hc => hc
    simp only [eventBound]
    omega
  case readReg =>
    refine (accepted_endsWithin hl rfl (by omega) two (by decide) fun _ hseq hscl _ =>
      endsWithin_sendAckwait hl hseq hscl (by omega) two fun _ hseq hscl _ =>
        endsWithin_restartAddress hl hseq hscl (by omega) fun _ hseq hscl hsda =>
          endsWithin_readRegTail hseq hscl hsda).mono ?_ fun _ hc => hc
    simp only [eventBound]
    omega
  case writeRegMulti =>
    refine (accepted_endsWithin hl rfl (by omega) one (by decide) fun _ hseq hscl _ =>
      endsWithin_sendAckwait hl hseq hscl (by omega) one fun _ hseq hscl _ =>
        endsWithin_writeTail hl hseq hscl).mono ?_ fun _ hc => hc
    simp only [eventBound, Nat.mul_add]
    omega
  case readRegMulti =>
    obtain ⟨hlen, -⟩ : 1 ≤ k.len.toNat ∧ k.len.toNat ≤ 256 := hop
    refine (accepted_endsWithin hl rfl (by omega) two (by decide) fun _ hseq hscl _ =>
      endsWithin_sendAckwait hl hseq hscl (by omega) two fun _ hseq hscl _ =>
        endsWithin_restartAddress hl hseq hscl (by omega) fun _ hseq hscl hsda =>
          endsWithin_readTail hlen hseq hscl hsda).mono ?_ fun _ hc => hc
    simp only [eventBound]
    omega
  all_goals cases htrans

end

/-! ## A transaction that is over (R144, R194, R196, R197) -/

/-- What a run of its own engine has made of the step's bank, once the command is accepted. -/
theorem engineRun_of_accepted {s t : State} {k k' : Bank} {op : Op} {f : CmdFields} {n : Nat}
    (hb : s.banks[s.bus]? = some k) (hbusy : k.status.busy = false) (hop : lenAccepted k.len.toNat op)
    (hexec : exec (Instr.ofOp f op) s = .next t) (hrun : runEngine s.bus n t = .next (s.setBank s.bus k')) :
    (k.accepted op f).engineRun s.params.pollLimit (s.isLive s.bus) s.bus n = .ok k' := by
  cases (exec_accepted hb hbusy hop).symm.trans hexec
  rw [runEngine_eq n (State.setBank_get _ _ _ _ hb) rfl] at hrun
  simp only [State.setBank_params, State.setBank_isLive, State.setBank_setBank] at hrun
  split at hrun
  case h_1 k₁ hk₁ =>
    have hbanks : (s.setBank s.bus k₁).banks[s.bus]? = (s.setBank s.bus k').banks[s.bus]? :=
      congrArg (fun u : State => u.banks[s.bus]?) (Host.Outcome.next.inj hrun)
    rw [State.setBank_get _ _ _ _ hb, State.setBank_get _ _ _ _ hb] at hbanks
    exact hk₁.trans (congrArg Except.ok (Option.some.inj hbanks))
  case h_2 => cases hrun

section
variable {s t : State} {k k' : Bank} {f : CmdFields} {op : Op} {n : Nat} (htrans : isTransaction op = true)
  (hl : s.params.pollLimit ≠ 0) (hb : s.banks[s.bus]? = some k) (hbusy : k.status.busy = false)
  (hop : lenAccepted k.len.toNat op) (hexec : exec (Instr.ofOp f op) s = .next t)
  (hrun : runEngine s.bus n t = .next (s.setBank s.bus k')) (hover : k'.status.busy = false)
include htrans hl hb hbusy hop hexec hrun hover

/-- Everything the statements say of a transaction that is over. -/
theorem transaction_over :
    ∃ evs, k'.scl = true ∧ k'.sda = true ∧ k'.trace = k.trace ++ evs ∧ (∃ before, evs = before ++ stopTrace) ∧
      (k.scl = true ∧ k.sda = true → conditions k.scl k.sda evs ∈ transactionConditions op) ∧ k'.len = k.len ∧
      (k'.status.fail = true → k'.buf = k.buf ∧ k'.rxdata = k.rxdata ∧ k'.status.cause = .ackTimeout) :=
  (transaction_endsWithin htrans hl hop).unique (by simp) (engineRun_of_accepted hb hbusy hop hexec hrun) hover

end

/-- Settles O35: from `transaction_over`. -/
theorem transactionsEndIdleAfterStop : Obligations.TransactionsEndIdleAfterStop := by
  intro s t k k' f op n htrans hl hb hbusy hop hexec hrun hover
  obtain ⟨_, hscl, hsda, htrace, ⟨before, rfl⟩, -⟩ := transaction_over htrans hl hb hbusy hop hexec hrun hover
  exact ⟨hscl, hsda, before, by rw [htrace, List.append_assoc]⟩

/-- Settles O36: from `transaction_over`. -/
theorem failedTransactionWritesNoResult : Obligations.FailedTransactionWritesNoResult := by
  intro s t k k' f op n htrans hl hb hbusy hop hexec hrun hover hfail
  obtain ⟨_, -, -, -, -, -, hlen, hkept⟩ := transaction_over htrans hl hb hbusy hop hexec hrun hover
  obtain ⟨hbuf, hrx, hcause⟩ := hkept hfail
  exact ⟨fun a => by rw [hbuf], hrx, hlen, hcause⟩

/-- Settles O37: from `transaction_over`. -/
theorem onlyStartAndStopConditions : Obligations.OnlyStartAndStopConditions := by
  intro s t k k' f op n htrans hl hb hbusy hop hscl hsda hexec hrun hover
  obtain ⟨evs, -, -, htrace, -, hconds, -⟩ := transaction_over htrans hl hb hbusy hop hexec hrun hover
  have hmem := hconds ⟨hscl, hsda⟩
  rw [hscl, hsda, transactionConditions] at hmem
  refine ⟨evs, htrace, ?_⟩
  split at hmem
  · next hop => simpa [hop] using hmem
  · exact .inl (List.mem_singleton.mp hmem)

/-! ## Every command (R199, R271) -/

/-- Within `bound` steps the engine has made the bank idle, or has stopped at a byte of BUF that holds no value. -/
def EndsBy (limit : BitVec 16) (live : Bool) (b : Nat) (k : Bank) (bound : Nat) : Prop :=
  ∃ n, n ≤ bound ∧
    ((∃ k', k.engineRun limit live b n = .ok k' ∧ k'.status.busy = false ∧ k'.seq = .idle) ∨
      ∃ i, k.engineRun limit live b n = .error i)

section
variable {limit : BitVec 16} {live : Bool} {b : Nat} {k k' : Bank} {bound n r : Nat}

theorem EndsWithin.endsBy {known : Prop} {conds : List (List Bool)} {mayFail : Bool}
    (h : EndsWithin limit live b k bound known conds mayFail) : EndsBy limit live b k bound := by
  obtain ⟨n, hn, ⟨k', _, hrun, hidle, hbusy, -⟩ | herr⟩ := h
  · exact ⟨n, hn, .inl ⟨k', hrun, hbusy, hidle⟩⟩
  · exact ⟨n, hn, .inr herr⟩

theorem EndsAs.endsBy {v : BankView} (h : EndsAs limit live b k n r v k') (hv : v.status.busy = false) :
    EndsBy limit live b k n :=
  ⟨n, Nat.le_refl n, .inl ⟨k', h.run, (congrArg (·.status.busy) h.view).trans hv, h.seq⟩⟩

theorem Reaches.endsBy {evs : List Ev} {scl sda : Bool} (h : Reaches limit live b k n r evs scl sda [] k') :
    EndsBy limit live b k (n + 1) := by
  obtain ⟨k₂, hend⟩ := h.completes
  exact hend.endsBy rfl

theorem EndsBy.mono {bound' : Nat} (h : EndsBy limit live b k bound) (hb : bound ≤ bound') :
    EndsBy limit live b k bound' := by
  obtain ⟨n, hn, h⟩ := h
  exact ⟨n, by omega, h⟩

/-- ACKWAIT alone, acknowledged or not (41_signals.md R140, R143). -/
theorem endsBy_ackwait (hl : limit ≠ 0) (h : k.seq = .run [] [.ackwait] .none) :
    EndsBy limit live b k (limit.toNat + 12) := by
  rcases acked_or_not b k limit.toNat with ⟨j, hj, ha⟩ | ha
  · obtain ⟨k₁, hacked⟩ := reaches_acked (limit := limit) (live := live) j h ha hj
    exact hacked.endsBy.mono (by omega)
  · obtain ⟨k₁, hend⟩ := (Reaches.refl (limit := limit) (live := live) h).timesOut hl ha
    exact (hend.endsBy rfl).mono (by omega)

/-- RECV alone, whatever it reads (42_byte_transfer.md R162). -/
theorem endsBy_recvRx (h : k.seq = .run [] [.recv .rx] .none) : EndsBy limit live b k 43 := by
  obtain ⟨hnext, hlength⟩ := takeAnswers_next b 8 k
  obtain ⟨v, hv⟩ := byteBits_surjective ((takeAnswers b 8 k).map (readLevel live k.sda)) (by simpa using hlength)
  obtain ⟨k₁, hend⟩ := endsAs_recvRx h hnext hv
  exact hend.endsBy rfl

/-- Every accepted command ends by its bound of R199 and the completion step. -/
theorem accepted_endsBy {op : Op} {f : CmdFields} (hl : limit ≠ 0) (hop : lenAccepted k.len.toNat op) :
    EndsBy limit live b (k.accepted op f) (eventBound limit.toNat k.len.toNat op + 1) := by
  cases htrans : isTransaction op with
  | true => exact (transaction_endsWithin htrans hl hop).endsBy
  | false =>
    cases op
    case pStart => obtain ⟨_, h⟩ := reaches_start (k := k.accepted .pStart f) rfl; exact h.endsBy
    case pStop => obtain ⟨_, h⟩ := reaches_stop (k := k.accepted .pStop f) rfl; exact h.endsBy
    case pAck => obtain ⟨_, h⟩ := reaches_ack (k := k.accepted .pAck f) rfl; exact h.endsBy
    case pNack => obtain ⟨_, h⟩ := reaches_nack (k := k.accepted .pNack f) rfl; exact h.endsBy
    case pSend => obtain ⟨_, h⟩ := reaches_send (k := k.accepted .pSend f) (src := .data) rfl rfl; exact h.endsBy
    case pAckwait => exact endsBy_ackwait hl rfl
    case pRecv => exact endsBy_recvRx rfl
    all_goals cases htrans

/-- A bank that has made its steps is not busy. -/
theorem EndsBy.not_busy (h : EndsBy limit live b k bound) (hn : bound ≤ n)
    (hrun : k.engineRun limit live b n = .ok k') : k'.status.busy = false := by
  obtain ⟨m, hm, hend⟩ := h
  obtain ⟨d, rfl⟩ := Nat.exists_eq_add_of_le (Nat.le_trans hm hn)
  rw [Bank.engineRun_add] at hrun
  obtain ⟨k₁, hk₁, hbusy, hidle⟩ | ⟨i, hi⟩ := hend
  · rw [hk₁] at hrun
    cases (Bank.engineRun_idle hidle d).symm.trans hrun
    exact hbusy
  · rw [hi] at hrun
    cases hrun

end

/-- Settles O38: `accepted_endsBy`, and a stop where `Bank.accept_error` says. -/
theorem everyCommandEnds : Obligations.EveryCommandEnds := by
  intro s k f op hl hb hbusy hop
  obtain ⟨n, hn, hend⟩ := accepted_endsBy (live := s.isLive s.bus) (b := s.bus) (f := f) hl hop
  refine ⟨_, n, exec_accepted hb hbusy hop, hn, ?_⟩
  rw [runEngine_eq n (State.setBank_get _ _ _ _ hb) rfl]
  simp only [State.setBank_params, State.setBank_isLive, State.setBank_setBank]
  obtain ⟨k', hrun, hover, hidle⟩ | ⟨i, herr⟩ := hend
  · exact .inl ⟨k', by rw [hrun], hover, hidle⟩
  · obtain ⟨hsends, hi, hread⟩ := Bank.accept_error hop herr
    exact .inr ⟨hsends, i, hi, hread, by rw [herr]⟩

/-! ## A host's wait (R271) -/

section
variable {b : Nat} {k : Bank} {p : Params} {n bound : Nat} {s : State}

/-- A wait that is over later in a run is over in the run. -/
theorem waitOver_after {m : Nat} {t : State} (h : core.run m s = .next t) (ht : ∃ l, WaitOver b (core.run l t)) :
    ∃ l, WaitOver b (core.run l s) := by
  obtain ⟨l, hl⟩ := ht
  exact ⟨m + l, by rw [run_then h]; exact hl⟩

/-- A step that stops is a run that stops. -/
theorem run_one_of_fault {e : Fault} (h : core.step s = .fault e) : core.run 1 s = .fault e := by
  simp only [Host.Core.run, h]

/-- The wait is over where the bank has made its steps. -/
theorem Stepped.waitOver (h : Stepped b k p n s) (he : EndsBy p.pollLimit (p.live.contains b) b k bound)
    (hn : bound ≤ n) : WaitOver b (.next s) := by
  obtain ⟨k', hrun, hb⟩ := h.bank
  exact waitOver_of_not_busy hb (he.not_busy hn hrun)

/-- Moves placed in the inputs, none a reset: the wait is over at one of them, or they have all been made and the bank
has only stepped, since a host's store finds it busy (20_memory.md R63). -/
theorem Stepped.inputs (h : Stepped b k p n s) (l : List Action) (hi : s.inputs = l) (hl : .reset ∉ l) :
    (∃ m, WaitOver b (core.run m s)) ∨
      ∃ m t n', core.run m s = .next t ∧ t.inputs = [] ∧ Stepped b k p n' t := by
  induction l generalizing s n with
  | nil => exact .inr ⟨0, s, n, rfl, hi, h⟩
  | cons a l ih =>
    by_cases hq : ∀ q, s.banks[b]? = some q → q.status.busy = true
    case neg =>
      obtain ⟨q, hq⟩ := Classical.not_forall.mp hq
      obtain ⟨hb, hq⟩ := Classical.not_imp.mp hq
      exact .inl ⟨0, waitOver_of_not_busy hb ((Bool.not_eq_true _).mp hq)⟩
    case pos =>
      have hs : Stepped b k p n { s with inputs := l } := ⟨h.params, h.bank⟩
      have hstep : core.step s = act a { s with inputs := l } := by
        show step s = _
        simp [step, move, hi]
      have next : ∀ t n', core.step s = .next t → t.inputs = l → Stepped b k p n' t →
          (∃ m, WaitOver b (core.run m s)) ∨
            ∃ m t n', core.run m s = .next t ∧ t.inputs = [] ∧ Stepped b k p n' t := by
        intro t n' ht hti h'
        rcases ih h' hti (fun hr => hl (List.mem_cons_of_mem _ hr)) with ⟨m, hm⟩ | ⟨m, u, n'', hu, hui, hs'⟩
        · exact .inl ⟨m + 1, by rw [run_first ht]; exact hm⟩
        · exact .inr ⟨m + 1, u, n'', by rw [run_first ht]; exact hu, hui, hs'⟩
      cases a with
      | engine c =>
        rcases hs.engineMove c with ⟨i, hf⟩ | ⟨t, ht, ha, h'⟩
        · exact .inl ⟨1, .inr ⟨c, i, run_one_of_fault (hstep.trans hf)⟩⟩
        · exact next t _ (hstep.trans ht) ha.inputs h'
      | host a =>
        obtain ⟨t, ht, ha, h'⟩ := hs.hostMove a (.inr hq)
        exact next t n (hstep.trans ht) ha.inputs h'
      | reset => exact absurd List.mem_cons_self hl

/-- The model's own schedule brings the bank to its end (93_implementation_defined.md: it is fair). -/
theorem Stepped.schedule (h : Stepped b k p n s) (he : EndsBy p.pollLimit (p.live.contains b) b k bound)
    (hi : s.inputs = []) : ∃ m, WaitOver b (core.run m s) := by
  induction hd : bound - n generalizing n s with
  | zero => exact ⟨0, h.waitOver he (by omega)⟩
  | succ d ih =>
    obtain ⟨m, ⟨c, i, hf⟩ | ⟨t, ht, hti, h'⟩⟩ := h.freeSchedule hi
    · exact ⟨m, .inr ⟨c, i, hf⟩⟩
    · exact waitOver_after ht (ih h' hti (by omega))

end

/-- Settles O60: a fair sequence of moves, or the moves placed and the schedule after them, give the bank's engine the
steps of `accepted_endsBy`. -/
theorem waitLoopsEnd : Obligations.WaitLoopsEnd := by
  intro s k f op hl hb hbusy hop
  have he := accepted_endsBy (live := s.isLive s.bus) (b := s.bus) (f := f) hl hop
  have hstart : ∀ l : List Action, Stepped s.bus (k.accepted op f) s.params 0
      { s.setBank s.bus (k.accepted op f) with inputs := l } :=
    fun l => ⟨rfl, _, rfl, State.setBank_get _ _ _ _ hb⟩
  refine ⟨_, exec_accepted hb hbusy hop, fun acts hfair hacts => ?given, fun moves hmoves => ?free⟩
  case given =>
    obtain ⟨n, hn⟩ := hfair.count (eventBound s.params.pollLimit.toNat k.len.toNat op + 1)
    refine ⟨n, fun m hm => ?_⟩
    have hmoves : ∀ a ∈ (List.range m).map acts, (∃ c, a = .engine c) ∨ ∃ x w, a = .host (.load x w) := by
      intro a ha
      obtain ⟨i, -, rfl⟩ := List.mem_map.mp ha
      exact hacts i
    have hlength : ((List.range m).map acts).length = m := by simp
    have hrun := (hstart ((List.range m).map acts)).run _ rfl hmoves
    rw [hlength] at hrun
    obtain ⟨c, i, hf⟩ | ⟨t, ht, -, h'⟩ := hrun
    · exact .inr ⟨c, i, hf⟩
    · have hover := h'.waitOver he (Nat.le_trans (hn m hm) (Nat.le_add_left _ _))
      exact (congrArg (WaitOver s.bus) ht).mpr hover
  case free =>
    obtain hover | ⟨m, t, n, ht, hti, h'⟩ := (hstart moves).inputs moves rfl hmoves
    · exact hover
    · exact waitOver_after ht (h'.schedule he hti)

end Sys2Proof.Machine
end
